-- ==== Sys2Proof/Word.lean ====
section
/-! DEFINITION. The words of the block: bytes, and the 16-bit halfwords that hold a window bound, an operand
latch, an orientation index or a pixel (00_scope.md R10: all widths, R11: all values are unsigned). -/

namespace Sys2Proof

/-- One byte on the wire: an opcode, an argument or half a pixel (R10). -/
abbrev Byte := BitVec 8

/-- A 16-bit operand: a row or column bound, an orientation index, an operand latch (R10, R26). -/
abbrev Half := BitVec 16

/-- A pixel: 16 bits, opaque to the block (R10, R109). -/
abbrev Pixel := BitVec 16

end Sys2Proof
end

