-- ==== Sys2Proof/Config.lean ====
section
/-! DEFINITION. What an implementation fixes (the parameters of 00_scope.md R9) and the free values the spec
leaves open. The parameters are one plain record, `Params`, which the state carries and no operation writes, so
that a statement about every state is a statement about every configuration (93_implementation_defined.md
part 2: "a claim holds for every admissible value unless it names one"). The open ones have no value here: the
reset configuration takes them from constants without a body. -/

namespace Sys2Proof

/-- The seven controller commands of layer W (30_encoding.md R105, 41_controller_commands.md R160). -/
inductive Cmd where
  | slpout | pixset | madctl | dispon | raset | caset | ramwr
  deriving DecidableEq, Repr, Inhabited

/-- The opcode bytes `OPC_<mnemonic>` of R105, parameters of the model (92_eei_decisions.md D19). -/
structure Opcodes where
  slpout : Byte
  pixset : Byte
  madctl : Byte
  dispon : Byte
  raset : Byte
  caset : Byte
  ramwr : Byte
  deriving DecidableEq, Repr, Inhabited

/-- One member of `ORIENT_SET` (R107): its memory-access-control byte `MADCTL_OF(o)`, and whether it exchanges
rows and columns, which fixes `DIMS(o)` (R61, D17). Its position in the set is its index. -/
structure OrientRow where
  madctl : Byte
  exchanges : Bool
  deriving DecidableEq, Repr, Inhabited

/-- One entry of the font (44_host_renderer_pseudo_ops.md R245): a character and its bitmask. Bit
`r * GLYPH_W + c` of the mask is the cell's pixel (r, c). DESIGN CHOICE (log 23, safe): the packing is the
model's, and the font itself is open. -/
structure Glyph where
  char : Char
  mask : Nat
  deriving DecidableEq, Repr, Inhabited

/-- The two SPI clock rates of R330; no rule depends on the rate. -/
inductive SpiRate where
  | mhz2 | mhz8
  deriving DecidableEq, Repr, Inhabited

/-- Which of the two clock edges of a bit's period data is captured on (R65). -/
inductive CaptureEdge where
  | first | second
  deriving DecidableEq, Repr, Inhabited

/-- `SPI_MODE` (R9): the level the clock idles at, true = 1, and the capture edge. -/
structure SpiMode where
  idle : Bool
  capture : CaptureEdge
  deriving DecidableEq, Repr, Inhabited

/-- Where a line of text stands relative to its anchor (R245). -/
inductive Alignment where
  | start | center | ending
  deriving DecidableEq, Repr, Inhabited

/-- The parameters of R9. -/
structure Params where
  spiHz : SpiRate
  spiMode : SpiMode
  nColsNative : Nat
  nRowsNative : Nat
  orientSet : List OrientRow
  pixfmtArg : Byte
  opc : Opcodes
  tRstPulse : Nat
  tSettle : Nat
  clearChunk : Nat
  dcReset : Bool
  glyphW : Nat
  glyphH : Nat
  lineHeight : Nat
  font : List Glyph
  deriving DecidableEq, Repr, Inhabited

/-- One answer of the SPI master to one transfer (20_memory.md R66). -/
inductive SpiAnswer where
  /-- every byte reached the wire -/
  | ok
  /-- a number of whole bytes short of the full list reached the wire, then the transfer failed -/
  | fail (k : Nat)
  /-- the transfer never ends -/
  | stall
  deriving DecidableEq, Repr, Inhabited

/-- One horizontal run of pixels of a row, columns `c0` to `c1` inclusive (R243). Coordinates are integers,
because a shape may cross the panel's edge (R244 (e)). -/
structure Run where
  row : Int
  c0 : Int
  c1 : Int
  deriving DecidableEq, Repr, Inhabited

/-- Everything the source leaves to the renderer in one drawing request (U18): which runs it draws and in which
order (R243, R246), where the first line of a text stands relative to the anchor's row (R247), which way a
centred line of odd width is rounded (N12), the bitmaps of characters the font has not (R249 (c)), and whether the
renderer clips what lies outside the panel or lets the block refuse it (N14; log 24). A plan the rules do not allow
has no effect: see Machine/Renderer.lean. -/
structure RenderChoice where
  plan : List Run
  top : Int
  roundUp : List Bool
  missing : List Glyph
  clips : Bool
  deriving DecidableEq, Repr, Inhabited

/-- Free value: the SPI master's n-th answer, where the state's script does not give it (R66: "a draw under no
law"; U5, U6). No body: nothing is known of it (log 6). -/
opaque Config.spiOracle : Nat → SpiAnswer

/-- Free value: the renderer's n-th choice, where the state's script does not give it (U18; log 19). -/
opaque Config.renderChoice : Nat → RenderChoice

/-- Open parameter `SPI_HZ` (R9: "picked per deployment"; log 10). -/
opaque Config.spiHz : SpiRate

/-- Open parameter `T_RST_PULSE` (D22; log 10). -/
opaque Config.tRstPulse : Nat

/-- Open parameter `T_SETTLE` (D22; log 10). -/
opaque Config.tSettle : Nat

/-- Open parameter `CLEAR_CHUNK_PIXELS` less one: the parameter is at least 1 (D16, R216; log 10). -/
opaque Config.clearChunkLessOne : Nat

/-- Open parameter `DC_RESET` (D5; log 11). -/
opaque Config.dcReset : Bool

/-- Open parameter `GLYPH_W` (D34; log 10). -/
opaque Config.glyphW : Nat

/-- Open parameter `GLYPH_H` (D34; log 10). -/
opaque Config.glyphH : Nat

/-- Open parameter `LINE_HEIGHT` (D34; log 10). -/
opaque Config.lineHeight : Nat

/-- Open parameter `FONT` (D34; log 10, 23). -/
opaque Config.font : List Glyph

/-- The source's `SPI_MODE`: "idle-low clock, data captured on the first clock edge" (R9, R65). -/
def Config.spiMode : SpiMode where
  idle := false
  capture := .first

/-- The default opcode bytes of R105. PRESUMED (log 8, unsafe): "from general knowledge, not in source". -/
def Config.opcodes : Opcodes where
  slpout := 0x11#8
  pixset := 0x3A#8
  madctl := 0x36#8
  dispon := 0x29#8
  raset := 0x2B#8
  caset := 0x2A#8
  ramwr := 0x2C#8

/-- The default orientation table of R107, in its order: Portrait, PortraitFlipped, Landscape,
LandscapeFlipped. PRESUMED (log 9, unsafe): "from general knowledge, not in source". -/
def Config.orientSet : List OrientRow :=
  [{ madctl := 0x48#8, exchanges := false }, { madctl := 0x88#8, exchanges := false },
    { madctl := 0x28#8, exchanges := true }, { madctl := 0xE8#8, exchanges := true }]

/-- Index 0 of R107. -/
def Config.portrait : Half := 0#16
/-- Index 1 of R107. -/
def Config.portraitFlipped : Half := 1#16
/-- Index 2 of R107. -/
def Config.landscape : Half := 2#16
/-- Index 3 of R107. -/
def Config.landscapeFlipped : Half := 3#16

/-- The configuration after reset: the source's values and the spec's defaults (R9), and for every open
parameter the constant without a body above. -/
def Config.default : Params where
  spiHz := Config.spiHz
  spiMode := Config.spiMode
  nColsNative := 240
  nRowsNative := 320
  orientSet := Config.orientSet
  pixfmtArg := 0x55#8
  opc := Config.opcodes
  tRstPulse := Config.tRstPulse
  tSettle := Config.tSettle
  clearChunk := Config.clearChunkLessOne + 1
  dcReset := Config.dcReset
  glyphW := Config.glyphW
  glyphH := Config.glyphH
  lineHeight := Config.lineHeight
  font := Config.font

end Sys2Proof
end

