-- ==== Sys2Proof/Syntax.lean ====
section
/-! DEFINITION. The operations of the block and of its host, one constructor per row of
spec/opcode_table.json (00_scope.md R3: layer W, layer T and layer H; 44_host_renderer_pseudo_ops.md: the
host-side pseudo-operations). -/

namespace Sys2Proof

/-- The operations. A layer-H constructor carries the four operand fields OPA, OPB, OPC2, OPD of its
descriptor in this order (30_encoding.md R110); those the table marks unused (b, c2, d, ...) are ignored by the
operation and only held in the operand latches. -/
inductive Instr where
  /-- SLPOUT, sleep-out (R161) -/
  | slpout
  /-- PIXSET, pixel-format-set; its argument is fixed (R162) -/
  | pixset
  /-- MADCTL, memory-access-control, of the orientation with index `o` (R163) -/
  | madctl (o : Half)
  /-- DISPON, display-on (R164) -/
  | dispon
  /-- RASET, row-address-set, inclusive rows `r0` to `r1` (R165) -/
  | raset (r0 r1 : Half)
  /-- CASET, column-address-set, inclusive columns `c0` to `c1` (R166) -/
  | caset (c0 c1 : Half)
  /-- RAMWR, memory-write (R167) -/
  | ramwr
  /-- INIT with the orientation index `o` (R192) -/
  | init (o b c2 d : Half)
  /-- SET_ORIENTATION with the orientation index `o` (R196) -/
  | setOrientation (o b c2 d : Half)
  /-- SET_ADDRESS_WINDOW, inclusive rows `r0` to `r1` and columns `c0` to `c1` (R211) -/
  | setAddressWindow (r0 r1 c0 c1 : Half)
  /-- WRITE_PIXEL_STREAM of the payload `px` (R112, R214) -/
  | writePixelStream (a b c2 d : Half) (px : List Pixel)
  /-- CLEAR to a colour (R216) -/
  | clear (color : Pixel) (b c2 d : Half)
  /-- SEND_COMMAND, the command frame primitive (R141) -/
  | sendCommand (opcode : Byte) (args : List Byte)
  /-- SEND_PIXELS, the data frame primitive (R143) -/
  | sendPixels (bytes : List Byte)
  /-- DRAW_CIRCLE about (`row`, `col`) (R241) -/
  | drawCircle (row col radius : Nat) (strokeColor : Pixel) (strokeWidth : Nat) (fillColor : Pixel)
  /-- DRAW_TEXT at the anchor (`row`, `col`) (R245) -/
  | drawText (text : List Char) (row col : Nat) (align : Alignment) (color : Pixel)
  /-- PLOT of one pixel (R117) -/
  | plot (r c : Half) (p : Pixel)
  deriving DecidableEq, Repr

end Sys2Proof
end

