-- ==== Sys2Proof/Machine/Operands.lean ====
section
/-! DEFINITION. Every operand form: how operands become bytes (30_encoding.md R105 to R109, R118), what an
orientation gives (R107), the window's bounds and area (R62, R212), and the fixed command tables
(42_init_sequencer.md R191, 43_window_pixel_sequencer.md R211). All of it is arithmetic on plain values: no
state. -/

namespace Sys2Proof

/-! ### Bytes of a halfword (R11, R118) -/

/-- `hi8(v) = v[15:8]` (R11). -/
def hi8 (v : Half) : Byte := v.extractLsb' 8 8

/-- `lo8(v) = v[7:0]` (R11). -/
def lo8 (v : Half) : Byte := v.extractLsb' 0 8

/-- `be16(v) = [hi8(v), lo8(v)]`, most significant byte first (R11, R63). -/
def be16 (v : Half) : List Byte := [hi8 v, lo8 v]

/-- The receiver's inverse of `be16`: hi × 256 + lo (R75, R78, R118). -/
def ofBytes (h l : Byte) : Half := h ++ l

/-- A pixel sequence as bytes: each pixel big-endian, in sequence order (R109, R214 line 1). -/
def pixelBytes : List Pixel → List Byte
  | [] => []
  | p :: ps => hi8 p :: lo8 p :: pixelBytes ps

/-- The bits of a byte in the order they are shifted out, bit 7 first (R104, D21). -/
def wireBits (b : Byte) : List Bool :=
  [b.getLsbD 7, b.getLsbD 6, b.getLsbD 5, b.getLsbD 4, b.getLsbD 3, b.getLsbD 2, b.getLsbD 1, b.getLsbD 0]

/-- The red, green and blue fields of a pixel (R109, D28). Nothing in the block depends on them. -/
def rgbFields (p : Pixel) : BitVec 5 × BitVec 6 × BitVec 5 :=
  (p.extractLsb' 11 5, p.extractLsb' 5 6, p.extractLsb' 0 5)

/-! ### Commands (R105) -/

/-- The opcode byte of a command. -/
def Opcodes.byte (t : Opcodes) : Cmd → Byte
  | .slpout => t.slpout
  | .pixset => t.pixset
  | .madctl => t.madctl
  | .dispon => t.dispon
  | .raset => t.raset
  | .caset => t.caset
  | .ramwr => t.ramwr

/-- The seven commands, in the order of R105. -/
def Cmd.all : List Cmd := [.slpout, .pixset, .madctl, .dispon, .raset, .caset, .ramwr]

/-- The command an opcode byte names, if it is one of the seven. -/
def Opcodes.cmd? (t : Opcodes) (b : Byte) : Option Cmd := Cmd.all.find? fun c => t.byte c == b

/-- How many argument bytes a command takes: the formats CMD0, CMD1, CMD4 of R101 and R105. -/
def Cmd.argCount : Cmd → Nat
  | .slpout => 0
  | .pixset => 1
  | .madctl => 1
  | .dispon => 0
  | .raset => 4
  | .caset => 4
  | .ramwr => 0

/-- The argument bytes of RASET and CASET: start then end, each most significant byte first (R108, D20). -/
def boundArgs (v0 v1 : Half) : List Byte := be16 v0 ++ be16 v1

/-! ### Orientations (R107, R61) -/

/-- The member of `ORIENT_SET` at an index, if there is one. -/
def Params.orientRow? (p : Params) (o : Half) : Option OrientRow := p.orientSet[o.toNat]?

/-- `MADCTL_OF(o)` (R107), for an orientation in the set. -/
def Params.madctlOf? (p : Params) (o : Half) : Option Byte := (p.orientRow? o).map OrientRow.madctl

/-- `DIMS(o)` as (rows, columns): the native dimensions, exchanged if the orientation exchanges them (R61,
D17). -/
def Params.dims? (p : Params) (o : Half) : Option (Nat × Nat) :=
  (p.orientRow? o).map fun r =>
    if r.exchanges then (p.nColsNative, p.nRowsNative) else (p.nRowsNative, p.nColsNative)

/-! ### Fixed command tables -/

/-- `INIT_TABLE(o)` (R191), for the memory-access-control byte `m` of the requested orientation. -/
def Params.initTable (p : Params) (m : Byte) : List (Cmd × List Byte) :=
  [(.slpout, []), (.pixset, [p.pixfmtArg]), (.madctl, [m]), (.dispon, [])]

/-- The three commands of a window, row, column, memory-write (R211, D14). -/
def windowTable (r0 r1 c0 c1 : Half) : List (Cmd × List Byte) :=
  [(.raset, boundArgs r0 r1), (.caset, boundArgs c0 c1), (.ramwr, [])]

/-! ### Windows (R62, R114 (d), R212) -/

/-- The admission condition on bounds: r0 <= r1 < NROWS and c0 <= c1 < NCOLS (R114 (d), R211). -/
def boundsOk (nr nc : Nat) (r0 r1 c0 c1 : Half) : Bool :=
  decide (r0.toNat ≤ r1.toNat) && decide (r1.toNat < nr) && decide (c0.toNat ≤ c1.toNat) && decide (c1.toNat < nc)

/-- A window's area, an exact natural number: width × height with inclusive bounds (R62, R118, R212). -/
def windowArea (r0 r1 c0 c1 : Nat) : Nat := (c1 - c0 + 1) * (r1 - r0 + 1)

/-- The frames CLEAR cuts its pixels into: each of `chunk` pixels, the last of what is left (R216 lines 3 to
7). `fuel` bounds the loop; `left` frames are enough, since a chunk is at least 1. -/
def clearFrames (chunk : Nat) : Nat → Nat → List Nat
  | 0, _ => []
  | fuel + 1, left =>
    if left = 0 then [] else min left chunk :: clearFrames chunk fuel (left - min left chunk)

/-- A coordinate of the renderer as a 16-bit bound, if it is one (R10, R244 (e)). -/
def toBound? (v : Int) : Option Half :=
  if 0 ≤ v ∧ v < 65536 then some (BitVec.ofNat 16 v.toNat) else none

/-! ### Shapes (44_host_renderer_pseudo_ops.md) -/

/-- The square of the Euclidean distance of (r, c) from the centre (R242, D34). -/
def dist2 (row col : Nat) (r c : Int) : Int := (r - row) * (r - row) + (c - col) * (c - col)

/-- The colour a circle gives the pixel (r, c), or none where it is untouched: fill within R - W, stroke in the
band up to R, nothing outside (R242). -/
def circleColor (row col radius : Nat) (stroke : Pixel) (width : Nat) (fill : Pixel) (r c : Int) : Option Pixel :=
  let d2 := dist2 row col r c
  if width ≤ radius ∧ d2 ≤ ((radius - width : Nat) : Int) * ((radius - width : Nat) : Int) then some fill
  else if d2 ≤ (radius : Int) * radius then some stroke
  else none

/-- The set bits of a glyph's mask as (row, column) offsets in its cell, in row-major order (R245). -/
def glyphBits (w h mask : Nat) : List (Nat × Nat) :=
  (List.range h).flatMap fun (r : Nat) => (List.range w).filterMap fun (c : Nat) =>
    if mask.testBit (r * w + c) then some (r, c) else none

/-- The bitmask a glyph table gives a character, if it has one. -/
def glyphMask? (table : List Glyph) (ch : Char) : Option Nat := (table.find? fun g => g.char == ch).map Glyph.mask

/-- The lines of a text: a newline character ends a line and draws nothing (R248). -/
def textLines : List Char → List (List Char)
  | [] => [[]]
  | ch :: rest =>
    if ch = '\n' then [] :: textLines rest
    else match textLines rest with
      | [] => [[ch]]
      | l :: ls => (ch :: l) :: ls

/-- The column where a line of rendered width `w` begins (R247). Start: at the anchor's column. Ending: its
last column is the anchor's, DEDUCED from "the line ends at the anchor's column" (log 20, unsafe). Center: half
the width before the anchor's column; where the width is odd the rounding is free (`up`, N12). -/
def lineStart (align : Alignment) (anchor : Nat) (w : Nat) (up : Bool) : Int :=
  match align with
  | .start => anchor
  | .ending => (anchor : Int) - w + 1
  | .center => (anchor : Int) - (if up then (w + 1) / 2 else w / 2 : Nat)

end Sys2Proof
end

