-- ==== Sys2Proof/WellFormed.lean ====
section
/-! DEFINITION. What a well-formed configuration and a well-formed operation are. The checks are those the spec
makes on operands alone; the admission checks on the block's state are the machine's (Machine/Ops.lean). -/

namespace Sys2Proof

/-- The seven opcode bytes are pairwise distinct (R105, R115). -/
def Opcodes.distinct (t : Opcodes) : Bool := decide (Cmd.all.map t.byte).Nodup

/-- A well-formed configuration: distinct opcodes (R105), at least one row and column and no more than a 16-bit
bound can name (R10), a chunk of at least one pixel (D16), a non-empty orientation set that a 16-bit index can
name (R110). -/
def Params.wf (p : Params) : Bool :=
  p.opc.distinct && decide (1 ≤ p.nRowsNative) && decide (p.nRowsNative ≤ 65536) && decide (1 ≤ p.nColsNative) &&
    decide (p.nColsNative ≤ 65536) && decide (1 ≤ p.clearChunk) && decide (1 ≤ p.orientSet.length) &&
    decide (p.orientSet.length ≤ 65536)

/-- No two orientations of the set have the same memory-access-control byte, so that the byte tells the
orientation. -/
def Params.madctlDistinct (p : Params) : Bool := decide (p.orientSet.map OrientRow.madctl).Nodup

/-- An orientation index inside `ORIENT_SET` (R114 (c)). -/
def Params.hasOrient (p : Params) (o : Half) : Bool := (p.orientRow? o).isSome

/-- Bounds that some orientation of the set admits (R114 (d)). -/
def Params.someBoundsOk (p : Params) (r0 r1 c0 c1 : Half) : Bool :=
  p.orientSet.any fun r =>
    if r.exchanges then boundsOk p.nColsNative p.nRowsNative r0 r1 c0 c1
    else boundsOk p.nRowsNative p.nColsNative r0 r1 c0 c1

/-- An opcode of the seven with exactly the arguments it takes (R114 (e)). -/
def Params.commandOk (p : Params) (opcode : Byte) (args : List Byte) : Bool :=
  match p.opc.cmd? opcode with
  | some c => args.length == c.argCount
  | none => false

/-- The operand checks of R62, R110 ("unused operand fields ... should be zero") and R114 (c), (d), (e). -/
def Instr.wf (p : Params) : Instr → Bool
  | .slpout => true
  | .pixset => true
  | .madctl o => p.hasOrient o
  | .dispon => true
  | .raset r0 r1 => decide (r0.toNat ≤ r1.toNat)
  | .caset c0 c1 => decide (c0.toNat ≤ c1.toNat)
  | .ramwr => true
  | .init o b c2 d => p.hasOrient o && b == 0 && c2 == 0 && d == 0
  | .setOrientation o b c2 d => p.hasOrient o && b == 0 && c2 == 0 && d == 0
  | .setAddressWindow r0 r1 c0 c1 => p.someBoundsOk r0 r1 c0 c1
  | .writePixelStream a b c2 d _ => a == 0 && b == 0 && c2 == 0 && d == 0
  | .clear _ b c2 d => b == 0 && c2 == 0 && d == 0
  | .sendCommand opcode args => p.commandOk opcode args
  | .sendPixels _ => true
  | .drawCircle _ _ _ _ _ _ => true
  | .drawText _ _ _ _ _ => true
  | .plot r c _ => p.someBoundsOk r r c c

end Sys2Proof
end

