-- ==== Sys2Proof/Decode.lean ====
section
/-! DEFINITION. The encodings and their decoders. The host descriptor of 68 bits with its payload stream
(30_encoding.md R110, R112); the layer-W commands, once as a request (the opcode table's 8-bit word and its
operands, log 3) and once as the bytes of their wire frame (R101, R105 to R108); and the operations that have no
encoding (R110, R117). Decoding is total and rejects by name; the encoder stands after it. -/

namespace Sys2Proof

/-- One operation as it is requested: of the block by the host, or of the Bus Transport by a test in the Controller Driver's
place (R150; `fromHost` tells which). -/
inductive Request where
  /-- a 68-bit host descriptor and the payload stream that goes with it (R110, R112); the end of the list is the
  stream's end marker -/
  | descriptor (word : BitVec 68) (payload : List Pixel)
  /-- a layer-W command: the 8-bit word of its opcode-table row, then its operands in 16-bit words. DESIGN CHOICE
  (log 3): the spec gives layer W a wire form and no request form -/
  | command (word : Byte) (operands : List Half)
  /-- an operation in the call form of R116; the only form of the layer-T primitives (R110) and the host-side
  pseudo-operations (R117), which have no encoding -/
  | call (i : Instr)
  deriving DecidableEq, Repr

/-- Why a decoder rejects. -/
inductive DecodeError where
  /-- op 0x5 to 0xF (R110, R114 (a)) -/
  | reservedOp
  /-- a payload with an operation that takes none (R110, column payload) -/
  | strayPayload
  /-- an opcode byte that is none of the seven (R105, R114 (e)) -/
  | unknownCommand
  /-- a number of operands or argument bytes other than the command's (R105, R114 (e)) -/
  | argumentCount
  /-- an argument byte that encodes no operand: not PIXFMT_ARG (R106), no orientation's byte (R107) -/
  | argumentValue
  /-- a frame without a byte (R101) -/
  | emptyFrame
  deriving DecidableEq, Repr

/-! ### Decoding -/

/-- The fields of a descriptor: op[67:64], OPA[63:48], OPB[47:32], OPC2[31:16], OPD[15:0] (R110). -/
def descriptorOp (w : BitVec 68) : BitVec 4 := w.extractLsb' 64 4
/-- OPA[63:48] (R110). -/
def descriptorA (w : BitVec 68) : Half := w.extractLsb' 48 16
/-- OPB[47:32] (R110). -/
def descriptorB (w : BitVec 68) : Half := w.extractLsb' 32 16
/-- OPC2[31:16] (R110). -/
def descriptorC (w : BitVec 68) : Half := w.extractLsb' 16 16
/-- OPD[15:0] (R110). -/
def descriptorD (w : BitVec 68) : Half := w.extractLsb' 0 16

/-- An operation that takes no payload (R110). -/
def withoutPayload (payload : List Pixel) (i : Instr) : Except DecodeError Instr :=
  match payload with
  | [] => .ok i
  | _ :: _ => .error .strayPayload

/-- The host descriptor's decoder (R110, R112, R114 (a)). -/
def decodeDescriptor (w : BitVec 68) (payload : List Pixel) : Except DecodeError Instr :=
  let a := descriptorA w
  let b := descriptorB w
  let c := descriptorC w
  let d := descriptorD w
  if descriptorOp w = 0x0#4 then withoutPayload payload (.init a b c d)
  else if descriptorOp w = 0x1#4 then withoutPayload payload (.setOrientation a b c d)
  else if descriptorOp w = 0x2#4 then withoutPayload payload (.setAddressWindow a b c d)
  else if descriptorOp w = 0x3#4 then .ok (.writePixelStream a b c d payload)
  else if descriptorOp w = 0x4#4 then withoutPayload payload (.clear a b c d)
  else .error .reservedOp

/-- The opcode table's 8-bit word of a layer-W row: its `match` byte. -/
def Cmd.tableByte (c : Cmd) : Byte := Config.opcodes.byte c

/-- How many operands a command has (R161 to R167). -/
def Cmd.operandCount : Cmd → Nat
  | .slpout => 0
  | .pixset => 0
  | .madctl => 1
  | .dispon => 0
  | .raset => 2
  | .caset => 2
  | .ramwr => 0

/-- An operation without operands. -/
def withoutOperands (i : Instr) : List Half → Except DecodeError Instr
  | [] => .ok i
  | _ :: _ => .error .argumentCount

/-- An operation with one operand. -/
def withOneOperand (f : Half → Instr) : List Half → Except DecodeError Instr
  | [o] => .ok (f o)
  | _ => .error .argumentCount

/-- An operation with two operands. -/
def withTwoOperands (f : Half → Half → Instr) : List Half → Except DecodeError Instr
  | [v0, v1] => .ok (f v0 v1)
  | _ => .error .argumentCount

/-- The operands of a layer-W request (R161 to R167). -/
def decodeOperands : Cmd → List Half → Except DecodeError Instr
  | .slpout, ops => withoutOperands .slpout ops
  | .pixset, ops => withoutOperands .pixset ops
  | .madctl, ops => withOneOperand .madctl ops
  | .dispon, ops => withoutOperands .dispon ops
  | .raset, ops => withTwoOperands .raset ops
  | .caset, ops => withTwoOperands .caset ops
  | .ramwr, ops => withoutOperands .ramwr ops

/-- The decoder of a layer-W request. -/
def decodeCommand (word : Byte) (operands : List Half) : Except DecodeError Instr :=
  match Config.opcodes.cmd? word with
  | some c => decodeOperands c operands
  | none => .error .unknownCommand

/-- The decoder of requests. -/
def decode : Request → Except DecodeError Instr
  | .descriptor w payload => decodeDescriptor w payload
  | .command word operands => decodeCommand word operands
  | .call i => .ok i

/-- A command without argument bytes (CMD0). -/
def withoutBytes (i : Instr) : List Byte → Except DecodeError Instr
  | [] => .ok i
  | _ :: _ => .error .argumentCount

/-- A command with one argument byte (CMD1), which stands for an operation or for none. -/
def withOneByte (f : Byte → Option Instr) : List Byte → Except DecodeError Instr
  | [x] =>
    match f x with
    | some i => .ok i
    | none => .error .argumentValue
  | _ => .error .argumentCount

/-- A command with two bounds (CMD4), each most significant byte first (R108). -/
def withBounds (f : Half → Half → Instr) : List Byte → Except DecodeError Instr
  | [x0, x1, x2, x3] => .ok (f (ofBytes x0 x1) (ofBytes x2 x3))
  | _ => .error .argumentCount

/-- The orientation a memory-access-control byte stands for (R107). -/
def Params.orientOf? (p : Params) (x : Byte) : Option Half :=
  (p.orientSet.findIdx? fun r => r.madctl == x).map (BitVec.ofNat 16)

/-- The argument bytes of a command (R105 to R108). -/
def decodeArgs (p : Params) : Cmd → List Byte → Except DecodeError Instr
  | .slpout, args => withoutBytes .slpout args
  | .pixset, args => withOneByte (fun x => if x = p.pixfmtArg then some .pixset else none) args
  | .madctl, args => withOneByte (fun x => (p.orientOf? x).map .madctl) args
  | .dispon, args => withoutBytes .dispon args
  | .raset, args => withBounds .raset args
  | .caset, args => withBounds .caset args
  | .ramwr, args => withoutBytes .ramwr args

/-- The decoder of a command frame's bytes, opcode first, as a receiver tells them: the opcode byte by DC = 0,
the number of arguments by the opcode (R101, R105 to R108, R115). -/
def decodeWire (p : Params) : List Byte → Except DecodeError Instr
  | [] => .error .emptyFrame
  | b :: args =>
    match p.opc.cmd? b with
    | some c => decodeArgs p c args
    | none => .error .unknownCommand

/-! ### Encoding -/

/-- A descriptor from its five fields (R110). -/
def descriptorWord (op : BitVec 4) (a b c d : Half) : BitVec 68 := op ++ a ++ b ++ c ++ d

/-- The request that presents an operation. -/
def encode : Instr → Request
  | .slpout => .command (Cmd.tableByte .slpout) []
  | .pixset => .command (Cmd.tableByte .pixset) []
  | .madctl o => .command (Cmd.tableByte .madctl) [o]
  | .dispon => .command (Cmd.tableByte .dispon) []
  | .raset r0 r1 => .command (Cmd.tableByte .raset) [r0, r1]
  | .caset c0 c1 => .command (Cmd.tableByte .caset) [c0, c1]
  | .ramwr => .command (Cmd.tableByte .ramwr) []
  | .init o b c2 d => .descriptor (descriptorWord 0x0#4 o b c2 d) []
  | .setOrientation o b c2 d => .descriptor (descriptorWord 0x1#4 o b c2 d) []
  | .setAddressWindow r0 r1 c0 c1 => .descriptor (descriptorWord 0x2#4 r0 r1 c0 c1) []
  | .writePixelStream a b c2 d px => .descriptor (descriptorWord 0x3#4 a b c2 d) px
  | .clear color b c2 d => .descriptor (descriptorWord 0x4#4 color b c2 d) []
  | .sendCommand opcode args => .call (.sendCommand opcode args)
  | .sendPixels bytes => .call (.sendPixels bytes)
  | .drawCircle row col radius stroke width fill => .call (.drawCircle row col radius stroke width fill)
  | .drawText text row col align color => .call (.drawText text row col align color)
  | .plot r c px => .call (.plot r c px)

/-- The command and argument bytes a layer-W operation puts on the wire (R161 to R167); none for the other
layers, and none for an orientation outside the set. -/
def wireCommand? (p : Params) : Instr → Option (Cmd × List Byte)
  | .slpout => some (.slpout, [])
  | .pixset => some (.pixset, [p.pixfmtArg])
  | .madctl o => (p.madctlOf? o).map fun m => (.madctl, [m])
  | .dispon => some (.dispon, [])
  | .raset r0 r1 => some (.raset, boundArgs r0 r1)
  | .caset c0 c1 => some (.caset, boundArgs c0 c1)
  | .ramwr => some (.ramwr, [])
  | .init _ _ _ _ => none
  | .setOrientation _ _ _ _ => none
  | .setAddressWindow _ _ _ _ => none
  | .writePixelStream _ _ _ _ _ => none
  | .clear _ _ _ _ => none
  | .sendCommand _ _ => none
  | .sendPixels _ => none
  | .drawCircle _ _ _ _ _ _ => none
  | .drawText _ _ _ _ _ => none
  | .plot _ _ _ => none

/-- The bytes of a layer-W operation's command frame, opcode first (R101). -/
def encodeWire (p : Params) (i : Instr) : Option (List Byte) :=
  (wireCommand? p i).map fun ca => p.opc.byte ca.1 :: ca.2

/-! ### Words as the opcode table numbers them -/

/-- Operand `k` of a layer-W request word: the 16 bits that follow the 8-bit table word. -/
def commandOperand (w k : Nat) : Half := BitVec.ofNat 16 (w >>> (8 + 16 * k))

/-- The request whose bits are `w`, numbered as the opcode table numbers them: a table word of up to 40 bits is
a layer-W command with its operands, a longer one a host descriptor without payload. Zero bits is no encoding. -/
def requestOfWord (nbits w : Nat) : Option Request :=
  if nbits = 0 then none
  else if nbits ≤ 40 then
    some (.command (BitVec.ofNat 8 w)
      (match Config.opcodes.cmd? (BitVec.ofNat 8 w) with
        | some c => (List.range c.operandCount).map (commandOperand w)
        | none => []))
  else some (.descriptor (BitVec.ofNat 68 w) [])

/-- The instruction the decoder reads from an opcode-table word. -/
def decodeTableWord (nbits w : Nat) : Option Instr :=
  match requestOfWord nbits w with
  | some r => (decode r).toOption
  | none => none

end Sys2Proof
end

