-- ==== Sys2Proof/Machine/State.lean ====
section
/-! DEFINITION. The state of the block (10_state.md R20, R29, R31), the inputs and outputs of the host port and
the SPI master as the model holds them, and the state after reset (R37, R300). -/

namespace Sys2Proof.Machine

/-- `STATE`, the Controller State (R21). -/
inductive CtrlState where
  | unpowered | resetting | initializing | ready
  deriving DecidableEq, Repr, Inhabited

/-- The three output pins (R25). A level is a Bool, true = 1. -/
inductive Pin where
  | csN | dc | rstN
  deriving DecidableEq, Repr, Inhabited

/-- An event of the wire trace `TR`; there are exactly these four kinds (R13, R31). -/
inductive Event where
  /-- `Pin(P, v)`: the pin was driven to the level -/
  | pin (p : Pin) (v : Bool)
  /-- `Byte(d, b)`: byte b was shifted out while DC held level d for the whole byte -/
  | byte (d : Bool) (b : Byte)
  /-- `XferFail`: a transfer failed -/
  | xferFail
  /-- `Wait(T)`: at least T elapsed -/
  | wait (t : Nat)
  deriving DecidableEq, Repr

/-- The operand latches of the operation in progress (R26), loaded from the descriptor's fields (R110). -/
structure Latches where
  opc : BitVec 4
  opa : Half
  opb : Half
  opc2 : Half
  opd : Half
  deriving DecidableEq, Repr, Inhabited

/-- The SPI master as the block finds it between steps (R33 (d), R66): free, or in a transfer that never ends. -/
inductive SpiMaster where
  | idle | stalled
  deriving DecidableEq, Repr, Inhabited

/-- The completion value of an operation (R113, R260). -/
inductive Completion where
  | ok | busError | displayInitError | displayIoError
  deriving DecidableEq, Repr, Inhabited

/-- Why the machine stops. -/
inductive Fault where
  /-- A transfer has stalled: "the block takes no further step and accepts no further operation" (R146, R66).
  Raised by every operation and every step from a state whose SPI master is stalled; no completion value exists.
  Safe: nothing is claimed of what follows. -/
  | transferStalled
  deriving DecidableEq, Repr

/-- Why an operation is refused: the forms R114 gives no meaning. Every refusal is safe: nothing is claimed of
what the hardware does with such a form. -/
inductive Refusal where
  /-- An instruction that has no meaning yet; raised by `exec` alone. Safe. -/
  | notModelled (mnemonic : String)
  /-- A descriptor with op 0x5 to 0xF (R114 (a)); raised by `step`. Safe. -/
  | reservedOp
  /-- A request the decoder rejects otherwise (R110, R114 (e)); raised by `step`. Safe. -/
  | malformedRequest
  /-- A request at a boundary its layer is not reached from: a command or a Bus Transport primitive at the host port,
  since these "are not reachable from the host" (R275 (a), R110, R140), or a host operation at the Bus Transport's
  boundary; raised by `step`. Safe. -/
  | notReachable
  /-- `INIT` when `STATE` is not Unpowered (R114 (b), R190); raised by INIT. Safe. -/
  | notUnpowered
  /-- Any other host operation when `STATE` is not Ready (R114 (b), R190); raised by the Ready operations and by
  the pseudo-operations that issue them. Safe. -/
  | notReady
  /-- An orientation index outside `ORIENT_SET` (R114 (c)); raised by INIT, SET_ORIENTATION and MADCTL. Safe. -/
  | orientationOutsideSet
  /-- Window bounds reversed or outside `DIMS(ORIENT)` (R114 (d)); raised by SET_ADDRESS_WINDOW and the
  pseudo-operations that issue it. Safe. -/
  | windowOutOfBounds
  /-- `ORIENT` is read while it names no orientation, which "is never read while unset" (R24); raised by
  SET_ADDRESS_WINDOW and CLEAR in states no run reaches. Safe. -/
  | orientationUnset
  /-- `SEND_COMMAND` with an opcode that is none of the seven (R114 (e)); raised by SEND_COMMAND. Safe. -/
  | commandNotInSet
  /-- `SEND_COMMAND` with an argument count other than the opcode's (R114 (e)); raised by SEND_COMMAND. Safe. -/
  | commandArgCount
  deriving DecidableEq, Repr

/-- The state of the machine. -/
structure State where
  /-- STATE (R21) -/
  ctrl : CtrlState
  /-- INIT_STEP, 0 to 4 (R22) -/
  initStep : BitVec 3
  /-- ORIENT, an orientation index, or unset (R24) -/
  orient : Option Half
  /-- CS_N, active low (R25) -/
  csN : Bool
  /-- DC (R25) -/
  dc : Bool
  /-- RST_N, active low (R25) -/
  rstN : Bool
  /-- the operand latches (R26) -/
  latches : Latches
  /-- TR, the wire event trace, oldest first (R31) -/
  tr : List Event
  /-- the SPI master's transfer in progress (R33 (d)) -/
  spi : SpiMaster
  /-- the host's pending operations, oldest first (R15; log 2) -/
  port : List Request
  /-- the model's own field: what a test in the Controller Driver's place asks of the Bus Transport, oldest first
  (R150; log 3) -/
  bench : List Request
  /-- the completion values handed back, oldest first (R14, R113; log 4) -/
  completions : List Completion
  /-- the parameters (R9, R36); no operation writes them -/
  cfg : Params
  /-- the model's own field: the SPI master's answers that are given, by number (R66; log 6) -/
  spiScript : List SpiAnswer
  /-- the model's own field: how many answers have been drawn (log 6) -/
  spiDrawn : Nat
  /-- the model's own field: the renderer's choices that are given, by number (U18; log 19) -/
  renderScript : List RenderChoice
  /-- the model's own field: how many of the renderer's choices have been drawn (log 19) -/
  renderDrawn : Nat
  /-- the model's own field, the host's: the orientation of its last INIT or SET_ORIENTATION that returned `Ok`
  (R21, R190; log 38) -/
  hostOrient : Option Half
  deriving DecidableEq, Repr

/-- The state after power-on under a configuration (R37, R300). The latches have no value in the spec; zero is a
DESIGN CHOICE (log 12, unsafe). The last five fields and the two queues are the model's own (log 2, 3, 6, 19, 38). -/
def State.resetWith (p : Params) : State where
  ctrl := .unpowered
  initStep := 0
  orient := none
  csN := true
  dc := p.dcReset
  rstN := true
  latches := { opc := 0, opa := 0, opb := 0, opc2 := 0, opd := 0 }
  tr := []
  spi := .idle
  port := []
  bench := []
  completions := []
  cfg := p
  spiScript := []
  spiDrawn := 0
  renderScript := []
  renderDrawn := 0
  hostOrient := none

/-- The state after power-on. -/
def State.reset : State := State.resetWith Config.default

end Sys2Proof.Machine
end

