-- ==== Sys2Proof/Machine/Flags.lean ====
section
/-! DEFINITION. The block has no flags and no condition codes (10_state.md R28), so there is no flag computation.
What stands in their place is the outcome of a primitive and of an operation: the completion codes
(30_encoding.md R113), and the renaming of a failed transfer by the operation it happens in
(60_exceptions.md R261). -/

namespace Sys2Proof.Machine

/-- How a primitive or an operation's body ended (R14): in `Ok`, in a failed transfer, or stuck in a transfer
that never ends. -/
inductive Status where
  | ok | failed | stuck
  deriving DecidableEq, Repr, Inhabited

/-- The 2-bit completion code (R113, R260). -/
def Completion.code : Completion → BitVec 2
  | .ok => 0
  | .busError => 1
  | .displayInitError => 2
  | .displayIoError => 3

/-- The 2-bit encoding of `STATE` (R21, D4). -/
def CtrlState.code : CtrlState → BitVec 2
  | .unpowered => 0
  | .resetting => 1
  | .initializing => 2
  | .ready => 3

/-- The completion value of an operation whose error is `err` (R261): `Ok`, the error on a failed transfer, and
none when stuck (R146). -/
def Status.completion? (err : Completion) : Status → Option Completion
  | .ok => some .ok
  | .failed => some err
  | .stuck => none

end Sys2Proof.Machine
end

