-- ==== Sys2Proof/Machine/Ops.lean ====
section
/-! DEFINITION. The shared operations. The primitives `Drive`, `Wait` and `Xfer` (00_scope.md R13); the two Bus
Transport primitives, through which every byte goes (40_bus_transport.md R140, R150); how an operation ends, the
block's only form of exception (60_exceptions.md R265); and the bodies and admission checks of the host
operations that other operations run inside them. -/

namespace Sys2Proof.Machine

/-! ### The trace and the pins (R13) -/

/-- `TR <- TR ++ evs`. -/
def State.emit (s : State) (evs : List Event) : State := { s with tr := s.tr ++ evs }

/-- The pin takes the level. -/
def State.setPin (s : State) : Pin → Bool → State
  | .csN, v => { s with csN := v }
  | .dc, v => { s with dc := v }
  | .rstN, v => { s with rstN := v }

/-- `Drive(P, v)`: the pin takes the level, and the event is recorded even when the level is unchanged (R13,
R148: it cannot fail). -/
def State.drive (s : State) (p : Pin) (v : Bool) : State := (s.setPin p v).emit [.pin p v]

/-- `Wait(T)` (R13, R280: it cannot fail). -/
def State.wait (s : State) (t : Nat) : State := s.emit [.wait t]

/-! ### Transfers (R13, R66) -/

/-- The SPI master's answer number `n`: the script's entry, and beyond the script a free value (log 6). -/
def State.answerAt (s : State) (n : Nat) : SpiAnswer := (s.spiScript[n]?).getD (Config.spiOracle n)

/-- How many bytes of a failed transfer of `len` bytes reached the wire: fewer than `len` (R13: 0 <= k < len(bs)).
An answer that names more is cut to the most a failure can deliver (log 7). -/
def deliveredOnFail (k len : Nat) : Nat := min k (len - 1)

/-- `Xfer(bs)` for a non-empty list (R13, R66): every byte reaches the wire, or a proper prefix and then
`XferFail`, or no step follows. -/
def xfer (bs : List Byte) (s : State) : State × Status :=
  let s' := { s with spiDrawn := s.spiDrawn + 1 }
  match s.answerAt s.spiDrawn with
  | .ok => (s'.emit (bs.map (.byte s.dc)), .ok)
  | .fail k => (s'.emit ((bs.take (deliveredOnFail k bs.length)).map (.byte s.dc) ++ [.xferFail]), .failed)
  | .stall => ({ s' with spi := .stalled }, .stuck)

/-- A transfer that is made only if there is a byte to send (R141 line 5, R143 line 3). -/
def xferIfAny (bs : List Byte) (s : State) : State × Status :=
  match bs with
  | [] => (s, .ok)
  | b :: rest => xfer (b :: rest) s

/-- Goes on after a step that ended in `Ok`, and stops at the first that did not (R262). -/
def andThen (r : State × Status) (f : State → State × Status) : State × Status :=
  match r.2 with
  | .ok => f r.1
  | .failed => r
  | .stuck => r

/-- The end of a primitive: chip-select is deasserted on success and on failure (R141, R143, R145); a stalled
primitive never gets there (R146). -/
def release (r : State × Status) : State × Status :=
  match r.2 with
  | .ok => (r.1.drive .csN true, .ok)
  | .failed => (r.1.drive .csN true, .failed)
  | .stuck => r

/-! ### The Bus Transport primitives -/

/-- `SEND_COMMAND(opcode, args)` (R141, R142, R145). -/
def sendCommand (opcode : Byte) (args : List Byte) (s : State) : State × Status :=
  release (andThen (xfer [opcode] ((s.drive .csN false).drive .dc false)) fun s1 => xferIfAny args (s1.drive .dc true))

/-- `SEND_PIXELS(bytes)` (R143, R144, R145). -/
def sendPixels (bytes : List Byte) (s : State) : State × Status :=
  release (xferIfAny bytes ((s.drive .csN false).drive .dc true))

/-- Commands in order, each by one `SEND_COMMAND`, up to the first failure (R160, R262). -/
def sendCommands : List (Cmd × List Byte) → State → State × Status
  | [], s => (s, .ok)
  | ca :: rest, s => andThen (sendCommand (s.cfg.opc.byte ca.1) ca.2 s) (sendCommands rest)

/-! ### How an operation ends (R14, R265): the block's exceptions -/

/-- The completion value is handed to the caller (R14, R113). -/
def State.complete (s : State) (c : Completion) : State := { s with completions := s.completions ++ [c] }

/-- The end of an operation whose error is `err`. `Ok` and the error are handed back as the completion value: that
is all of an error's entry (R265: no vector, no saved position, no mode change), and there is no return (R266). A
stuck operation hands back nothing (R146). -/
def finish (err : Completion) (r : State × Status) : State :=
  match r.2.completion? err with
  | some c => r.1.complete c
  | none => r.1

/-- Runs an operation unless a transfer has stalled, after which the block takes no step (R146). -/
def whenRunning (s : State) (k : State → Host.Outcome State Fault Refusal) : Host.Outcome State Fault Refusal :=
  match s.spi with
  | .idle => k s
  | .stalled => .fault .transferStalled

/-- An operation that is refused, or ends with completion value `Ok` or `err`, or is stuck (R14). -/
def settle (err : Completion) (r : Except Refusal (State × Status)) : Host.Outcome State Fault Refusal :=
  match r with
  | .ok x => .next (finish err x)
  | .error e => .refused e

/-! ### Host operations: acceptance, admission and bodies -/

/-- Acceptance loads the descriptor's fields into the operand latches (R26, R110). -/
def State.accept (s : State) (op : BitVec 4) (a b c2 d : Half) : State :=
  { s with latches := { opc := op, opa := a, opb := b, opc2 := c2, opd := d } }

/-- Admission of the Ready operations by `STATE` (R190). -/
def whenReady (s : State) (k : State → Except Refusal (State × Status)) : Except Refusal (State × Status) :=
  match s.ctrl with
  | .ready => k s
  | .unpowered => .error .notReady
  | .resetting => .error .notReady
  | .initializing => .error .notReady

/-- `DIMS(ORIENT)`, if ORIENT names an orientation (R24, R61). -/
def State.dims? (s : State) : Option (Nat × Nat) := s.orient.bind s.cfg.dims?

/-- The body of SET_ADDRESS_WINDOW (R211 lines 1 to 4). -/
def windowBody (r0 r1 c0 c1 : Half) (s : State) : State × Status := sendCommands (windowTable r0 r1 c0 c1) s

/-- The body of WRITE_PIXEL_STREAM: exactly one data frame (R214). -/
def streamBody (px : List Pixel) (s : State) : State × Status := sendPixels (pixelBytes px) s

/-- SET_ADDRESS_WINDOW as the host issues it: admission on STATE and bounds, acceptance, body (R190, R211). -/
def hostWindow (r0 r1 c0 c1 : Half) (s : State) : Except Refusal (State × Status) :=
  whenReady s fun s =>
    match s.dims? with
    | none => .error .orientationUnset
    | some (nr, nc) =>
      if boundsOk nr nc r0 r1 c0 c1 then .ok (windowBody r0 r1 c0 c1 (s.accept 0x2#4 r0 r1 c0 c1))
      else .error .windowOutOfBounds

/-- WRITE_PIXEL_STREAM as the host issues it (R190, R214). -/
def hostStream (a b c2 d : Half) (px : List Pixel) (s : State) : Except Refusal (State × Status) :=
  whenReady s fun s => .ok (streamBody px (s.accept 0x3#4 a b c2 d))

/-- The host notes the orientation that an operation of its own has set with `Ok`, which is all it can know of STATE and
ORIENT (R21, R190, R275 (c); log 38). -/
def State.noteOrient (s : State) (o : Half) : State := { s with hostOrient := some o }

/-- What the host does with the `Ok` of an INIT or a SET_ORIENTATION it issued; any other end tells it nothing new. -/
def noted (o : Half) (r : State × Status) : State × Status := andThen r fun s => (s.noteOrient o, .ok)

/-- The next host operation of a sequence, unless the one before it was refused, failed or is stuck (R240). -/
def andThenHost (r : Except Refusal (State × Status)) (f : State → Except Refusal (State × Status)) :
    Except Refusal (State × Status) :=
  match r with
  | .error e => .error e
  | .ok x =>
    match x.2 with
    | .ok => f x.1
    | .failed => .ok x
    | .stuck => .ok x

end Sys2Proof.Machine
end

