-- ==== Sys2Proof/Machine/Commands.lean ====
section
/-! DEFINITION. The seven layer-W commands (41_controller_commands.md R160 to R167): each is one call of
SEND_COMMAND with the command's opcode and arguments, and can fail only with that call's BusError (R160). The Bus
Transport reads no state of the Controller Driver (40_bus_transport.md R140), so none of them looks at STATE, and
none writes ORIENT (log 26). -/

namespace Sys2Proof.Machine

/-- One command at the Bus Transport's boundary. -/
def runCommand (c : Cmd) (args : List Byte) (s : State) : Host.Outcome State Fault Refusal :=
  whenRunning s fun s => settle .busError (.ok (sendCommand (s.cfg.opc.byte c) args s))

/-- SLPOUT: `SEND_COMMAND(OPC_SLPOUT, [])` (R161). -/
def execSlpout (s : State) : Host.Outcome State Fault Refusal := runCommand .slpout [] s

/-- PIXSET: `SEND_COMMAND(OPC_PIXSET, [0x55])` (R106, R162). -/
def execPixset (s : State) : Host.Outcome State Fault Refusal := runCommand .pixset [s.cfg.pixfmtArg] s

/-- MADCTL: `SEND_COMMAND(OPC_MADCTL, [MADCTL_OF(o)])` (R107, R163); an orientation outside the set is refused
(R114 (c)). -/
def execMadctl (o : Half) (s : State) : Host.Outcome State Fault Refusal :=
  match s.cfg.madctlOf? o with
  | some m => runCommand .madctl [m] s
  | none => whenRunning s fun _ => .refused .orientationOutsideSet

/-- DISPON: `SEND_COMMAND(OPC_DISPON, [])` (R164). -/
def execDispon (s : State) : Host.Outcome State Fault Refusal := runCommand .dispon [] s

/-- RASET: `SEND_COMMAND(OPC_RASET, be16(r0) ++ be16(r1))` (R108, R165). -/
def execRaset (r0 r1 : Half) (s : State) : Host.Outcome State Fault Refusal := runCommand .raset (boundArgs r0 r1) s

/-- CASET: `SEND_COMMAND(OPC_CASET, be16(c0) ++ be16(c1))` (R108, R166). -/
def execCaset (c0 c1 : Half) (s : State) : Host.Outcome State Fault Refusal := runCommand .caset (boundArgs c0 c1) s

/-- RAMWR: `SEND_COMMAND(OPC_RAMWR, [])` (R167). -/
def execRamwr (s : State) : Host.Outcome State Fault Refusal := runCommand .ramwr [] s

end Sys2Proof.Machine
end

