-- ==== Sys2Proof/Machine/InitSeq.lean ====
section
/-! DEFINITION. INITSEQ (42_init_sequencer.md): INIT, which walks the controller state machine, and
SET_ORIENTATION. -/

namespace Sys2Proof.Machine

/-- Admission of INIT by `STATE` (R190). -/
def whenUnpowered (s : State) (k : State → Except Refusal (State × Status)) : Except Refusal (State × Status) :=
  match s.ctrl with
  | .unpowered => k s
  | .resetting => .error .notUnpowered
  | .initializing => .error .notUnpowered
  | .ready => .error .notUnpowered

/-- The orientation byte of an operand in `ORIENT_SET`; an index outside it is refused (R114 (c)). -/
def whenOrient (o : Half) (s : State) (k : Byte → State → Except Refusal (State × Status)) :
    Except Refusal (State × Status) :=
  match s.cfg.madctlOf? o with
  | some m => k m s
  | none => .error .orientationOutsideSet

/-- R192 lines 1 to 6: the reset pulse, the settle wait, and the two state changes. -/
def resetPulse (s : State) : State :=
  let s1 := ((s.drive .rstN false).wait s.cfg.tRstPulse).drive .rstN true
  let s2 := { s1 with ctrl := .resetting }
  let s3 := s2.wait s.cfg.tSettle
  { s3 with ctrl := .initializing, initStep := 0 }

/-- R192 lines 10 and 11, after command `k` completed with `Ok`: ORIENT is written by the
memory-access-control command, and INIT_STEP counts the command. -/
def commandDone (o : Half) (k : Nat) (s : State) : State :=
  { s with orient := if k = 2 then some o else s.orient, initStep := BitVec.ofNat 3 (k + 1) }

/-- R192 lines 7 to 12: the commands of `INIT_TABLE` from number `k` on, each counted when it completes, then
Ready. -/
def runInitTable (o : Half) : Nat → List (Cmd × List Byte) → State → State × Status
  | _, [], s => ({ s with ctrl := .ready }, .ok)
  | k, ca :: rest, s =>
    andThen (sendCommand (s.cfg.opc.byte ca.1) ca.2 s) fun s1 => runInitTable o (k + 1) rest (commandDone o k s1)

/-- INIT as the host issues it (R190, R192). -/
def hostInit (o b c2 d : Half) (s : State) : Except Refusal (State × Status) :=
  whenUnpowered s fun s =>
    whenOrient o s fun m s => .ok (noted o (runInitTable o 0 (s.cfg.initTable m) (resetPulse (s.accept 0x0#4 o b c2 d))))

/-- INIT: `Ok` or `DisplayInitError` (R192, R193). -/
def execInit (o b c2 d : Half) (s : State) : Host.Outcome State Fault Refusal :=
  whenRunning s fun s => settle .displayInitError (hostInit o b c2 d s)

/-- The body of SET_ORIENTATION: ORIENT is written on `Ok` only (R196, R197 (d)). -/
def orientationBody (o : Half) (m : Byte) (s : State) : State × Status :=
  andThen (sendCommand (s.cfg.opc.byte .madctl) [m] s) fun s1 => ({ s1 with orient := some o }, .ok)

/-- SET_ORIENTATION as the host issues it (R190, R196). -/
def hostOrientation (o b c2 d : Half) (s : State) : Except Refusal (State × Status) :=
  whenReady s fun s => whenOrient o s fun m s => .ok (noted o (orientationBody o m (s.accept 0x1#4 o b c2 d)))

/-- SET_ORIENTATION: `Ok` or `DisplayIoError` (R196, R261). -/
def execSetOrientation (o b c2 d : Half) (s : State) : Host.Outcome State Fault Refusal :=
  whenRunning s fun s => settle .displayIoError (hostOrientation o b c2 d s)

end Sys2Proof.Machine
end

