-- ==== Sys2Proof/Machine/Renderer.lean ====
section
/-! DEFINITION. The host-side pseudo-operations (44_host_renderer_pseudo_ops.md): each expands to
SET_ADDRESS_WINDOW and WRITE_PIXEL_STREAM operations of the block, and adds no state to it (R240). What the source
leaves to the renderer (U18) is a free choice drawn from the state's script or from `Config.renderChoice`; a
choice that breaks a rule is replaced by the plain one, so that the behaviours are exactly those the rules allow
(log 19). -/

namespace Sys2Proof.Machine

/-- The renderer's choice number `n` (log 19). -/
def State.renderChoiceAt (s : State) (n : Nat) : RenderChoice := (s.renderScript[n]?).getD (Config.renderChoice n)

/-- The next choice is drawn. -/
def State.drawChoice (s : State) : State := { s with renderDrawn := s.renderDrawn + 1 }

/-! ### Jobs: one run, its window and its pixels (R243) -/

/-- The dimensions a renderer clips to: those of the orientation the host itself last set with `Ok`, and none before
(DESIGN CHOICE, log 24, unsafe: the spec is silent on where a clipping renderer has them from, N14). STATE and ORIENT are
private (R21, R24, R275 (c)), and no part of the renderer reads them. -/
def State.panel? (s : State) : Option (Nat × Nat) := s.hostOrient.bind s.cfg.dims?

/-- The part of a run inside a panel of `nr` rows and `nc` columns, if there is one. -/
def clipRun (nr nc : Nat) (run : Run) : Option Run :=
  let clipped : Run := { row := run.row, c0 := max run.c0 0, c1 := min run.c1 ((nc : Int) - 1) }
  if 0 ≤ run.row ∧ run.row < nr ∧ clipped.c0 ≤ clipped.c1 then some clipped else none

/-- The runs the renderer has windows set for: clipped to the panel, if the renderer clips; whether it does is free
(N14, U18; log 24). -/
def clipPlan (choice : RenderChoice) (panel : Option (Nat × Nat)) (plan : List Run) : List Run :=
  match choice.clips, panel with
  | true, some (nr, nc) => plan.filterMap (clipRun nr nc)
  | true, none | false, _ => plan

/-- The columns of a run, from left to right. -/
def runCols (run : Run) : List Int := (List.range (run.c1 - run.c0 + 1).toNat).map fun (k : Nat) => run.c0 + (k : Int)

/-- The window of a run: `SET_ADDRESS_WINDOW r r c0 c1`. Where the renderer does not clip, coordinates that are no
window bounds are refused as bounds outside the panel are (R244 (e), R249 (d); log 24): the check on STATE is the
block's admission of the window (R190), which the renderer cannot see but for the refusal. -/
def hostRun (run : Run) (s : State) : Except Refusal (State × Status) :=
  match toBound? run.row, toBound? run.c0, toBound? run.c1 with
  | some r, some c0, some c1 => hostWindow r r c0 c1 s
  | _, _, _ => whenReady s fun _ => .error .windowOutOfBounds

/-- Jobs in order, each a window and one pixel stream, up to the first that does not end in `Ok` (R240, R243).
The unused operand fields of WRITE_PIXEL_STREAM are zero, as R110 asks. -/
def drawJobs : List (Run × List Pixel) → State → Except Refusal (State × Status)
  | [], s => .ok (s, .ok)
  | job :: rest, s => andThenHost (andThenHost (hostRun job.1 s) (hostStream 0 0 0 0 job.2)) (drawJobs rest)

/-! ### Circles (R241 to R244) -/

/-- The pixels a circle touches: those at distance at most R from the centre (R242). -/
def circlePixels (row col radius : Nat) : List (Int × Int) :=
  (List.range (2 * radius + 1)).flatMap fun (i : Nat) => (List.range (2 * radius + 1)).filterMap fun (j : Nat) =>
    let r := (row : Int) - radius + i
    let c := (col : Int) - radius + j
    if dist2 row col r c ≤ (radius : Int) * radius then some (r, c) else none

/-- A plan the rules allow for a circle: runs of touched pixels that together cover every touched pixel, in any
order, cut anywhere, written any number of times (R243). -/
def circlePlanOk (row col radius : Nat) (plan : List Run) : Bool :=
  plan.all (fun run => decide (run.c0 ≤ run.c1) &&
      (runCols run).all fun c => decide (dist2 row col run.row c ≤ (radius : Int) * radius)) &&
    (circlePixels row col radius).all fun rc => plan.any fun run =>
      decide (run.row = rc.1) && decide (run.c0 ≤ rc.2) && decide (rc.2 ≤ run.c1)

/-- The largest h up to a bound with h × h <= lim. -/
def halfWidth (lim : Int) : Nat → Nat
  | 0 => 0
  | n + 1 => if ((n + 1 : Nat) : Int) * ((n + 1 : Nat) : Int) ≤ lim then n + 1 else halfWidth lim n

/-- The plain plan of a circle: one run a row, rows in rising order. -/
def circleRows (row col radius : Nat) : List Run :=
  (List.range (2 * radius + 1)).map fun (i : Nat) =>
    let dr : Int := (i : Int) - radius
    let h := halfWidth ((radius : Int) * radius - dr * dr) radius
    { row := row + dr, c0 := (col : Int) - h, c1 := (col : Int) + h }

/-- The plan a circle is drawn by: the choice's, if the rules allow it. -/
def circlePlan (row col radius : Nat) (choice : RenderChoice) : List Run :=
  if circlePlanOk row col radius choice.plan then choice.plan else circleRows row col radius

/-- The jobs of a circle: every run's pixels in the colour R242 gives their place. -/
def circleJobs (row col radius : Nat) (stroke : Pixel) (width : Nat) (fill : Pixel) (choice : RenderChoice)
    (panel : Option (Nat × Nat)) : List (Run × List Pixel) :=
  (clipPlan choice panel (circlePlan row col radius choice)).map fun run =>
    (run, (runCols run).filterMap (circleColor row col radius stroke width fill run.row))

/-- DRAW_CIRCLE (R241 to R244). A block operation's error is handed to the caller as it is (R240). -/
def execDrawCircle (row col radius : Nat) (stroke : Pixel) (width : Nat) (fill : Pixel) (s : State) :
    Host.Outcome State Fault Refusal :=
  whenRunning s fun s =>
    settle .displayIoError
      (drawJobs (circleJobs row col radius stroke width fill (s.renderChoiceAt s.renderDrawn) s.panel?) s.drawChoice)

/-! ### Text (R245 to R249) -/

/-- The bitmask a character is drawn by: the font's, and for a character without an entry a free one (R249 (c),
N12; log 22). -/
def glyphMask (p : Params) (choice : RenderChoice) (ch : Char) : Nat :=
  (glyphMask? p.font ch).getD ((glyphMask? choice.missing ch).getD 0)

/-- The foreground pixels of a text, character by character in string order (R246 to R248): line k stands k line
heights below the first, whose height relative to the anchor's row is free (R247; log 21), and begins at the
column its own length and the alignment give. -/
def textCells (p : Params) (choice : RenderChoice) (text : List Char) (row col : Nat) (align : Alignment) :
    List (List (Int × Int)) :=
  (textLines text).zipIdx.flatMap fun lk =>
    let c0 := lineStart align col (lk.1.length * p.glyphW) (choice.roundUp.getD lk.2 false)
    lk.1.zipIdx.map fun cj =>
      (glyphBits p.glyphW p.glyphH (glyphMask p choice cj.1)).map fun b =>
        ((row : Int) + choice.top + lk.2 * p.lineHeight + b.1, c0 + cj.2 * p.glyphW + b.2)

/-- An order the rules allow for a text's pixels: characters in string order, the bits of each in any order
(R246). -/
def textOrderOk : List (List (Int × Int)) → List (Int × Int) → Bool
  | [], pts => pts.isEmpty
  | cell :: cells, pts => (pts.take cell.length).isPerm cell && textOrderOk cells (pts.drop cell.length)

/-- The pixels of a text in the order they are drawn: the choice's, if the rules allow it. -/
def textPoints (cells : List (List (Int × Int))) (choice : RenderChoice) : List (Int × Int) :=
  let pts := choice.plan.map fun run => (run.row, run.c0)
  if choice.plan.all (fun run => run.c0 == run.c1) && textOrderOk cells pts then pts else cells.flatten

/-- One pixel as a run. -/
def pointRun (rc : Int × Int) : Run := { row := rc.1, c0 := rc.2, c1 := rc.2 }

/-- The jobs of a text: one PLOT for each foreground pixel (R246). -/
def textJobs (p : Params) (choice : RenderChoice) (panel : Option (Nat × Nat)) (text : List Char) (row col : Nat)
    (align : Alignment) (color : Pixel) : List (Run × List Pixel) :=
  (clipPlan choice panel ((textPoints (textCells p choice text row col align) choice).map pointRun)).map fun run =>
    (run, [color])

/-- DRAW_TEXT (R245 to R249). -/
def execDrawText (text : List Char) (row col : Nat) (align : Alignment) (color : Pixel) (s : State) :
    Host.Outcome State Fault Refusal :=
  whenRunning s fun s =>
    settle .displayIoError
      (drawJobs (textJobs s.cfg (s.renderChoiceAt s.renderDrawn) s.panel? text row col align color) s.drawChoice)

/-! ### PLOT (R117) -/

/-- PLOT: `SET_ADDRESS_WINDOW r r c c`, then `WRITE_PIXEL_STREAM p` (R117). -/
def execPlot (r c : Half) (p : Pixel) (s : State) : Host.Outcome State Fault Refusal :=
  whenRunning s fun s => settle .displayIoError (andThenHost (hostWindow r r c c s) (hostStream 0 0 0 0 [p]))

end Sys2Proof.Machine
end

