-- ==== Sys2Proof/Machine/Transport.lean ====
section
/-! DEFINITION. The layer-T operations, run at the Bus Transport's own boundary, where an error is `BusError`
(40_bus_transport.md R141, R143, R150; 60_exceptions.md R261). -/

namespace Sys2Proof.Machine

/-- SEND_COMMAND with the check of R114 (e): one of the seven opcodes, and its argument count (R141, R263). -/
def execSendCommand (opcode : Byte) (args : List Byte) (s : State) : Host.Outcome State Fault Refusal :=
  whenRunning s fun s =>
    match s.cfg.opc.cmd? opcode with
    | none => .refused .commandNotInSet
    | some c =>
      if args.length = c.argCount then settle .busError (.ok (sendCommand opcode args s))
      else .refused .commandArgCount

/-- SEND_PIXELS, never refused (R143, R263). -/
def execSendPixels (bytes : List Byte) (s : State) : Host.Outcome State Fault Refusal :=
  whenRunning s fun s => settle .busError (.ok (sendPixels bytes s))

end Sys2Proof.Machine
end

