-- ==== Sys2Proof/Machine/WinSeq.lean ====
section
/-! DEFINITION. WINSEQ (43_window_pixel_sequencer.md): SET_ADDRESS_WINDOW, WRITE_PIXEL_STREAM and CLEAR. The bodies
that other operations run too stand in Machine/Ops.lean. -/

namespace Sys2Proof.Machine

/-- SET_ADDRESS_WINDOW: `Ok` or `DisplayIoError` (R211). -/
def execSetAddressWindow (r0 r1 c0 c1 : Half) (s : State) : Host.Outcome State Fault Refusal :=
  whenRunning s fun s => settle .displayIoError (hostWindow r0 r1 c0 c1 s)

/-- WRITE_PIXEL_STREAM: `Ok` or `DisplayIoError` (R214). -/
def execWritePixelStream (a b c2 d : Half) (px : List Pixel) (s : State) : Host.Outcome State Fault Refusal :=
  whenRunning s fun s => settle .displayIoError (hostStream a b c2 d px s)

/-- Data frames of one colour, of the given pixel counts, up to the first failure (R216 lines 4 to 7). -/
def fillFrames (color : Pixel) : List Nat → State → State × Status
  | [], s => (s, .ok)
  | k :: rest, s => andThen (streamBody (List.replicate k color) s) (fillFrames color rest)

/-- The body of CLEAR for a screen of `nr` rows and `nc` columns: the full-screen window, then its pixels in
chunks. The nested operations are not offered to the admission check again (R216, R217 (c)). -/
def clearBody (color : Pixel) (nr nc : Nat) (s : State) : State × Status :=
  andThen (windowBody 0 (BitVec.ofNat 16 (nr - 1)) 0 (BitVec.ofNat 16 (nc - 1)) s)
    (fillFrames color (clearFrames s.cfg.clearChunk (nr * nc) (nr * nc)))

/-- CLEAR as the host issues it (R190, R216). -/
def hostClear (color : Pixel) (b c2 d : Half) (s : State) : Except Refusal (State × Status) :=
  whenReady s fun s =>
    match s.dims? with
    | none => .error .orientationUnset
    | some (nr, nc) => .ok (clearBody color nr nc (s.accept 0x4#4 color b c2 d))

/-- CLEAR: `Ok` or `DisplayIoError` (R216). -/
def execClear (color : Pixel) (b c2 d : Half) (s : State) : Host.Outcome State Fault Refusal :=
  whenRunning s fun s => settle .displayIoError (hostClear color b c2 d s)

end Sys2Proof.Machine
end

