-- ==== Sys2Proof/Machine/Dispatch.lean ====
section
/-! DEFINITION. The dispatch: one arm per operation, each one call of its meaning. -/

namespace Sys2Proof.Machine

def exec (i : Instr) (s : State) : Host.Outcome State Fault Refusal :=
  match i with
  | .slpout => Sys2Proof.Machine.execSlpout s
  | .pixset => Sys2Proof.Machine.execPixset s
  | .madctl o => Sys2Proof.Machine.execMadctl o s
  | .dispon => Sys2Proof.Machine.execDispon s
  | .raset r0 r1 => Sys2Proof.Machine.execRaset r0 r1 s
  | .caset c0 c1 => Sys2Proof.Machine.execCaset c0 c1 s
  | .ramwr => Sys2Proof.Machine.execRamwr s
  | .init o b c2 d => Sys2Proof.Machine.execInit o b c2 d s
  | .setOrientation o b c2 d => Sys2Proof.Machine.execSetOrientation o b c2 d s
  | .setAddressWindow r0 r1 c0 c1 => Sys2Proof.Machine.execSetAddressWindow r0 r1 c0 c1 s
  | .writePixelStream a b c2 d px => Sys2Proof.Machine.execWritePixelStream a b c2 d px s
  | .clear color b c2 d => Sys2Proof.Machine.execClear color b c2 d s
  | .sendCommand opcode args => Sys2Proof.Machine.execSendCommand opcode args s
  | .sendPixels bytes => Sys2Proof.Machine.execSendPixels bytes s
  | .drawCircle row col radius stroke width fill => Sys2Proof.Machine.execDrawCircle row col radius stroke width fill s
  | .drawText text row col align color => Sys2Proof.Machine.execDrawText text row col align color s
  | .plot r c p => Sys2Proof.Machine.execPlot r c p s

end Sys2Proof.Machine
end

