-- ==== Sys2Proof/Machine/Fetch.lean ====
section
/-! DEFINITION. Taking a request from the host port (00_scope.md R15: one at a time, in the order the host issues
them) or from the Bus Transport's boundary (40_bus_transport.md R150), which of the two a request can be made at
(60_exceptions.md R275 (a)), refusing what the decoder rejects (R114), and placing a request where it is taken next. -/

namespace Sys2Proof.Machine

/-- The refusal a decoder's rejection becomes: op 0x5 to 0xF are reserved (R114 (a)), everything else is no
operation at all (R110, R114 (e)). -/
def refusalOf : DecodeError → Refusal
  | .reservedOp => .reservedOp
  | .strayPayload => .malformedRequest
  | .unknownCommand => .malformedRequest
  | .argumentCount => .malformedRequest
  | .argumentValue => .malformedRequest
  | .emptyFrame => .malformedRequest

/-- The layer an operation belongs to (R3, R7). -/
inductive Layer where
  | wire | transport | host | pseudo
  deriving DecidableEq, Repr

/-- The opcode table's column "layer". -/
def opLayer : Instr → Layer
  | .slpout => .wire
  | .pixset => .wire
  | .madctl _ => .wire
  | .dispon => .wire
  | .raset _ _ => .wire
  | .caset _ _ => .wire
  | .ramwr => .wire
  | .init _ _ _ _ => .host
  | .setOrientation _ _ _ _ => .host
  | .setAddressWindow _ _ _ _ => .host
  | .writePixelStream _ _ _ _ _ => .host
  | .clear _ _ _ _ => .host
  | .sendCommand _ _ => .transport
  | .sendPixels _ => .transport
  | .drawCircle _ _ _ _ _ _ => .pseudo
  | .drawText _ _ _ _ _ => .pseudo
  | .plot _ _ _ => .pseudo

/-- A request a host can issue: "the BT primitives are not reachable from the host" (R275 (a)), nor are the commands
(R110, R140). Every other request is one at the Bus Transport's boundary (R150). -/
def fromHost : Request → Bool
  | .descriptor _ _ => true
  | .command _ _ => false
  | .call i => opLayer i == .host || opLayer i == .pseudo

/-- The host's queue is replaced. -/
def State.withPort (s : State) (q : List Request) : State := { s with port := q }

/-- The queue at the Bus Transport's boundary is replaced. -/
def State.withBench (s : State) (q : List Request) : State := { s with bench := q }

/-- A request in front of the queue of its own boundary, where the next step takes it: the bench goes first, so a
host's request is put before an empty one. -/
def State.enqueueFront (s : State) (q : Option Request) : State :=
  match q with
  | some r => if fromHost r then (s.withBench []).withPort (r :: s.port) else s.withBench (r :: s.bench)
  | none => s

end Sys2Proof.Machine
end

