-- ==== Sys2Proof/Machine/Step.lean ====
section
/-! DEFINITION. One step: the next operation of the host port, decoded and run to completion (00_scope.md R15,
20_memory.md R67). From the port no command and no primitive is reached (60_exceptions.md R275 (a)); these run for a
test that stands at the Bus Transport's boundary (40_bus_transport.md R150), whose requests are taken first (log 3).
Without a request the block holds its state (42_init_sequencer.md R198, 60_exceptions.md R284); with a stalled
transfer there is no step (40_bus_transport.md R146). -/

namespace Sys2Proof.Machine

/-- A request that was taken at a boundary: refused if it is not `reachable` from there, else decoded and run. -/
def runRequest (reachable : Bool) (r : Request) (s : State) : Host.Outcome State Fault Refusal :=
  if reachable then
    match decode r with
    | .ok i => exec i s
    | .error e => .refused (refusalOf e)
  else .refused .notReachable

/-- One step. -/
def step (s : State) : Host.Outcome State Fault Refusal :=
  whenRunning s fun s =>
    match s.bench, s.port with
    | r :: rest, _ => runRequest (!fromHost r) r (s.withBench rest)
    | [], r :: rest => runRequest (fromHost r) r (s.withPort rest)
    | [], [] => .next s

/-- The state with the instruction of an opcode-table word at the front of its boundary's queue, where the next step
takes it (log 2, 3). -/
def State.withFetchWord (s : State) (nbits w : Nat) : State := s.enqueueFront (requestOfWord nbits w)

end Sys2Proof.Machine
end

