-- ==== Sys2Proof/Machine/Frames.lean ====
section
/-! DEFINITION. The frames of the wire, event by event, as the spec lists them (30_encoding.md R101 to R103,
40_bus_transport.md R145): what claims compare a trace with. -/

namespace Sys2Proof.Machine

/-- The command frame (R101). -/
def commandFrame (opcode : Byte) (args : List Byte) : List Event :=
  [.pin .csN false, .pin .dc false, .byte false opcode, .pin .dc true] ++ args.map (.byte true) ++ [.pin .csN true]

/-- The data frame (R102). -/
def dataFrame (bytes : List Byte) : List Event :=
  [.pin .csN false, .pin .dc true] ++ bytes.map (.byte true) ++ [.pin .csN true]

/-- The reset pulse and the settle wait (R103). -/
def resetFrame (p : Params) : List Event :=
  [.pin .rstN false, .wait p.tRstPulse, .pin .rstN true, .wait p.tSettle]

/-- A command frame whose opcode byte failed (R145). -/
def opcodeFailedFrame : List Event := [.pin .csN false, .pin .dc false, .xferFail, .pin .csN true]

/-- A command frame that failed after `k` argument bytes (R145). -/
def argsFailedFrame (opcode : Byte) (args : List Byte) (k : Nat) : List Event :=
  [.pin .csN false, .pin .dc false, .byte false opcode, .pin .dc true] ++ (args.take k).map (.byte true) ++
    [.xferFail, .pin .csN true]

/-- A data frame that failed after `k` bytes (R145). -/
def dataFailedFrame (bytes : List Byte) (k : Nat) : List Event :=
  [.pin .csN false, .pin .dc true] ++ (bytes.take k).map (.byte true) ++ [.xferFail, .pin .csN true]

/-- The frames of a command table. -/
def commandFrames (p : Params) (table : List (Cmd × List Byte)) : List Event :=
  table.flatMap fun ca => commandFrame (p.opc.byte ca.1) ca.2

end Sys2Proof.Machine
end

