-- ==== Sys2Proof/Machine/PixelMemory.lean ====
section
/-! DEFINITION. The controller's pixel memory as the stores of the receiver model leave it (20_memory.md R60 (c),
R61, R83): one 16-bit pixel at each address (row, column), a list of cells with strictly rising keys. An address
that was never stored to holds unknown content (R83, U12), so it reads as no value and no cell is ever equal to
what an unlisted address reads as. The block cannot read this memory (R86); nothing in the machine does. -/

namespace Sys2Proof.Machine

/-- Cells by key, the keys strictly rising. -/
abbrev PixelMemory := List (Nat × Pixel)

/-- The key of the pixel address (row, column): addresses in row-major order; columns are below 65536 (R10). -/
def pixelKey (r c : Nat) : Nat := r * 65536 + c

/-- The canonical form: keys strictly rising. -/
def PixelMemory.wf : PixelMemory → Bool
  | [] => true
  | [_] => true
  | a :: b :: rest => decide (a.1 < b.1) && PixelMemory.wf (b :: rest)

/-- Stores a pixel at a key, keeping the form. -/
def PixelMemory.store (m : PixelMemory) (k : Nat) (p : Pixel) : PixelMemory :=
  match m with
  | [] => [(k, p)]
  | a :: rest =>
    if k < a.1 then (k, p) :: a :: rest
    else if k = a.1 then (k, p) :: rest
    else a :: PixelMemory.store rest k p

/-- The pixel at a key, if anything was stored there. -/
def PixelMemory.load : PixelMemory → Nat → Option Pixel
  | [], _ => none
  | a :: rest, k => if k = a.1 then some a.2 else PixelMemory.load rest k

/-- `MemWrite((r, c), 2, p)` (R12, R79). -/
def PixelMemory.write (m : PixelMemory) (r c : Nat) (p : Pixel) : PixelMemory := m.store (pixelKey r c) p

/-- The pixel last stored at the address (r, c), if one was. -/
def PixelMemory.read (m : PixelMemory) (r c : Nat) : Option Pixel :=
  if c < 65536 then m.load (pixelKey r c) else none

end Sys2Proof.Machine
end

