-- ==== Sys2Proof/Machine/Receiver.lean ====
section
/-! DEFINITION. The receiver reference model `Rx` (20_memory.md R70 to R83): an observation of the wire trace, not
state of the block. It says what the source says the display controller does with the bytes, and answers
"undefined" (`undef`) wherever the source is silent. The block never reads it. At the end, the edges of the SPI clock
that carry a trace's bytes (R65, R104). -/

namespace Sys2Proof.Machine

/-- How far the trace has got in the prefix `Pin(RST_N,0), Wait(a), Pin(RST_N,1), Wait(b)` that must come before
the first byte (R73). -/
inductive BootPhase where
  | cold | held | heldLong | released | open
  deriving DecidableEq, Repr, Inhabited

/-- A window register of the controller (R71). -/
inductive WinReg where
  | unset
  | bounds (first last : Half)
  | indeterminate
  deriving DecidableEq, Repr, Inhabited

/-- The controller's orientation byte `rx_madctl` (R71), with the indeterminate value R197 (d) asks for (log 33). -/
inductive ModeReg where
  | unset
  | byte (b : Byte)
  | indeterminate
  deriving DecidableEq, Repr, Inhabited

/-- The controller's address counter (R71). -/
inductive Cursor where
  | closed
  | pos (r c : Nat)
  | indeterminate
  deriving DecidableEq, Repr, Inhabited

/-- The verdict on a closed window (R80). -/
inductive Verdict where
  | exact | short | over | indeterminate
  deriving DecidableEq, Repr, Inhabited

/-- One pixel store (r, c, p) (R71, R79). -/
structure PixelStore where
  r : Nat
  c : Nat
  p : Pixel
  deriving DecidableEq, Repr

/-- One entry of VERDICTS: the window, the pixels stored since its memory-write, the verdict (R80). -/
structure WindowEntry where
  row : WinReg
  col : WinReg
  cnt : Nat
  verdict : Verdict
  deriving DecidableEq, Repr

/-- The state of the receiver model (R71, R72, R73). `beforeOrient` is the model's own: how many of the stores came
before the last memory-access-control command, which leaves what they show open (N20, U11; log 36). -/
structure Rx where
  selected : Bool
  boot : BootPhase
  cmd : Option Byte
  args : List Byte
  col : WinReg
  row : WinReg
  cur : Cursor
  half : Option Byte
  cnt : Nat
  awake : Bool
  on : Bool
  fmt : Option Byte
  madctl : ModeReg
  px : List PixelStore
  beforeOrient : Nat
  verdicts : List WindowEntry
  undef : Bool
  deriving DecidableEq, Repr

/-- The start of a trace: everything unset (R71). -/
def Rx.start : Rx where
  selected := false
  boot := .cold
  cmd := none
  args := []
  col := .unset
  row := .unset
  cur := .closed
  half := none
  cnt := 0
  awake := false
  on := false
  fmt := none
  madctl := .unset
  px := []
  beforeOrient := 0
  verdicts := []
  undef := false

/-- Some display content is undefined from here on (R71: sticky). -/
def Rx.setUndef (rx : Rx) : Rx := { rx with undef := true }

/-- The area of a window whose two registers are set. DESIGN CHOICE (log 32, unsafe): R62 and R118 give a width for
ordered bounds only; the model subtracts with truncation, so an axis whose start lies beyond its end, as a layer-W
RASET or CASET can load one, counts 1, and such a window can close with verdict `exact`. `undef` is set all the
same, so no content is concluded from it. -/
def Rx.area? (rx : Rx) : Option Nat :=
  match rx.row, rx.col with
  | .bounds r0 r1, .bounds c0 c1 => some (windowArea r0.toNat r1.toNat c0.toNat c1.toNat)
  | _, _ => none

/-- The verdict on the open window (R80). -/
def Rx.verdict (rx : Rx) : Verdict :=
  match rx.cur, rx.area? with
  | .pos _ _, some a => if rx.cnt = a then .exact else if rx.cnt < a then .short else .over
  | _, _ => .indeterminate

/-- Closes the open window, if there is one, with its verdict (R80). -/
def Rx.close (rx : Rx) : Rx :=
  match rx.cur with
  | .closed => rx
  | .pos _ _ | .indeterminate =>
    { rx with
      verdicts := rx.verdicts ++ [{ row := rx.row, col := rx.col, cnt := rx.cnt, verdict := rx.verdict }]
      cur := .closed
      undef := rx.undef || rx.verdict != .exact }

/-- Controller reset: every register unset, the history kept (R73). -/
def Rx.hardReset (rx : Rx) : Rx :=
  { Rx.start with
    selected := rx.selected, boot := .held, px := rx.px, beforeOrient := rx.beforeOrient, verdicts := rx.verdicts
    undef := rx.undef }

/-- The memory-write command: the counter goes to the window's first row and column, if both registers are set
(R77). -/
def Rx.ramwr (rx : Rx) : Rx :=
  match rx.row, rx.col with
  | .bounds r0 _, .bounds c0 _ => { rx with cur := .pos r0.toNat c0.toNat, cnt := 0 }
  | _, _ => { rx with cur := .indeterminate, cnt := 0, undef := true }

/-- A command byte (R74). The memory-access-control command marks the stores made before it (log 36). -/
def Rx.command (p : Params) (rx : Rx) (b : Byte) : Rx :=
  let rx1 := { rx.close with cmd := some b, args := [], half := none }
  match p.opc.cmd? b with
  | some .slpout => { rx1 with awake := true }
  | some .dispon => { rx1 with on := true }
  | some .ramwr => rx1.ramwr
  | some .pixset => rx1
  | some .madctl => { rx1 with beforeOrient := rx1.px.length }
  | some .caset => rx1
  | some .raset => rx1
  | none => rx1.setUndef

/-- The next address in the window: row-major, wrapping at the column bound and then the row bound (R79). -/
def nextAddr (r0 r1 c0 c1 r c : Nat) : Nat × Nat :=
  if c < c1 then (r, c + 1) else if r < r1 then (r + 1, c0) else (r0, c0)

/-- A pixel store with auto-increment (R79). DESIGN CHOICE (log 35, unsafe): a layer-W RASET or CASET can load bounds
beyond `DIMS`, where R61 has no pixel address and R75 to R79 no check; the store is recorded there like any other and
`undef` stays as it is. `State.pixel` has no content at such a place. -/
def Rx.store (rx : Rx) (p : Pixel) : Rx :=
  match rx.cur, rx.row, rx.col with
  | .pos r c, .bounds r0 r1, .bounds c0 c1 =>
    let next := nextAddr r0.toNat r1.toNat c0.toNat c1.toNat r c
    { rx with
      px := rx.px ++ [{ r := r, c := c, p := p }]
      cnt := rx.cnt + 1
      cur := .pos next.1 next.2
      undef := rx.undef || decide (windowArea r0.toNat r1.toNat c0.toNat c1.toNat ≤ rx.cnt) }
  | _, _, _ => rx.setUndef

/-- A pixel byte: two make a pixel, most significant first, under the 16-bit format only (R76, R78). -/
def Rx.pixelByte (p : Params) (rx : Rx) (b : Byte) : Rx :=
  if rx.fmt = some p.pixfmtArg then
    match rx.half with
    | none => { rx with half := some b }
    | some h => { rx with half := none }.store (ofBytes h b)
  else rx.setUndef

/-- A window register from its four argument bytes: start then end, most significant byte first (R75). A start
beyond its end is no window (R62), so the content is undefined (log 17). -/
def windowReg (a0 a1 a2 a3 : Byte) : WinReg := .bounds (ofBytes a0 a1) (ofBytes a2 a3)

/-- A start beyond its end. -/
def reversed (a0 a1 a2 a3 : Byte) : Bool := decide ((ofBytes a2 a3).toNat < (ofBytes a0 a1).toNat)

/-- An argument byte of CASET (R75). -/
def Rx.casetArg (rx : Rx) (b : Byte) : Rx :=
  match rx.args with
  | [a0, a1, a2] =>
    { rx with args := [a0, a1, a2, b], col := windowReg a0 a1 a2 b, undef := rx.undef || reversed a0 a1 a2 b }
  | _ => { rx with args := rx.args ++ [b], undef := rx.undef || decide (4 ≤ rx.args.length) }

/-- An argument byte of RASET (R75). -/
def Rx.rasetArg (rx : Rx) (b : Byte) : Rx :=
  match rx.args with
  | [a0, a1, a2] =>
    { rx with args := [a0, a1, a2, b], row := windowReg a0 a1 a2 b, undef := rx.undef || reversed a0 a1 a2 b }
  | _ => { rx with args := rx.args ++ [b], undef := rx.undef || decide (4 ≤ rx.args.length) }

/-- An argument byte of PIXSET: the first sets the format (R76). -/
def Rx.pixsetArg (rx : Rx) (b : Byte) : Rx :=
  match rx.args with
  | [] => { rx with args := [b], fmt := some b }
  | _ :: _ => { rx with args := rx.args ++ [b], undef := true }

/-- An argument byte of MADCTL: the first sets the byte, which is not interpreted (R76). -/
def Rx.madctlArg (rx : Rx) (b : Byte) : Rx :=
  match rx.args with
  | [] => { rx with args := [b], madctl := .byte b }
  | _ :: _ => { rx with args := rx.args ++ [b], undef := true }

/-- A byte with DC = 1: an argument of the command in progress or pixel data (R75, R76, R78). -/
def Rx.data (p : Params) (rx : Rx) (b : Byte) : Rx :=
  match rx.cmd.bind p.opc.cmd? with
  | some .caset => rx.casetArg b
  | some .raset => rx.rasetArg b
  | some .pixset => rx.pixsetArg b
  | some .madctl => rx.madctlArg b
  | some .ramwr => rx.pixelByte p b
  | some .slpout => rx.setUndef
  | some .dispon => rx.setUndef
  | none => rx.setUndef

/-- A byte that reaches the controller: undefined before the reset pulse and the settle wait (R73). -/
def Rx.byte (p : Params) (rx : Rx) (d : Bool) (b : Byte) : Rx :=
  if rx.boot = .open then (if d then rx.data p b else rx.command p b) else rx.setUndef

/-- A window register after a failure: indeterminate if its command was in progress with too few arguments
(R82). -/
def failedReg (inProgress : Bool) (args : List Byte) (reg : WinReg) : WinReg :=
  if inProgress && decide (args.length < 4) then .indeterminate else reg

/-- A failed transfer (R82). The controller's orientation is then indeterminate, as R197 (d) says of a failed
SET_ORIENTATION. DESIGN CHOICE (log 33, safe): it is so after every failed transfer, since the trace does not tell
whose opcode byte it was. -/
def Rx.fail (p : Params) (rx : Rx) : Rx :=
  { rx with
    cur := match rx.cur with
      | .closed => .closed
      | .pos _ _ | .indeterminate => .indeterminate
    col := failedReg (rx.cmd.bind p.opc.cmd? == some .caset) rx.args rx.col
    row := failedReg (rx.cmd.bind p.opc.cmd? == some .raset) rx.args rx.row
    madctl := .indeterminate
    cmd := none
    args := []
    half := none
    undef := true }

/-- The reset line going high (R73). -/
def BootPhase.releaseLine : BootPhase → BootPhase
  | .cold => .cold
  | .held => .cold
  | .heldLong => .released
  | .released => .released
  | .open => .open

/-- A wait (R73). -/
def BootPhase.waitOne : BootPhase → BootPhase
  | .cold => .cold
  | .held => .heldLong
  | .heldLong => .heldLong
  | .released => .open
  | .open => .open

/-- One event of the trace (R72 to R82). -/
def Rx.event (p : Params) (rx : Rx) : Event → Rx
  | .pin .csN v => { rx with selected := !v, undef := rx.undef || (v && rx.half.isSome) }
  | .pin .dc _ => rx
  | .pin .rstN false => rx.hardReset
  | .pin .rstN true => { rx with boot := rx.boot.releaseLine }
  | .byte d b => if rx.selected then rx.byte p d b else rx
  | .xferFail => rx.fail p
  | .wait _ => { rx with boot := rx.boot.waitOne }

/-- The receiver after a list of events. -/
def Rx.run (p : Params) (rx : Rx) (evs : List Event) : Rx := evs.foldl (Rx.event p) rx

/-- The receiver after a prefix of a run: an open window has no verdict yet (R80). -/
def Rx.observe (p : Params) (tr : List Event) : Rx := Rx.start.run p tr

/-- The receiver at the end of a complete run: the open window closes (R80, R200). -/
def Rx.observeRun (p : Params) (tr : List Event) : Rx := (Rx.observe p tr).close

/-- The pixel memory a list of stores leaves: at every address the last pixel stored there (R79, R83). -/
def memoryOf (px : List PixelStore) : PixelMemory := px.foldl (fun m e => m.write e.r e.c e.p) []

/-- The receiver's view of a state. -/
def State.rx (s : State) : Rx := Rx.observe s.cfg s.tr

/-- The pixel memory the stores of a state's trace leave. DESIGN CHOICE (log 34, unsafe): the stores already made in
a window that closes `short` or `over` count here like any other, the assumption toward proving that R80 asks to be
named. It is the record of the stores and no content of the display: what may be concluded about that is
`State.pixel` (Machine/Display.lean). -/
def State.memory (s : State) : PixelMemory := memoryOf s.rx.px

/-- The pixel last stored at the address (r, c), if one was, whatever became undefined since. -/
def State.stored (s : State) (r c : Nat) : Option Pixel := s.memory.read r c

/-! ### The clock (R9 SPI_MODE, R65, R104) -/

/-- An edge of the SPI clock while a byte is shifted out. -/
structure ClockEdge where
  /-- the level the clock goes to: true for a rising edge -/
  level : Bool
  /-- the level of DC (R310) -/
  dc : Bool
  /-- the data bit the controller captures on this edge, if it is a capture edge -/
  captured : Option Bool
  deriving DecidableEq, Repr

/-- The two edges of one bit's clock period: the clock leaves its idle level and comes back to it, and the bit is
captured on the edge that the mode names (R65, R104). Under the source's mode that is the rising one. -/
def bitEdges (m : SpiMode) (dc bit : Bool) : List ClockEdge :=
  match m.capture with
  | .first => [{ level := !m.idle, dc := dc, captured := some bit }, { level := m.idle, dc := dc, captured := none }]
  | .second => [{ level := !m.idle, dc := dc, captured := none }, { level := m.idle, dc := dc, captured := some bit }]

/-- The clock edges of a trace: sixteen for a byte, the bits in wire order, all under the byte's own DC level (R104,
R310). Nothing is said of the clock outside a byte (R320: "the level of the clock line when chip-select falls" is not in
the source). DESIGN CHOICE (log 37, unsafe): a failed transfer gives no edge. What became of a byte it cut, and how many
of its bits were clocked out, is unknown (R66), and the trace has no event for them; so these are the edges of whole bytes
only. The same holds of a stalled transfer, which has no event (log 5). -/
def clockEdges (m : SpiMode) : List Event → List ClockEdge
  | [] => []
  | .pin _ _ :: rest => clockEdges m rest
  | .byte d b :: rest => (wireBits b).flatMap (bitEdges m d) ++ clockEdges m rest
  | .xferFail :: rest => clockEdges m rest
  | .wait _ :: rest => clockEdges m rest

/-- The level of DC and the data bit at each capture edge of a trace (R65, R104, R310). -/
def clockedBits (m : SpiMode) (evs : List Event) : List (Bool × Bool) :=
  (clockEdges m evs).filterMap fun e => e.captured.map fun bit => (e.dc, bit)

/-- The clock edges of a state's trace, under its SPI mode. -/
def State.clock (s : State) : List ClockEdge := clockEdges s.cfg.spiMode s.tr

end Sys2Proof.Machine
end

