-- ==== Sys2Proof/Machine/Display.lean ====
section
/-! DEFINITION. What a state lets one conclude about the content of the display (20_memory.md R61, R83,
70_reset_and_hazards.md R318, 93_implementation_defined.md U1, U2, U11). -/

namespace Sys2Proof.Machine

/-- A trace that starts with a complete INIT (R83): the reset pulse, the settle wait and the four frames for a member
of ORIENT_SET (R192, R199). -/
def startsWithInit (p : Params) (tr : List Event) : Bool :=
  p.orientSet.any fun row => (resetFrame p ++ commandFrames p (p.initTable row.madctl)).isPrefixOf tr

/-- The trace lets content be concluded (R83): no failed transfer, a complete INIT at the start, and nothing undefined
when the run ends here, where a window still open closes (R80). A run in which a transfer stalled is not final (R200),
and which bytes of it arrived is open: it lets nothing be concluded (log 5). -/
def State.traceDefined (s : State) : Bool :=
  s.spi == .idle && !s.tr.contains .xferFail && startsWithInit s.cfg s.tr && !s.rx.close.undef

/-- (r, c) is a pixel address: inside `DIMS(ORIENT)` (R61). -/
def State.isAddress (s : State) (r c : Nat) : Bool :=
  match s.dims? with
  | some (nr, nc) => decide (r < nr) && decide (c < nc)
  | none => false

/-- The glass has been cleared since the last memory-access-control command: every pixel address was stored to. -/
def State.cleared (s : State) : Bool :=
  match s.dims? with
  | some (nr, nc) => (List.range nr).all fun r => (List.range nc).all fun c =>
      (s.rx.px.drop s.rx.beforeOrient).any fun e => e.r == r && e.c == c
  | none => false

/-- What is on the glass is not left open by a change of orientation: "everything on the glass" is unknown from a
memory-access-control command on "until it clears", unless nothing was stored before it (R197 (e), R318, N20, U11;
log 36). -/
def State.glassKnown (s : State) : Bool := s.rx.beforeOrient == 0 || s.cleared

/-- Content may be concluded. -/
def State.displayDefined (s : State) : Bool := s.traceDefined && s.glassKnown

/-- The content of the pixel address (r, c) of the display, if one may be concluded (R83): the pixel last stored there.
None at an address never stored to, at a place that is no address (R61), and anywhere while the content is open or
undefined. -/
def State.pixel (s : State) (r c : Nat) : Option Pixel :=
  if s.displayDefined && s.isAddress r c then s.stored r c else none

end Sys2Proof.Machine
end

