-- ==== Sys2Proof/Safety.lean ====
section
/-! DEFINITION. The terms claims are stated in: premises on the SPI master, runs of several operations, the
invariants of the state and of the wire, which operation can end how, and what a host session is (10_state.md R38 to
R40, 40_bus_transport.md R149, 60_exceptions.md R263). -/

namespace Sys2Proof.Machine

/-! ### Premises on the SPI master -/

/-- The next `n` transfers are answered `ok` (U6: "a stated premise"). -/
def State.answersOk (s : State) (n : Nat) : Prop := ∀ k < n, s.answerAt (s.spiDrawn + k) = .ok

/-- The first `n` transfers are answered `ok` and the next one fails after `k` bytes. -/
def State.failsAt (s : State) (n k : Nat) : Prop := s.answersOk n ∧ s.answerAt (s.spiDrawn + n) = .fail k

/-- The first `n` transfers are answered `ok` and the next one never ends. -/
def State.stallsAt (s : State) (n : Nat) : Prop := s.answersOk n ∧ s.answerAt (s.spiDrawn + n) = .stall

/-! ### Runs -/

/-- Operations one after the other, each to completion (R15). -/
def execAll : List Instr → State → Host.Outcome State Fault Refusal
  | [], s => .next s
  | i :: rest, s =>
    match exec i s with
    | .next t => execAll rest t
    | .fault e => .fault e
    | .refused e => .refused e

/-! ### Invariants of the state -/

/-- How often the reset line has been driven low (R40). -/
def resetPulses (tr : List Event) : Nat := tr.count (.pin .rstN false)

/-- The host, which cannot read STATE or ORIENT (R21, R24, R275 (c)), knows from its operations' completion values what
they hold: the orientation in Ready, and before that none (log 38). -/
def State.hostKnows (s : State) : Prop := s.hostOrient = if s.ctrl = .ready then s.orient else none

/-- What holds of the block, and of what its host knows, between operations. -/
structure State.Inv (s : State) : Prop where
  /-- CS_N = 1 if no stall has occurred (R38) -/
  idle_released : s.spi = .idle → s.csN = true
  /-- "CS_N stays 0" in a stalled transfer (R146) -/
  stalled_selected : s.spi = .stalled → s.csN = false
  /-- RST_N is low only inside INIT (R40) -/
  reset_released : s.rstN = true
  /-- an operation never ends in Resetting, which INIT passes through (R192) -/
  not_resetting : s.ctrl ≠ .resetting
  /-- INIT_STEP is 0 to 4 (R22) -/
  step_range : s.initStep.toNat ≤ 4
  /-- INIT_STEP "is 4 exactly when STATE = Ready" (R22) -/
  ready_iff : s.ctrl = .ready ↔ s.initStep = 4
  /-- before INIT nothing has been counted -/
  unpowered_step : s.ctrl = .unpowered → s.initStep = 0
  /-- ORIENT is set by the third command (R24, R192, R193) -/
  orient_iff : s.orient.isSome ↔ 3 ≤ s.initStep.toNat
  /-- ORIENT holds a member of ORIENT_SET (R29) -/
  orient_inSet : ∀ o, s.orient = some o → s.cfg.hasOrient o = true
  /-- RST_N "is driven low exactly once per power-on, inside INIT" (R40) -/
  one_pulse : resetPulses s.tr = if s.ctrl = .unpowered then 0 else 1
  /-- the host knows the orientation it set (log 38) -/
  host_knows : s.hostKnows

/-! ### The discipline of the wire (R149, R170) -/

/-- How far a trace has got in its current frame. -/
structure FrameScan where
  inFrame : Bool
  level : Option Bool
  bytes : Nat
  cmd : Option Byte
  failed : Bool
  deriving DecidableEq, Repr

/-- Before the first event. -/
def FrameScan.start : FrameScan where
  inFrame := false
  level := none
  bytes := 0
  cmd := none
  failed := false

/-- A frame may end: a data frame always, a command frame with exactly the arguments its opcode takes unless a
transfer failed in it (R170). -/
def FrameScan.mayEnd (p : Params) (f : FrameScan) : Bool :=
  match f.cmd with
  | none => true
  | some b => f.failed || (p.opc.cmd? b).any fun c => f.bytes == c.argCount + 1

/-- One event, if the discipline allows it there: frames alternate and do not nest (R149 (b)); bytes, failures and
DC changes only inside a frame (a, d); a byte's level is DC's last level (d); the only byte with DC = 0 is the
frame's first and one of the seven opcodes (c, R170); nothing but the release follows a failure (R262); the reset
line and the waits only outside frames (e). -/
def FrameScan.event (p : Params) (f : FrameScan) : Event → Option FrameScan
  | .pin .csN false => if f.inFrame then none else some { f with inFrame := true, bytes := 0, cmd := none, failed := false }
  | .pin .csN true => if f.inFrame && f.mayEnd p then some { f with inFrame := false } else none
  | .pin .dc v => if f.inFrame && !f.failed then some { f with level := some v } else none
  | .pin .rstN _ => if f.inFrame then none else some f
  | .byte true _ =>
    if f.inFrame && !f.failed && f.level == some true then some { f with bytes := f.bytes + 1 } else none
  | .byte false b =>
    if f.inFrame && !f.failed && f.level == some false && f.bytes == 0 && (p.opc.cmd? b).isSome then
      some { f with bytes := 1, cmd := some b }
    else none
  | .xferFail => if f.inFrame && !f.failed then some { f with failed := true } else none
  | .wait _ => if f.inFrame then none else some f

/-- The scan of a list of events. -/
def FrameScan.run (p : Params) (f : FrameScan) (evs : List Event) : Option FrameScan := evs.foldlM (FrameScan.event p) f

/-- A state whose trace keeps the discipline and agrees with its pins. -/
def State.WireOk (s : State) : Prop :=
  ∃ f, FrameScan.start.run s.cfg s.tr = some f ∧ f.inFrame = !s.csN ∧ ∀ v, f.level = some v → v = s.dc

/-! ### How operations end (R263) -/

/-- The error an operation's failed transfer is handed back as (R261, R263). -/
def opError : Instr → Completion
  | .slpout => .busError
  | .pixset => .busError
  | .madctl _ => .busError
  | .dispon => .busError
  | .raset _ _ => .busError
  | .caset _ _ => .busError
  | .ramwr => .busError
  | .init _ _ _ _ => .displayInitError
  | .setOrientation _ _ _ _ => .displayIoError
  | .setAddressWindow _ _ _ _ => .displayIoError
  | .writePixelStream _ _ _ _ _ => .displayIoError
  | .clear _ _ _ _ => .displayIoError
  | .sendCommand _ _ => .busError
  | .sendPixels _ => .busError
  | .drawCircle _ _ _ _ _ _ => .displayIoError
  | .drawText _ _ _ _ _ => .displayIoError
  | .plot _ _ _ => .displayIoError

/-! ### Pixels (R79, R83) -/

/-- The receiver takes pixels: the reset prefix has been seen and the 16-bit format is set (R73, R76), as after a
complete INIT. -/
def State.rxReady (s : State) : Prop := s.rx.boot = .open ∧ s.rx.fmt = some s.cfg.pixfmtArg

/-- The addresses the next `n` pixels go to from an address in a window (R79). -/
def storeAddrs (r0 r1 c0 c1 : Nat) : Nat → Nat × Nat → List (Nat × Nat)
  | 0, _ => []
  | n + 1, rc => rc :: storeAddrs r0 r1 c0 c1 n (nextAddr r0 r1 c0 c1 rc.1 rc.2)

/-- The addresses the receiver would store the next `n` pixels to: none unless its counter stands in a window
(R79). -/
def Rx.nextAddrs (rx : Rx) (n : Nat) : List (Nat × Nat) :=
  match rx.cur, rx.row, rx.col with
  | .pos r c, .bounds r0 r1, .bounds c0 c1 => storeAddrs r0.toNat r1.toNat c0.toNat c1.toNat n (r, c)
  | _, _, _ => []

/-- A pixel sequence stored from a window's origin in row-major order: pixel i at (r0 + i div w, c0 + i mod w)
(R87). -/
def rowMajor (r0 c0 w : Nat) (px : List Pixel) : List PixelStore :=
  px.zipIdx.map fun pi => { r := r0 + pi.2 / w, c := c0 + pi.2 % w, p := pi.1 }

/-! ### Host sessions -/

/-- The drawing requests of the application (R252). -/
def isDraw : Instr → Bool
  | .drawCircle _ _ _ _ _ _ => true
  | .drawText _ _ _ _ _ => true
  | _ => false

/-- The Application Sequencer's requests: INIT, CLEAR, then one or two drawing requests, then nothing (R251). -/
def applicationSession (q : List Request) : Prop :=
  ∃ (o : Half) (color : Pixel) (draws : List Instr),
    (draws.length = 1 ∨ draws.length = 2) ∧ draws.all isDraw = true ∧
      q = encode (.init o 0 0 0) :: encode (.clear color 0 0 0) :: draws.map encode

end Sys2Proof.Machine
end

