-- ==== Sys2Proof/Certificates/Slice0/Obligations.lean ====
section
/-! DEFINITION. The statements about the block and its receiver, each a `Prop`. A premise on the SPI master's
answers (`answersOk`, `failsAt`, `stallsAt`) is the stated premise the spec asks for (93_implementation_defined.md
U6, U7); every statement holds for every configuration of `cfg` that its premises admit (part 2 of that file), and
for every value of the model's own free fields. -/

open Sys2Proof Sys2Proof.Machine

/-! ## The step, reset, encodings -/

/-- A step runs the operation the head of the host port decodes to, on the state with that request taken (R15:
"Host operations are executed one at a time, each to completion, in the order the host issues them"). From the port only
host operations and pseudo-operations run: a command or a Bus Transport primitive is refused there ("the BT primitives
are not reachable from the host"). These run for a test at the Bus Transport's boundary, from a queue of its own which
is taken first, and nothing else does (R150; that queue, its place in the order and the refusal's name are the model's
choice, log 3, 14). -/
def Obligations.StepRunsDecodedRequest : Prop :=
  (∀ (s : State) (r : Request) (rest : List Request), s.spi = .idle → s.bench = [] → s.port = r :: rest →
    (∀ i, fromHost r = true → decode r = .ok i → step s = exec i { s with port := rest }) ∧
    (fromHost r = false → step s = .refused .notReachable)) ∧
  (∀ (s : State) (r : Request) (rest : List Request), s.spi = .idle → s.bench = r :: rest →
    (∀ i, fromHost r = false → decode r = .ok i → step s = exec i { s with bench := rest }) ∧
    (fromHost r = true → step s = .refused .notReachable)) ∧
  ∀ (r : Request) (i : Instr), decode r = .ok i → (fromHost r = true ↔ opLayer i = .host ∨ opLayer i = .pseudo)

/-- With no request the block holds its state (R198, R284). The empty queues' step is the model's choice (log 2, 3). -/
def Obligations.IdleBlockHoldsItsState : Prop :=
  ∀ s : State, s.spi = .idle → s.bench = [] → s.port = [] → step s = .next s

/-- After a stalled transfer there is no step and no operation (R146). The stop's name is the model's. -/
def Obligations.StalledBlockTakesNoStep : Prop :=
  ∀ (s : State) (i : Instr), s.spi = .stalled →
    exec i s = .fault .transferStalled ∧ step s = .fault .transferStalled

/-- The reset values the spec gives (R37, R300), DC at its open parameter, and the receiver unset (R71). -/
def Obligations.ResetValues : Prop :=
  ∀ p : Params, (State.resetWith p).ctrl = .unpowered ∧ (State.resetWith p).initStep = 0 ∧
    (State.resetWith p).orient = none ∧ (State.resetWith p).csN = true ∧ (State.resetWith p).dc = p.dcReset ∧
    (State.resetWith p).rstN = true ∧ (State.resetWith p).tr = [] ∧ (State.resetWith p).rx = Rx.start ∧
    State.reset = State.resetWith Config.default

/-- The reset state meets the invariants the step keeps, and its memory is in its canonical form. -/
def Obligations.ResetMeetsInvariants : Prop :=
  State.reset.Inv ∧ State.reset.WireOk ∧ State.reset.memory.wf = true ∧ State.reset.cfg.wf = true

/-- Words written out from the encodings of R105 and R110 decode to the operations they stand for. The request
word of a layer-W command is the model's choice (log 3); its opcode byte is the table's. -/
def Obligations.WordsDecodeAsTheTableSays : Prop :=
  decodeTableWord 8 0x11 = some .slpout ∧ decodeTableWord 8 0x3A = some .pixset ∧
    decodeTableWord 40 0x012C000A2B = some (.raset 0x000A#16 0x012C#16) ∧
    decode (.descriptor 0x00003000000000000#68 []) = .ok (.init 3#16 0 0 0) ∧
    decode (.descriptor 0x10002000000000000#68 []) = .ok (.setOrientation 2#16 0 0 0) ∧
    decode (.descriptor 0x2000A000B00050006#68 []) = .ok (.setAddressWindow 10#16 11#16 5#16 6#16) ∧
    decode (.descriptor 0x30000000000000000#68 [0xF800#16, 0x07E0#16]) =
      .ok (.writePixelStream 0 0 0 0 [0xF800#16, 0x07E0#16]) ∧
    decode (.descriptor 0x4001F000000000000#68 []) = .ok (.clear 0x001F#16 0 0 0) ∧
    decodeWire Config.default [0x36#8, 0xE8#8] = .ok (.madctl Config.landscapeFlipped) ∧
    decodeWire Config.default [0x2A#8, 0x00#8, 0xEF#8, 0x00#8, 0xEF#8] = .ok (.caset 239#16 239#16)

/-- Decoding what the encoder writes gives the operation back, every operand at every value. -/
def Obligations.DecodeOfEncodeIsTheInstruction : Prop := ∀ i : Instr, decode (encode i) = .ok i

/-- Encoding what the decoder reads from a host descriptor gives the descriptor back, every one of its 68 bits and
its payload: no bit is dropped, and no two descriptors are one operation (R110). -/
def Obligations.EncodeOfDecodeIsTheDescriptor : Prop :=
  ∀ (w : BitVec 68) (px : List Pixel) (i : Instr),
    decode (.descriptor w px) = .ok i → encode i = .descriptor w px

/-- The bytes of a command frame tell the command and its operands (R105 to R108, R115): decoding the wire bytes of
a layer-W operation gives it back, for every configuration whose opcode bytes are distinct and whose orientation
bytes are. -/
def Obligations.WireBytesDecodeToTheCommand : Prop :=
  ∀ (p : Params) (i : Instr) (bytes : List Byte),
    p.opc.distinct = true → p.madctlDistinct = true →
      encodeWire p i = some bytes → decodeWire p bytes = .ok i

/-- A byte split and put together again is the halfword (R119). -/
def Obligations.HalfwordRoundTrip : Prop :=
  ∀ v : Half, (hi8 v).toNat * 256 + (lo8 v).toNat = v.toNat ∧ ofBytes (hi8 v) (lo8 v) = v

/-- On the wire a pixel is sixteen bits, most significant first, all under DC = 1 (R63, R102, R104, R310). Under the
source's SPI mode each bit is one clock period from a clock that idles low: it is captured on the first, rising edge, and
nothing on the falling one (R65); and these are the bits captured in any mode. -/
def Obligations.PixelBitsOnTheWire : Prop :=
  Config.default.spiMode = { idle := false, capture := .first } ∧
  ∀ px : List Pixel,
    clockEdges { idle := false, capture := .first } (dataFrame (pixelBytes px)) =
      (px.flatMap fun p => (List.range 16).flatMap fun k =>
        [{ level := true, dc := true, captured := some (p.getLsbD (15 - k)) },
          { level := false, dc := true, captured := none }]) ∧
    ∀ m : SpiMode, clockedBits m (dataFrame (pixelBytes px)) =
      px.flatMap fun p => (List.range 16).map fun k => (true, p.getLsbD (15 - k))

/-! ## Bus Transport -/

/-- SEND_COMMAND with one of the seven opcodes and its argument count completes with `Ok`, having put the command
frame of R101 on the wire; with no arguments there is one transfer, else two (R141, R142). -/
def Obligations.SendCommandCompletes : Prop :=
  ∀ (s : State) (opcode : Byte) (args : List Byte) (c : Cmd),
    s.spi = .idle → s.cfg.opc.cmd? opcode = some c → args.length = c.argCount →
      s.answersOk (if args = [] then 1 else 2) →
      exec (.sendCommand opcode args) s = .next { s with
        csN := true
        dc := true
        tr := s.tr ++ ([.pin .csN false, .pin .dc false, .byte false opcode, .pin .dc true] ++ args.map (.byte true) ++
          [.pin .csN true])
        spiDrawn := s.spiDrawn + (if args = [] then 1 else 2)
        completions := s.completions ++ [.ok] }

/-- SEND_PIXELS completes with `Ok`, having put the data frame of R102 on the wire; with no bytes there is no
transfer (R143, R144). -/
def Obligations.SendPixelsCompletes : Prop :=
  ∀ (s : State) (bytes : List Byte),
    s.spi = .idle → s.answersOk (if bytes = [] then 0 else 1) →
      exec (.sendPixels bytes) s = .next { s with
        csN := true
        dc := true
        tr := s.tr ++ ([.pin .csN false, .pin .dc true] ++ bytes.map (.byte true) ++ [.pin .csN true])
        spiDrawn := s.spiDrawn + (if bytes = [] then 0 else 1)
        completions := s.completions ++ [.ok] }

/-- The failure path of a primitive (R145): it stops sending, leaves DC as it is, deasserts chip-select and returns
`BusError`. An opcode byte that fails leaves DC = 0 and its arguments are never sent; an argument list or a payload
that fails after k bytes has put those k bytes on the wire, then `XferFail`, then `Pin(CS_N,1)`. -/
def Obligations.PrimitiveFailurePath : Prop :=
  (∀ (s : State) (opcode : Byte) (args : List Byte) (c : Cmd) (k : Nat),
    s.spi = .idle → s.cfg.opc.cmd? opcode = some c → args.length = c.argCount → s.failsAt 0 k →
      exec (.sendCommand opcode args) s = .next { s with
        csN := true
        dc := false
        tr := s.tr ++ [.pin .csN false, .pin .dc false, .xferFail, .pin .csN true]
        spiDrawn := s.spiDrawn + 1
        completions := s.completions ++ [.busError] }) ∧
  (∀ (s : State) (opcode : Byte) (args : List Byte) (c : Cmd) (k : Nat),
    s.spi = .idle → s.cfg.opc.cmd? opcode = some c → args.length = c.argCount → k < args.length → s.failsAt 1 k →
      exec (.sendCommand opcode args) s = .next { s with
        csN := true
        dc := true
        tr := s.tr ++ ([.pin .csN false, .pin .dc false, .byte false opcode, .pin .dc true] ++
          (args.take k).map (.byte true) ++ [.xferFail, .pin .csN true])
        spiDrawn := s.spiDrawn + 2
        completions := s.completions ++ [.busError] }) ∧
  (∀ (s : State) (bytes : List Byte) (k : Nat),
    s.spi = .idle → k < bytes.length → s.failsAt 0 k →
      exec (.sendPixels bytes) s = .next { s with
        csN := true
        dc := true
        tr := s.tr ++ ([.pin .csN false, .pin .dc true] ++ (bytes.take k).map (.byte true) ++ [.xferFail, .pin .csN true])
        spiDrawn := s.spiDrawn + 1
        completions := s.completions ++ [.busError] })

/-- A stalled transfer (R146): chip-select stays low, there is no completion value, and no byte of the stalled
transfer is recorded (the last is the model's choice, log 5). -/
def Obligations.StalledPrimitive : Prop :=
  (∀ (s : State) (opcode : Byte) (args : List Byte) (c : Cmd),
    s.spi = .idle → s.cfg.opc.cmd? opcode = some c → args.length = c.argCount → s.stallsAt 0 →
      exec (.sendCommand opcode args) s = .next { s with
        csN := false
        dc := false
        tr := s.tr ++ [.pin .csN false, .pin .dc false]
        spi := .stalled
        spiDrawn := s.spiDrawn + 1 }) ∧
  (∀ (s : State) (opcode : Byte) (args : List Byte) (c : Cmd),
    s.spi = .idle → s.cfg.opc.cmd? opcode = some c → args.length = c.argCount → args ≠ [] → s.stallsAt 1 →
      exec (.sendCommand opcode args) s = .next { s with
        csN := false
        dc := true
        tr := s.tr ++ [.pin .csN false, .pin .dc false, .byte false opcode, .pin .dc true]
        spi := .stalled
        spiDrawn := s.spiDrawn + 2 }) ∧
  (∀ (s : State) (bytes : List Byte),
    s.spi = .idle → bytes ≠ [] → s.stallsAt 0 →
      exec (.sendPixels bytes) s = .next { s with
        csN := false
        dc := true
        tr := s.tr ++ [.pin .csN false, .pin .dc true]
        spi := .stalled
        spiDrawn := s.spiDrawn + 1 })

/-! ## Controller commands -/

/-- SLPOUT, DISPON and RAMWR put their opcode on the wire in a frame without arguments and complete with `Ok`; they
change nothing but the two lines, the trace, the count of answers and the completion values (R161, R164, R167). -/
def Obligations.CommandsWithoutArgumentsComplete : Prop :=
  ∀ s : State, s.spi = .idle → s.answersOk 1 →
    let after := fun (opcode : Byte) => { s with
      csN := true
      dc := true
      tr := s.tr ++ [.pin .csN false, .pin .dc false, .byte false opcode, .pin .dc true, .pin .csN true]
      spiDrawn := s.spiDrawn + 1
      completions := s.completions ++ [.ok] }
    exec .slpout s = .next (after s.cfg.opc.slpout) ∧ exec .dispon s = .next (after s.cfg.opc.dispon) ∧
      exec .ramwr s = .next (after s.cfg.opc.ramwr)

/-- PIXSET sends its fixed argument, MADCTL the byte of an orientation in the set (R106, R107, R162, R163); MADCTL
writes no ORIENT here, at the Bus Transport's boundary (log 26). -/
def Obligations.CommandsWithOneArgumentComplete : Prop :=
  ∀ s : State, s.spi = .idle → s.answersOk 2 →
    let after := fun (opcode arg : Byte) => { s with
      csN := true
      dc := true
      tr := s.tr ++ [.pin .csN false, .pin .dc false, .byte false opcode, .pin .dc true, .byte true arg, .pin .csN true]
      spiDrawn := s.spiDrawn + 2
      completions := s.completions ++ [.ok] }
    exec .pixset s = .next (after s.cfg.opc.pixset s.cfg.pixfmtArg) ∧
      ∀ (o : Half) (row : OrientRow), s.cfg.orientSet[o.toNat]? = some row →
        exec (.madctl o) s = .next (after s.cfg.opc.madctl row.madctl)

/-- RASET and CASET send their two bounds, start then end, most significant byte first (R108, R165, R166). -/
def Obligations.WindowCommandsComplete : Prop :=
  ∀ (s : State) (v0 v1 : Half), s.spi = .idle → s.answersOk 2 →
    let after := fun (opcode : Byte) => { s with
      csN := true
      dc := true
      tr := s.tr ++ [.pin .csN false, .pin .dc false, .byte false opcode, .pin .dc true, .byte true (hi8 v0),
        .byte true (lo8 v0), .byte true (hi8 v1), .byte true (lo8 v1), .pin .csN true]
      spiDrawn := s.spiDrawn + 2
      completions := s.completions ++ [.ok] }
    exec (.raset v0 v1) s = .next (after s.cfg.opc.raset) ∧ exec (.caset v0 v1) s = .next (after s.cfg.opc.caset)

/-- What a layer-W command puts on the wire is a frame the receiver's decoder reads as that very command (R105,
R115, R160): opcode under DC = 0, arguments under DC = 1. -/
def Obligations.CommandFrameTellsTheCommand : Prop :=
  ∀ (s t : State) (i : Instr), opLayer i = .wire → s.cfg.opc.distinct = true → s.cfg.madctlDistinct = true →
    s.spi = .idle → s.answersOk 2 → exec i s = .next t →
      ∃ (opcode : Byte) (args : List Byte), t.tr = s.tr ++ commandFrame opcode args ∧
        decodeWire s.cfg (opcode :: args) = .ok i

/-! ## The initialization sequencer -/

/-- INIT from Unpowered with an orientation of the set, all six transfers `ok`: the reset pulse and the settle wait,
then the four frames in their fixed order; Ready, INIT_STEP 4, ORIENT the requested one, all lines high, `Ok` (R103,
R191, R192, R199). That the host then knows the orientation is the model's field for it (log 38). -/
def Obligations.InitCompletes : Prop :=
  ∀ (s : State) (o b c2 d : Half) (row : OrientRow),
    s.spi = .idle → s.ctrl = .unpowered → s.cfg.orientSet[o.toNat]? = some row → s.answersOk 6 →
      exec (.init o b c2 d) s = .next { s with
        ctrl := .ready
        initStep := 4
        orient := some o
        hostOrient := some o
        csN := true
        dc := true
        rstN := true
        latches := { opc := 0, opa := o, opb := b, opc2 := c2, opd := d }
        tr := s.tr ++ ([.pin .rstN false, .wait s.cfg.tRstPulse, .pin .rstN true, .wait s.cfg.tSettle] ++
          commandFrame s.cfg.opc.slpout [] ++ commandFrame s.cfg.opc.pixset [s.cfg.pixfmtArg] ++
          commandFrame s.cfg.opc.madctl [row.madctl] ++ commandFrame s.cfg.opc.dispon [])
        spiDrawn := s.spiDrawn + 6
        completions := s.completions ++ [.ok] }

/-- The trace of a successful INIT from reset, event by event as R199 lists it, for every orientation of the set: 26
events under the default opcodes and orientation table (those bytes are the spec's general-knowledge defaults, log 8,
9), and the end state R199 gives. -/
def Obligations.InitTraceFromReset : Prop :=
  ∀ (answers : List SpiAnswer) (o : Half) (row : OrientRow),
    (∀ k < 6, answers[k]? = some .ok) → Config.orientSet[o.toNat]? = some row →
    ∃ t, exec (.init o 0 0 0) { State.reset with spiScript := answers } = .next t ∧
      t.tr = [.pin .rstN false, .wait Config.tRstPulse, .pin .rstN true, .wait Config.tSettle,
        .pin .csN false, .pin .dc false, .byte false 0x11, .pin .dc true, .pin .csN true,
        .pin .csN false, .pin .dc false, .byte false 0x3A, .pin .dc true, .byte true 0x55, .pin .csN true,
        .pin .csN false, .pin .dc false, .byte false 0x36, .pin .dc true, .byte true row.madctl, .pin .csN true,
        .pin .csN false, .pin .dc false, .byte false 0x29, .pin .dc true, .pin .csN true] ∧
      t.tr.length = 26 ∧ t.ctrl = .ready ∧ t.initStep = 4 ∧ t.orient = some o ∧ t.csN = true ∧
      t.dc = true ∧ t.rstN = true ∧ t.completions = [.ok]

/-- A failure at any of the six transfers of INIT (R193): the commands before it were sent whole, nothing after it
is; STATE stays Initializing, INIT_STEP keeps the index of the failed command, ORIENT is written only if that is the
last, and INIT returns `DisplayInitError`. Transfers 0, 1, 3 and 5 are opcode bytes, 2 and 4 one-byte argument lists.
After it no host operation is admitted. -/
def Obligations.InitFailureIsFatal : Prop :=
  ∀ (s : State) (o b c2 d : Half) (row : OrientRow) (j k : Nat),
    s.spi = .idle → s.ctrl = .unpowered → s.cfg.orientSet[o.toNat]? = some row → j < 6 → s.failsAt j k →
      let table := s.cfg.initTable row.madctl
      let failed := [0, 1, 1, 2, 2, 3].getD j 0
      let inArgs := decide (j = 2 ∨ j = 4)
      let opcode := if j = 2 then s.cfg.opc.pixset else s.cfg.opc.madctl
      let t := { s with
        ctrl := .initializing
        initStep := BitVec.ofNat 3 failed
        orient := if failed = 3 then some o else s.orient
        csN := true
        dc := inArgs
        rstN := true
        latches := { opc := 0, opa := o, opb := b, opc2 := c2, opd := d }
        tr := s.tr ++ (resetFrame s.cfg ++ commandFrames s.cfg (table.take failed) ++
          (if inArgs then [.pin .csN false, .pin .dc false, .byte false opcode, .pin .dc true, .xferFail, .pin .csN true]
            else [.pin .csN false, .pin .dc false, .xferFail, .pin .csN true]))
        spiDrawn := s.spiDrawn + j + 1
        completions := s.completions ++ [.displayInitError] }
      exec (.init o b c2 d) s = .next t ∧ ∀ i, opLayer i = .host → ∃ e, exec i t = .refused e

/-- Admission by STATE (R190): INIT only in Unpowered, the other host operations only in Ready; anything else is
refused, with no next state. The pseudo-operations issue host operations (R117, R240, R246), so they are refused as
these are (a text without a foreground pixel issues none, R249: `EmptyTextIssuesNothing`). The refusals' names, and
that STATE is checked before the operands, are the model's choice (log 14). So is that a renderer which clips does so in
Ready only, and that outside Ready its request is refused as the unclipped windows are, even one wholly off the panel,
which would issue no operation if it were clipped (log 24, 38: the renderer knows no panel then, by the invariant
`hostKnows`, which every step keeps). -/
def Obligations.AdmissionByState : Prop :=
  ∀ s : State, s.spi = .idle →
    (∀ o b c2 d, s.ctrl ≠ .unpowered → exec (.init o b c2 d) s = .refused .notUnpowered) ∧
    (s.ctrl ≠ .ready →
      (∀ o b c2 d, exec (.setOrientation o b c2 d) s = .refused .notReady) ∧
      (∀ r0 r1 c0 c1, exec (.setAddressWindow r0 r1 c0 c1) s = .refused .notReady) ∧
      (∀ a b c2 d px, exec (.writePixelStream a b c2 d px) s = .refused .notReady) ∧
      (∀ color b c2 d, exec (.clear color b c2 d) s = .refused .notReady) ∧
      (∀ r c p, exec (.plot r c p) s = .refused .notReady) ∧
      (∀ row col radius stroke width fill, s.hostKnows →
        exec (.drawCircle row col radius stroke width fill) s = .refused .notReady) ∧
      (∀ text row col align color, s.hostKnows →
        (textCells s.cfg (s.renderChoiceAt s.renderDrawn) text row col align).flatten ≠ [] →
          exec (.drawText text row col align color) s = .refused .notReady))

/-- The forms R114 gives no meaning are refused, each under its name: (a) reserved op codes, (c) an orientation
outside the set, (d) bad bounds, (e) a bad SEND_COMMAND; (b) is `AdmissionByState`. -/
def Obligations.FormsWithoutMeaningAreRefused : Prop :=
  ∀ s : State, s.spi = .idle →
    (∀ (w : BitVec 68) px rest, s.bench = [] → s.port = .descriptor w px :: rest → 5 ≤ (w.extractLsb' 64 4).toNat →
      step s = .refused .reservedOp) ∧
    (∀ o : Half, s.cfg.orientSet.length ≤ o.toNat →
      (∀ b c2 d, s.ctrl = .unpowered → exec (.init o b c2 d) s = .refused .orientationOutsideSet) ∧
      (∀ b c2 d, s.ctrl = .ready → exec (.setOrientation o b c2 d) s = .refused .orientationOutsideSet)) ∧
    (∀ nr nc (r0 r1 c0 c1 : Half), s.ctrl = .ready → s.dims? = some (nr, nc) →
      (r1.toNat < r0.toNat ∨ c1.toNat < c0.toNat ∨ nr ≤ r1.toNat ∨ nc ≤ c1.toNat) →
        exec (.setAddressWindow r0 r1 c0 c1) s = .refused .windowOutOfBounds) ∧
    (∀ opcode args, s.cfg.opc.cmd? opcode = none → exec (.sendCommand opcode args) s = .refused .commandNotInSet) ∧
    (∀ opcode args c, s.cfg.opc.cmd? opcode = some c → args.length ≠ c.argCount →
      exec (.sendCommand opcode args) s = .refused .commandArgCount)

/-- SET_ORIENTATION in Ready (R196): the memory-access-control frame, ORIENT written, `Ok`; the host then knows the new
orientation (the model's field for it, log 38). -/
def Obligations.SetOrientationCompletes : Prop :=
  ∀ (s : State) (o b c2 d : Half) (row : OrientRow),
    s.spi = .idle → s.ctrl = .ready → s.cfg.orientSet[o.toNat]? = some row → s.answersOk 2 →
      exec (.setOrientation o b c2 d) s = .next { s with
        orient := some o
        hostOrient := some o
        csN := true
        dc := true
        latches := { opc := 1, opa := o, opb := b, opc2 := c2, opd := d }
        tr := s.tr ++ commandFrame s.cfg.opc.madctl [row.madctl]
        spiDrawn := s.spiDrawn + 2
        completions := s.completions ++ [.ok] }

/-- SET_ORIENTATION whose transfer fails (R196, R197 (d)): `DisplayIoError`, ORIENT keeps its old value and the
host what it knows (log 38), and the controller's orientation is indeterminate. -/
def Obligations.SetOrientationFailureKeepsOrient : Prop :=
  ∀ (s : State) (o b c2 d : Half) (row : OrientRow) (j k : Nat),
    s.spi = .idle → s.ctrl = .ready → s.cfg.orientSet[o.toNat]? = some row → j < 2 → s.failsAt j k →
      ∃ t, exec (.setOrientation o b c2 d) s = .next t ∧ t.orient = s.orient ∧ t.hostOrient = s.hostOrient ∧
        t.ctrl = .ready ∧ t.csN = true ∧
        t.dc = decide (j = 1) ∧ t.completions = s.completions ++ [.displayIoError] ∧ t.rx.madctl = .indeterminate

/-! ## The window and pixel-stream sequencer -/

/-- SET_ADDRESS_WINDOW in Ready with good bounds (R108, R211): row, column, memory-write, in that order, bounds as
given; no register but the latches keeps them (R34). -/
def Obligations.SetAddressWindowCompletes : Prop :=
  ∀ (s : State) (r0 r1 c0 c1 : Half) (nr nc : Nat),
    s.spi = .idle → s.ctrl = .ready → s.dims? = some (nr, nc) → r0.toNat ≤ r1.toNat → r1.toNat < nr →
      c0.toNat ≤ c1.toNat → c1.toNat < nc → s.answersOk 5 →
      exec (.setAddressWindow r0 r1 c0 c1) s = .next { s with
        csN := true
        dc := true
        latches := { opc := 2, opa := r0, opb := r1, opc2 := c0, opd := c1 }
        tr := s.tr ++ (commandFrame s.cfg.opc.raset [hi8 r0, lo8 r0, hi8 r1, lo8 r1] ++
          commandFrame s.cfg.opc.caset [hi8 c0, lo8 c0, hi8 c1, lo8 c1] ++ commandFrame s.cfg.opc.ramwr [])
        spiDrawn := s.spiDrawn + 5
        completions := s.completions ++ [.ok] }

/-- SET_ADDRESS_WINDOW whose transfer j fails (R211, R262): the frames before it whole, the failed one cut and
released, the later ones never begun; `DisplayIoError`, still Ready. Transfers 0, 2 and 4 are the opcode bytes,
1 and 3 the bounds. -/
def Obligations.SetAddressWindowFailure : Prop :=
  ∀ (s : State) (r0 r1 c0 c1 : Half) (nr nc j k : Nat),
    s.spi = .idle → s.ctrl = .ready → s.dims? = some (nr, nc) → boundsOk nr nc r0 r1 c0 c1 = true → j < 5 → k < 4 →
      s.failsAt j k →
      let table := windowTable r0 r1 c0 c1
      let inArgs := decide (j = 1 ∨ j = 3)
      exec (.setAddressWindow r0 r1 c0 c1) s = .next { s with
        csN := true
        dc := inArgs
        latches := { opc := 2, opa := r0, opb := r1, opc2 := c0, opd := c1 }
        tr := s.tr ++ (commandFrames s.cfg (table.take (j / 2)) ++
          (if j = 1 then argsFailedFrame s.cfg.opc.raset (be16 r0 ++ be16 r1) k
            else if j = 3 then argsFailedFrame s.cfg.opc.caset (be16 c0 ++ be16 c1) k
            else opcodeFailedFrame))
        spiDrawn := s.spiDrawn + j + 1
        completions := s.completions ++ [.displayIoError] }

/-- WRITE_PIXEL_STREAM in Ready (R214): exactly one data frame, two bytes a pixel, most significant first, in
sequence order; every pixel value is legal; an empty payload makes an empty frame and no transfer. The block asks
for no window (R215 (c)). -/
def Obligations.WritePixelStreamCompletes : Prop :=
  ∀ (s : State) (a b c2 d : Half) (px : List Pixel),
    s.spi = .idle → s.ctrl = .ready → s.answersOk (if px = [] then 0 else 1) →
      exec (.writePixelStream a b c2 d px) s = .next { s with
        csN := true
        dc := true
        latches := { opc := 3, opa := a, opb := b, opc2 := c2, opd := d }
        tr := s.tr ++ ([.pin .csN false, .pin .dc true] ++ (px.flatMap fun p => [.byte true (hi8 p), .byte true (lo8 p)]) ++
          [.pin .csN true])
        spiDrawn := s.spiDrawn + (if px = [] then 0 else 1)
        completions := s.completions ++ [.ok] }

/-- WRITE_PIXEL_STREAM whose transfer fails after k bytes (R214, R215 (e)): exactly those bytes, possibly half a
pixel, reached the wire; `DisplayIoError`. -/
def Obligations.WritePixelStreamFailure : Prop :=
  ∀ (s : State) (a b c2 d : Half) (px : List Pixel) (k : Nat),
    s.spi = .idle → s.ctrl = .ready → k < 2 * px.length → s.failsAt 0 k →
      exec (.writePixelStream a b c2 d px) s = .next { s with
        csN := true
        dc := true
        latches := { opc := 3, opa := a, opb := b, opc2 := c2, opd := d }
        tr := s.tr ++ ([.pin .csN false, .pin .dc true] ++
          (px.flatMap fun p => [.byte true (hi8 p), .byte true (lo8 p)]).take k ++ [.xferFail, .pin .csN true])
        spiDrawn := s.spiDrawn + 1
        completions := s.completions ++ [.displayIoError] }

/-- CLEAR in Ready (R216): the full-screen window, then data frames of `CLEAR_CHUNK_PIXELS` pixels of the colour,
the last one what is left, in all exactly NROWS × NCOLS pixels. -/
def Obligations.ClearCompletes : Prop :=
  ∀ (s : State) (color : Pixel) (b c2 d : Half) (nr nc : Nat),
    s.spi = .idle → s.ctrl = .ready → s.cfg.wf = true → s.dims? = some (nr, nc) →
      let chunk := s.cfg.clearChunk
      let counts := List.replicate (nr * nc / chunk) chunk ++ (if nr * nc % chunk = 0 then [] else [nr * nc % chunk])
      s.answersOk (5 + counts.length) →
      exec (.clear color b c2 d) s = .next { s with
        csN := true
        dc := true
        latches := { opc := 4, opa := color, opb := b, opc2 := c2, opd := d }
        tr := s.tr ++ (commandFrame s.cfg.opc.raset (be16 0 ++ be16 (BitVec.ofNat 16 (nr - 1))) ++
          commandFrame s.cfg.opc.caset (be16 0 ++ be16 (BitVec.ofNat 16 (nc - 1))) ++
          commandFrame s.cfg.opc.ramwr [] ++
          counts.flatMap fun k => dataFrame (pixelBytes (List.replicate k color)))
        spiDrawn := s.spiDrawn + (5 + counts.length)
        completions := s.completions ++ [.ok] } ∧
      counts.sum = nr * nc ∧ ∀ k ∈ counts, 1 ≤ k ∧ k ≤ chunk

/-- A full-screen CLEAR that is cut by a failure in its data frames (R216, R262): the frames before it whole, the
failed one cut after k bytes and released, none after it; `DisplayIoError`. -/
def Obligations.ClearFailureInAFrame : Prop :=
  ∀ (s : State) (color : Pixel) (b c2 d : Half) (nr nc j k : Nat),
    s.spi = .idle → s.ctrl = .ready → s.cfg.wf = true → s.dims? = some (nr, nc) → s.failsAt (5 + j) k →
      (j + 1) * s.cfg.clearChunk ≤ nr * nc → k < 2 * s.cfg.clearChunk →
      ∃ t, exec (.clear color b c2 d) s = .next t ∧
        t.tr = s.tr ++ (commandFrames s.cfg (windowTable 0 (BitVec.ofNat 16 (nr - 1)) 0 (BitVec.ofNat 16 (nc - 1))) ++
          (List.replicate j (dataFrame (pixelBytes (List.replicate s.cfg.clearChunk color)))).flatten ++
          dataFailedFrame (pixelBytes (List.replicate s.cfg.clearChunk color)) k) ∧
        t.completions = s.completions ++ [.displayIoError] ∧ t.spiDrawn = s.spiDrawn + (5 + j) + 1 ∧ t.ctrl = .ready

/-! ## The host-side pseudo-operations -/

/-- PLOT (R117): the window of one pixel, then that pixel; the latches end as WRITE_PIXEL_STREAM left them, its
unused fields zero (log 12). -/
def Obligations.PlotCompletes : Prop :=
  ∀ (s : State) (r c : Half) (p : Pixel) (nr nc : Nat),
    s.spi = .idle → s.ctrl = .ready → s.dims? = some (nr, nc) → r.toNat < nr → c.toNat < nc → s.answersOk 6 →
      exec (.plot r c p) s = .next { s with
        csN := true
        dc := true
        latches := { opc := 3, opa := 0, opb := 0, opc2 := 0, opd := 0 }
        tr := s.tr ++ (commandFrame s.cfg.opc.raset [hi8 r, lo8 r, hi8 r, lo8 r] ++
          commandFrame s.cfg.opc.caset [hi8 c, lo8 c, hi8 c, lo8 c] ++ commandFrame s.cfg.opc.ramwr [] ++
          dataFrame [hi8 p, lo8 p])
        spiDrawn := s.spiDrawn + 6
        completions := s.completions ++ [.ok] }

/-- DRAW_CIRCLE inside the panel, or across its edge where the renderer clips (R242, R243; N14, log 24), whatever the
renderer's choice: it completes with `Ok`; of the panel's addresses those within R - W hold the fill colour, those in
the band up to R the stroke colour, and every other address is as before; every window it opened closed exactly
filled (R250), so no content became undefined, and what could be concluded before (R83) still can. The clipping is the
model's choice (log 24), the one completion value too (log 4). The renderer clips to the orientation the host knows, which
the invariant `hostKnows` makes the block's (log 38; every step keeps it). -/
def Obligations.DrawCircleDrawsItsPixels : Prop :=
  ∀ (s : State) (row col radius : Nat) (stroke : Pixel) (width : Nat) (fill : Pixel) (nr nc : Nat),
    s.spi = .idle → s.ctrl = .ready → s.hostKnows → s.cfg.wf = true → s.dims? = some (nr, nc) → s.rxReady →
      let choice := s.renderChoiceAt s.renderDrawn
      (radius ≤ row ∧ row + radius < nr ∧ radius ≤ col ∧ col + radius < nc) ∨ choice.clips = true →
      s.answersOk (6 * (circleJobs row col radius stroke width fill choice (some (nr, nc))).length) →
      ∃ t, exec (.drawCircle row col radius stroke width fill) s = .next t ∧
        t.completions = s.completions ++ [.ok] ∧ t.rx.close.undef = s.rx.close.undef ∧
        (s.displayDefined = true → t.displayDefined = true) ∧
        (∃ entries, t.rx.close.verdicts = s.rx.close.verdicts ++ entries ∧ ∀ e ∈ entries, e.verdict = .exact) ∧
        (∀ r c : Nat, r < nr → c < nc → t.stored r c =
          if width ≤ radius ∧ ((r : Int) - row) ^ 2 + ((c : Int) - col) ^ 2 ≤ ((radius : Int) - width) ^ 2 then some fill
          else if ((r : Int) - row) ^ 2 + ((c : Int) - col) ^ 2 ≤ (radius : Int) ^ 2 then some stroke
          else s.stored r c) ∧
        ∀ r c : Nat, nr ≤ r ∨ nc ≤ c → t.stored r c = s.stored r c

/-- DRAW_TEXT whose foreground pixels all lie in the panel, or any text where the renderer clips (R246, R248, R249;
N14, log 24), whatever the renderer's choice: it completes with `Ok`; exactly the foreground pixels in the panel have
the colour, every other address is as before (no background fill), and what could be concluded before (R83) still can.
The cells of characters without a glyph, the first line's height and an odd line's rounding are the renderer's free
choice (log 21, 22), the Ending column the model's reading (log 20). On `hostKnows` see `DrawCircleDrawsItsPixels`. -/
def Obligations.DrawTextDrawsItsPixels : Prop :=
  ∀ (s : State) (text : List Char) (row col : Nat) (align : Sys2Proof.Alignment) (color : Pixel) (nr nc : Nat),
    s.spi = .idle → s.ctrl = .ready → s.hostKnows → s.cfg.wf = true → s.dims? = some (nr, nc) → s.rxReady →
      let choice := s.renderChoiceAt s.renderDrawn
      let points := (textCells s.cfg choice text row col align).flatten
      (∀ rc ∈ points, 0 ≤ rc.1 ∧ rc.1 < nr ∧ 0 ≤ rc.2 ∧ rc.2 < nc) ∨ choice.clips = true →
      s.answersOk (6 * points.length) →
      ∃ t, exec (.drawText text row col align color) s = .next t ∧
        t.completions = s.completions ++ [.ok] ∧ t.rx.close.undef = s.rx.close.undef ∧
        (s.displayDefined = true → t.displayDefined = true) ∧
        ∀ r c : Nat, t.stored r c =
          if ((r : Int), (c : Int)) ∈ points ∧ r < nr ∧ c < nc then some color else s.stored r c

/-- Two lines of a text (R247, R248), each aligned on the anchor's column by its own length: a line of n characters
begins at that column (Start), half its width before it (Center, even widths: an odd half rounds freely), or so that
it ends there (End, the last column being the anchor's: log 20); the second line stands exactly one line height below
the first. The first line's height relative to the anchor's row is the renderer's (`choice.top`, log 21). -/
def Obligations.TextLinesAreAlignedEach : Prop :=
  ∀ (p : Params) (choice : RenderChoice) (first second : List Char) (row col : Nat) (align : Sys2Proof.Alignment),
    '\n' ∉ first → '\n' ∉ second →
    (align = .center → first.length * p.glyphW % 2 = 0 ∧ second.length * p.glyphW % 2 = 0) →
      let begins : Nat → Int := fun n =>
        match align with
        | .start => col
        | .center => (col : Int) - (n * p.glyphW / 2 : Nat)
        | .ending => (col : Int) - (n * p.glyphW : Nat) + 1
      let line : List Char → Int → List (List (Int × Int)) := fun chars top => chars.zipIdx.map fun cj =>
        (glyphBits p.glyphW p.glyphH (glyphMask p choice cj.1)).map fun b =>
          (top + b.1, begins chars.length + cj.2 * p.glyphW + b.2)
      textCells p choice (first ++ '\n' :: second) row col align =
        line first ((row : Int) + choice.top) ++ line second ((row : Int) + choice.top + p.lineHeight)

/-- A text without a foreground pixel issues no block operation (R249 (a), (b)): it completes in every STATE with
nothing on the wire. -/
def Obligations.EmptyTextIssuesNothing : Prop :=
  ∀ (s : State) (text : List Char) (row col : Nat) (align : Sys2Proof.Alignment) (color : Pixel),
    s.spi = .idle → (textCells s.cfg (s.renderChoiceAt s.renderDrawn) text row col align).flatten = [] →
      exec (.drawText text row col align color) s =
        .next { s with renderDrawn := s.renderDrawn + 1, completions := s.completions ++ [.ok] }

/-- Drawing across the panel's edge is refused by the block (R244 (e), R249 (d)) unless the renderer clips, which is
its free choice (N14, log 24): PLOT off the panel always, since it is its window and its stream (R117); a circle or a
text that is not clipped at its first run off the panel, the transfers of the runs before it being `ok`. -/
def Obligations.OffPanelDrawingIsRefused : Prop :=
  ∀ (s : State) (nr nc : Nat), s.spi = .idle → s.ctrl = .ready → s.dims? = some (nr, nc) →
    (∀ (r c : Half) (p : Pixel), nr ≤ r.toNat ∨ nc ≤ c.toNat → exec (.plot r c p) s = .refused .windowOutOfBounds) ∧
    ((s.renderChoiceAt s.renderDrawn).clips = false →
      (∀ (row col radius : Nat) (stroke : Pixel) (width : Nat) (fill : Pixel),
        row < radius ∨ nr ≤ row + radius ∨ col < radius ∨ nc ≤ col + radius →
        s.answersOk (6 * (circlePlan row col radius (s.renderChoiceAt s.renderDrawn)).length) →
          exec (.drawCircle row col radius stroke width fill) s = .refused .windowOutOfBounds) ∧
      (∀ (text : List Char) (row col : Nat) (align : Sys2Proof.Alignment) (color : Pixel),
        let points := (textCells s.cfg (s.renderChoiceAt s.renderDrawn) text row col align).flatten
        (∃ rc ∈ points, rc.1 < 0 ∨ nr ≤ rc.1 ∨ rc.2 < 0 ∨ nc ≤ rc.2) → s.answersOk (6 * points.length) →
          exec (.drawText text row col align color) s = .refused .windowOutOfBounds))

/-! ## How operations end -/

/-- The outcome of an operation that takes a next state (R14, R260, R261, R263, R264): it was stuck, with no
completion value; or it hands back exactly one, `Ok` if none of its transfers failed and its own error if one did. No
operation of the host hands back `BusError`, INIT only `DisplayInitError`, the Ready operations only
`DisplayIoError`. That a stalled operation has a next state is the model's reading (log 5), that a pseudo-operation
hands back exactly one value its choice (log 4). -/
def Obligations.OneCompletionValueByContext : Prop :=
  ∀ (s t : State) (i : Instr), exec i s = .next t →
    ∃ events, t.tr = s.tr ++ events ∧
      ((t.spi = .stalled ∧ t.csN = false ∧ t.completions = s.completions ∧ Event.xferFail ∉ events) ∨
        (t.spi = .idle ∧ t.completions = s.completions ++ [.ok] ∧ Event.xferFail ∉ events) ∨
        (t.spi = .idle ∧ t.completions = s.completions ++ [opError i] ∧ Event.xferFail ∈ events))

/-- Abort at the first failure (R262): in what an operation appends to the trace a failed transfer comes at most
once, the only event after it is `Pin(CS_N, 1)`, and the operation raises one error. -/
def Obligations.AbortAtFirstFailure : Prop :=
  ∀ (s t : State) (i : Instr) (before after : List Event),
    exec i s = .next t → t.tr = s.tr ++ before ++ .xferFail :: after →
      Event.xferFail ∉ before ∧ after = [.pin .csN true] ∧ t.completions = s.completions ++ [opError i]

/-- After an error of a Ready operation (R218): still Ready, ORIENT unchanged, chip-select released, and every
operation admitted as before: no error is sticky (R268). -/
def Obligations.IoErrorLeavesTheBlockReady : Prop :=
  ∀ (s t : State) (i : Instr), opLayer i = .host ∨ opLayer i = .pseudo → s.ctrl = .ready → exec i s = .next t →
    t.completions = s.completions ++ [.displayIoError] →
      t.ctrl = .ready ∧ t.orient = s.orient ∧ t.initStep = s.initStep ∧ t.csN = true ∧ t.spi = .idle ∧ t.cfg = s.cfg

/-- What an operation puts on the wire and hands back depends on STATE, ORIENT, the configuration and the answers of
its own transfers (and for a drawing request the renderer's choice and the orientation the host knows), and on nothing
else: no earlier window, no earlier error, no level of a line (R34, R39, R268). A drawing request does not depend on STATE
and ORIENT either, but through what the block admits: from two states that let it run it puts the same on the wire,
though these registers differ ("no other component observes or mutates it", R275 (c)). -/
def Obligations.OutcomeDependsOnNoEarlierOperation : Prop :=
  ∀ (s s' t : State) (i : Instr),
    s'.hostOrient = s.hostOrient → s'.cfg = s.cfg → s'.spi = s.spi →
      (∀ k, s'.answerAt (s'.spiDrawn + k) = s.answerAt (s.spiDrawn + k)) →
      s'.renderChoiceAt s'.renderDrawn = s.renderChoiceAt s.renderDrawn →
      exec i s = .next t →
      (s'.ctrl = s.ctrl → s'.orient = s.orient →
        ∃ t' events values, exec i s' = .next t' ∧ t.tr = s.tr ++ events ∧ t'.tr = s'.tr ++ events ∧
          t.completions = s.completions ++ values ∧ t'.completions = s'.completions ++ values ∧
          t'.ctrl = t.ctrl ∧ t'.orient = t.orient ∧ t'.hostOrient = t.hostOrient ∧ t'.spi = t.spi) ∧
      ∀ t', isDraw i = true → exec i s' = .next t' →
        ∃ events values, t.tr = s.tr ++ events ∧ t'.tr = s'.tr ++ events ∧
          t.completions = s.completions ++ values ∧ t'.completions = s'.completions ++ values

/-! ## Frames -/

/-- The layer-W and layer-T operations change the lines CS_N and DC, the trace, the SPI master's transfer, the count
of its answers and the completion values, and nothing else (R140, R141, R143). -/
def Obligations.TransportFrame : Prop :=
  ∀ (s t : State) (i : Instr), opLayer i = .wire ∨ opLayer i = .transport → exec i s = .next t →
    t = { s with csN := t.csN, dc := t.dc, tr := t.tr, spi := t.spi, spiDrawn := t.spiDrawn, completions := t.completions }

/-- SET_ADDRESS_WINDOW, WRITE_PIXEL_STREAM and CLEAR change, beside those, the operand latches alone (R26, R211,
R214, R216: "State written: CS_N, DC, TR only; no block register keeps the bounds"). -/
def Obligations.WindowAndStreamFrame : Prop :=
  ∀ (s t : State) (i : Instr),
    (∃ r0 r1 c0 c1, i = .setAddressWindow r0 r1 c0 c1) ∨ (∃ a b c2 d px, i = .writePixelStream a b c2 d px) ∨
      (∃ color b c2 d, i = .clear color b c2 d) →
    exec i s = .next t →
    t = { s with
      csN := t.csN, dc := t.dc, tr := t.tr, spi := t.spi, spiDrawn := t.spiDrawn, completions := t.completions
      latches := t.latches }

/-- SET_ORIENTATION changes ORIENT beside those and what the host knows of it (log 38), INIT also STATE and INIT_STEP,
and leaves RST_N high (R192, R196);
a drawing request changes what its block operations change and the count of the renderer's choices (R240). -/
def Obligations.SequencerAndRendererFrame : Prop :=
  (∀ (s t : State) (o b c2 d : Half), exec (.setOrientation o b c2 d) s = .next t →
    t = { s with
      csN := t.csN, dc := t.dc, tr := t.tr, spi := t.spi, spiDrawn := t.spiDrawn, completions := t.completions
      latches := { opc := 1, opa := o, opb := b, opc2 := c2, opd := d }, orient := t.orient
      hostOrient := t.hostOrient }) ∧
  (∀ (s t : State) (o b c2 d : Half), exec (.init o b c2 d) s = .next t →
    t = { s with
      csN := t.csN, dc := t.dc, tr := t.tr, spi := t.spi, spiDrawn := t.spiDrawn, completions := t.completions
      latches := { opc := 0, opa := o, opb := b, opc2 := c2, opd := d }, orient := t.orient, ctrl := t.ctrl
      initStep := t.initStep, rstN := true, hostOrient := t.hostOrient }) ∧
  (∀ (s t : State) (i : Instr), opLayer i = .pseudo → exec i s = .next t →
    t = { s with
      csN := t.csN, dc := t.dc, tr := t.tr, spi := t.spi, spiDrawn := t.spiDrawn, completions := t.completions
      latches := t.latches, renderDrawn := t.renderDrawn })

/-- Operations that send no pixel data store no pixel, whatever the answers: every pixel address reads as before.
They are the seven commands, SEND_COMMAND, INIT, SET_ORIENTATION and SET_ADDRESS_WINDOW (R79: only data bytes after a
memory-write store). -/
def Obligations.CommandsStoreNoPixel : Prop :=
  ∀ (s t : State) (i : Instr),
    opLayer i = .wire ∨ (∃ opcode args, i = .sendCommand opcode args) ∨ (∃ o b c2 d, i = .init o b c2 d) ∨
      (∃ o b c2 d, i = .setOrientation o b c2 d) ∨ (∃ r0 r1 c0 c1, i = .setAddressWindow r0 r1 c0 c1) →
    s.cfg.opc.distinct = true → exec i s = .next t → t.rx.px = s.rx.px ∧ ∀ r c, t.stored r c = s.stored r c

/-- A pixel stream stores nowhere but at the addresses the controller's counter runs through from where it stands
(R79, R221), whatever the answers and whatever the stream's length: every other address reads as before. For
SEND_PIXELS a pending half pixel adds at most the pixel it completes, so n bytes and it make at most (n + 1) / 2. -/
def Obligations.StreamStoresAtTheCounter : Prop :=
  (∀ (s t : State) (a b c2 d : Half) (px : List Pixel), exec (.writePixelStream a b c2 d px) s = .next t →
    ∀ r c, (r, c) ∉ s.rx.nextAddrs px.length → t.stored r c = s.stored r c) ∧
  (∀ (s t : State) (bytes : List Byte), exec (.sendPixels bytes) s = .next t →
    ∀ r c, (r, c) ∉ s.rx.nextAddrs ((bytes.length + 1) / 2) → t.stored r c = s.stored r c)

/-- CLEAR stores only on the screen, PLOT only at its own address, a circle only at pixels within its radius and a
text only at its foreground pixels, whatever the answers (R216, R242 "pixels with distance > R are untouched", R246
"unset bits are not written"). -/
def Obligations.DrawingStoresOnlyItsPixels : Prop :=
  (∀ (s t : State) (color : Pixel) (b c2 d : Half) (nr nc : Nat), s.cfg.wf = true → s.dims? = some (nr, nc) →
    exec (.clear color b c2 d) s = .next t → ∀ r c, nr ≤ r ∨ nc ≤ c → t.stored r c = s.stored r c) ∧
  (∀ (s t : State) (r0 c0 : Half) (p : Pixel), s.cfg.opc.distinct = true → exec (.plot r0 c0 p) s = .next t →
    ∀ r c, (r, c) ≠ (r0.toNat, c0.toNat) → t.stored r c = s.stored r c) ∧
  (∀ (s t : State) (row col radius : Nat) (stroke : Pixel) (width : Nat) (fill : Pixel), s.cfg.opc.distinct = true →
    exec (.drawCircle row col radius stroke width fill) s = .next t →
    ∀ r c : Nat, (radius : Int) ^ 2 < ((r : Int) - row) ^ 2 + ((c : Int) - col) ^ 2 → t.stored r c = s.stored r c) ∧
  (∀ (s t : State) (text : List Char) (row col : Nat) (align : Sys2Proof.Alignment) (color : Pixel), s.cfg.opc.distinct = true →
    exec (.drawText text row col align color) s = .next t →
    ∀ r c : Nat, ((r : Int), (c : Int)) ∉ (textCells s.cfg (s.renderChoiceAt s.renderDrawn) text row col align).flatten →
      t.stored r c = s.stored r c)

/-- No operation writes the configuration, the two queues of requests or the model's inputs, takes an answer back, or removes
or reorders events of the trace (R31, R36). -/
def Obligations.InputsAndHistoryAreKept : Prop :=
  ∀ (s t : State) (i : Instr), exec i s = .next t →
    t.cfg = s.cfg ∧ t.port = s.port ∧ t.bench = s.bench ∧ t.spiScript = s.spiScript ∧ t.renderScript = s.renderScript ∧
      s.spiDrawn ≤ t.spiDrawn ∧ s.renderDrawn ≤ t.renderDrawn ∧ s.tr <+: t.tr ∧ s.completions <+: t.completions

/-! ## The whole machine -/

/-- The invariants of the block between operations (R22, R24, R38, R40, R146), and that the host knows the orientation in
Ready from the values handed back to it (log 38): every step keeps them. -/
def Obligations.StepKeepsInvariant : Prop := ∀ s t : State, s.Inv → step s = .next t → t.Inv

/-- The discipline of the wire (R149, R170, R262): every step keeps it. -/
def Obligations.StepKeepsWireDiscipline : Prop :=
  ∀ s t : State, s.cfg.opc.distinct = true → (s.spi = .idle → s.csN = true) → s.WireOk → step s = .next t → t.WireOk

/-- The pixel memory is in its canonical form in every state, and a stored pixel reads back alone (R79, R83). The form,
keys strictly rising with key row * 65536 + column, is the model's choice (log 18). -/
def Obligations.PixelMemoryIsCanonical : Prop :=
  (∀ s : State, s.memory.wf = true) ∧
    ∀ (m : PixelMemory) (r c r' c' : Nat) (p : Pixel), c < 65536 → c' < 65536 → m.wf = true →
      (m.write r c p).wf = true ∧ (m.write r c p).read r c = some p ∧
        ((r', c') ≠ (r, c) → (m.write r c p).read r' c' = m.read r' c')

/-- The edges of the state machine (R21, R23, R195), seen between operations: STATE changes only from Unpowered, by
INIT, to Ready or (stuck or failed) Initializing; from Initializing and Ready nothing leads anywhere else. -/
def Obligations.StateMachineEdges : Prop :=
  ∀ (s t : State) (i : Instr), exec i s = .next t →
    t.ctrl = s.ctrl ∨
      (s.ctrl = .unpowered ∧ (∃ o b c2 d, i = .init o b c2 d) ∧
        (t.ctrl = .ready ∧ t.completions = s.completions ++ [.ok] ∨
          t.ctrl = .initializing ∧ t.completions ≠ s.completions ++ [.ok]))

/-- A window filled exactly (R87): SET_ADDRESS_WINDOW and then pixel streams, cut in any way, that carry in total as
many pixels as the window's area store pixel i at (r0 + i div w, c0 + i mod w), in that order, and the window closes
with verdict `exact`; nothing becomes undefined. -/
def Obligations.WindowFilledExactly : Prop :=
  ∀ (s : State) (r0 r1 c0 c1 : Half) (chunks : List (List Pixel)) (nr nc : Nat),
    s.spi = .idle → s.ctrl = .ready → s.cfg.opc.distinct = true → s.dims? = some (nr, nc) →
      boundsOk nr nc r0 r1 c0 c1 = true → s.rxReady →
      chunks.flatten.length = windowArea r0.toNat r1.toNat c0.toNat c1.toNat →
      s.answersOk (5 + (chunks.filter fun px => !px.isEmpty).length) →
      ∃ t, execAll (.setAddressWindow r0 r1 c0 c1 :: chunks.map (.writePixelStream 0 0 0 0)) s = .next t ∧
        t.rx.close.px = s.rx.px ++ rowMajor r0.toNat c0.toNat (c1.toNat - c0.toNat + 1) chunks.flatten ∧
        t.rx.close.verdicts = s.rx.close.verdicts ++
          [{ row := .bounds r0 r1, col := .bounds c0 c1
             cnt := windowArea r0.toNat r1.toNat c0.toNat c1.toNat, verdict := .exact }] ∧
        t.rx.close.undef = s.rx.close.undef

/-- CLEAR stores every pixel of the screen exactly once, in row-major order from (0, 0), each the colour, whatever
the chunk (R88); every address of the screen then holds it, and it is the display's content if the trace lets
content be concluded (R83): CLEAR ends what a change of orientation left open (R318). What counts as cleared is the
model's choice (log 36). The premise `rxReady` is no word of R88, which speaks of the host's operations: a complete
INIT gives it (`InitReadiesTheController`), and only a PIXSET sent at the Bus Transport's boundary can take it away. -/
def Obligations.ClearStoresEveryPixelOnce : Prop :=
  ∀ (s : State) (color : Pixel) (b c2 d : Half) (nr nc : Nat),
    s.spi = .idle → s.ctrl = .ready → s.cfg.wf = true → s.dims? = some (nr, nc) → s.rxReady →
      s.answersOk (5 + nr * nc) →
      ∃ t, exec (.clear color b c2 d) s = .next t ∧
        t.rx.px = s.rx.px ++ rowMajor 0 0 nc (List.replicate (nr * nc) color) ∧
        (∀ r c, r < nr → c < nc → t.stored r c = some color) ∧ t.rx.close.undef = s.rx.close.undef ∧
        (s.traceDefined = true → ∀ r c, r < nr → c < nc → t.pixel r c = some color)

/-- A window given too few pixels is no error of the block (R213 (d), R264 (a)): the next SET_ADDRESS_WINDOW
completes with `Ok`, the short window closes with verdict `short`, and its content is undefined (R80). -/
def Obligations.ShortWindowIsResynchronised : Prop :=
  ∀ (s : State) (r0 r1 c0 c1 r0' r1' c0' c1' : Half) (px : List Pixel) (nr nc : Nat),
    s.spi = .idle → s.ctrl = .ready → s.cfg.opc.distinct = true → s.dims? = some (nr, nc) →
      boundsOk nr nc r0 r1 c0 c1 = true → boundsOk nr nc r0' r1' c0' c1' = true → s.rxReady →
      px.length < windowArea r0.toNat r1.toNat c0.toNat c1.toNat → s.answersOk 11 →
      ∃ t, execAll [.setAddressWindow r0 r1 c0 c1, .writePixelStream 0 0 0 0 px, .setAddressWindow r0' r1' c0' c1'] s =
          .next t ∧
        t.completions = s.completions ++ [.ok, .ok, .ok] ∧
        t.rx.verdicts = s.rx.close.verdicts ++
          [{ row := .bounds r0 r1, col := .bounds c0 c1, cnt := px.length, verdict := .short }] ∧
        t.rx.undef = true ∧ t.rx.cur = .pos r0'.toNat c0'.toNat

/-- What the layer-W commands do at the controller (R161 to R167, by the receiver model of R74 to R77): SLPOUT wakes
it, DISPON switches it on, PIXSET and MADCTL set its format and orientation byte, RASET and CASET load the window
register of their own axis and leave the other, RAMWR sends the address counter to the window's first pixel; every
one of them ends a window that was open (R74), and none stores a pixel. -/
def Obligations.CommandsActOnTheController : Prop :=
  ∀ s : State, s.spi = .idle → s.cfg.opc.distinct = true → s.rx.boot = .open → s.answersOk 2 →
    (∃ t, exec .slpout s = .next t ∧ t.rx.awake = true ∧ t.rx.cur = .closed ∧ t.rx.px = s.rx.px) ∧
    (∃ t, exec .dispon s = .next t ∧ t.rx.on = true ∧ t.rx.cur = .closed ∧ t.rx.px = s.rx.px) ∧
    (∃ t, exec .pixset s = .next t ∧ t.rx.fmt = some s.cfg.pixfmtArg ∧ t.rx.cur = .closed ∧ t.rx.px = s.rx.px) ∧
    (∀ (o : Half) (row : OrientRow), s.cfg.orientSet[o.toNat]? = some row →
      ∃ t, exec (.madctl o) s = .next t ∧ t.rx.madctl = .byte row.madctl ∧ t.rx.cur = .closed ∧ t.rx.px = s.rx.px) ∧
    (∀ r0 r1 : Half, ∃ t, exec (.raset r0 r1) s = .next t ∧ t.rx.row = .bounds r0 r1 ∧ t.rx.col = s.rx.col ∧
      t.rx.cur = .closed ∧ t.rx.px = s.rx.px) ∧
    (∀ c0 c1 : Half, ∃ t, exec (.caset c0 c1) s = .next t ∧ t.rx.col = .bounds c0 c1 ∧ t.rx.row = s.rx.row ∧
      t.rx.cur = .closed ∧ t.rx.px = s.rx.px) ∧
    (∀ r0 r1 c0 c1 : Half, s.rx.row = .bounds r0 r1 → s.rx.col = .bounds c0 c1 →
      ∃ t, exec .ramwr s = .next t ∧ t.rx.cur = .pos r0.toNat c0.toNat ∧ t.rx.cnt = 0 ∧ t.rx.px = s.rx.px)

/-- A complete INIT readies the controller, whatever the trace before it (R73, R74, R76, R161 to R164): reset, awake,
on, the 16-bit format and the orientation's byte set, no window, the stores of before kept. So it meets the premise
`rxReady` of the statements about pixels. -/
def Obligations.InitReadiesTheController : Prop :=
  ∀ (s : State) (o b c2 d : Half) (row : OrientRow),
    s.spi = .idle → s.ctrl = .unpowered → s.cfg.opc.distinct = true → s.cfg.orientSet[o.toNat]? = some row →
      s.answersOk 6 →
      ∃ t, exec (.init o b c2 d) s = .next t ∧ t.rxReady ∧ t.rx.awake = true ∧ t.rx.on = true ∧
        t.rx.madctl = .byte row.madctl ∧ t.rx.row = .unset ∧ t.rx.col = .unset ∧ t.rx.cur = .closed ∧ t.rx.px = s.rx.px

/-- What may be concluded about the display (R83). If no transfer has stalled or failed, the trace starts with a complete
INIT, nothing is undefined at its end, and no memory-access-control command came after stores that have not all been
drawn over since, the content of every pixel address is the pixel of the last store there, and none where nothing was
stored. In a stalled state (R200, log 5), after a failed transfer and once something is undefined there is no content,
and none at a place outside DIMS(ORIENT) (R61). A change of orientation leaves no content on a glass that was drawn on,
however it ends (R197 (e), R318; what counts as cleared is the model's choice, log 36). -/
def Obligations.ContentIsConcludedOnlyWhenDefined : Prop :=
  (∀ (s : State) (nr nc : Nat), s.dims? = some (nr, nc) → s.spi = .idle → Event.xferFail ∉ s.tr →
    (∃ row ∈ s.cfg.orientSet, resetFrame s.cfg ++ commandFrames s.cfg (s.cfg.initTable row.madctl) <+: s.tr) →
    s.rx.close.undef = false →
    (s.rx.beforeOrient = 0 ∨
      ∀ r c, r < nr → c < nc → ∃ e ∈ s.rx.px.drop s.rx.beforeOrient, e.r = r ∧ e.c = c) →
    ∀ r c, r < nr → c < nc →
      s.pixel r c = (s.rx.px.reverse.find? fun e => e.r == r && e.c == c).map PixelStore.p) ∧
  (∀ s : State, s.spi = .stalled ∨ Event.xferFail ∈ s.tr ∨ s.rx.close.undef = true → ∀ r c, s.pixel r c = none) ∧
  (∀ (s : State) (nr nc : Nat), s.dims? = some (nr, nc) → ∀ r c, nr ≤ r ∨ nc ≤ c → s.pixel r c = none) ∧
  (∀ (s t : State) (i : Instr), (∃ o b c2 d, i = .setOrientation o b c2 d) ∨ (∃ o, i = .madctl o) →
    s.cfg.opc.distinct = true → s.rx.boot = .open → s.rx.px ≠ [] → exec i s = .next t → ∀ r c, t.pixel r c = none)

/-- INIT and then CLEAR from power-on, every transfer `ok` (R83, R88, R192): the display's content is defined, and it
is the colour at every address of the screen. -/
def Obligations.InitThenClearShowsTheColour : Prop :=
  ∀ (s : State) (o : Half) (color : Pixel) (nr nc : Nat),
    s.spi = .idle → s.ctrl = .unpowered → s.tr = [] → s.cfg.wf = true → s.cfg.dims? o = some (nr, nc) →
      s.answersOk (6 + (5 + nr * nc)) →
      ∃ t, execAll [.init o 0 0 0, .clear color 0 0 0] s = .next t ∧ t.completions = s.completions ++ [.ok, .ok] ∧
        ∀ r c, r < nr → c < nc → t.pixel r c = some color
end

