-- ==== Sys2Proof/Laws/Decode.lean ====
section
/-! SUPPORT. The fields of a descriptor, the bytes of a halfword and the command of an opcode byte: each definition's
small lemmas, so that no later proof unfolds an encoding. -/

namespace Sys2Proof

/-! ### Descriptor fields (R110) -/

@[simp] theorem descriptorOp_word (op : BitVec 4) (a b c d : Half) : descriptorOp (descriptorWord op a b c d) = op := by
  apply BitVec.eq_of_getLsbD_eq; intro i hi
  simp only [descriptorOp, descriptorWord, BitVec.getLsbD_extractLsb', BitVec.getLsbD_append, hi, decide_true, Bool.true_and]
  rw [if_neg (by omega), if_neg (by omega), if_neg (by omega), if_neg (by omega)]
  congr 1; omega

@[simp] theorem descriptorA_word (op : BitVec 4) (a b c d : Half) : descriptorA (descriptorWord op a b c d) = a := by
  apply BitVec.eq_of_getLsbD_eq; intro i hi
  simp only [descriptorA, descriptorWord, BitVec.getLsbD_extractLsb', BitVec.getLsbD_append, hi, decide_true, Bool.true_and]
  rw [if_neg (by omega), if_neg (by omega), if_neg (by omega), if_pos (by omega)]
  congr 1; omega

@[simp] theorem descriptorB_word (op : BitVec 4) (a b c d : Half) : descriptorB (descriptorWord op a b c d) = b := by
  apply BitVec.eq_of_getLsbD_eq; intro i hi
  simp only [descriptorB, descriptorWord, BitVec.getLsbD_extractLsb', BitVec.getLsbD_append, hi, decide_true, Bool.true_and]
  rw [if_neg (by omega), if_neg (by omega), if_pos (by omega)]
  congr 1; omega

@[simp] theorem descriptorC_word (op : BitVec 4) (a b c d : Half) : descriptorC (descriptorWord op a b c d) = c := by
  apply BitVec.eq_of_getLsbD_eq; intro i hi
  simp only [descriptorC, descriptorWord, BitVec.getLsbD_extractLsb', BitVec.getLsbD_append, hi, decide_true, Bool.true_and]
  rw [if_neg (by omega), if_pos (by omega)]
  congr 1; omega

@[simp] theorem descriptorD_word (op : BitVec 4) (a b c d : Half) : descriptorD (descriptorWord op a b c d) = d := by
  apply BitVec.eq_of_getLsbD_eq; intro i hi
  simp only [descriptorD, descriptorWord, BitVec.getLsbD_extractLsb', BitVec.getLsbD_append, hi, decide_true, Bool.true_and]
  rw [if_pos (by omega)]
  congr 1; omega

/-- A descriptor is its five fields. -/
theorem descriptorWord_fields (w : BitVec 68) :
    descriptorWord (descriptorOp w) (descriptorA w) (descriptorB w) (descriptorC w) (descriptorD w) = w := by
  apply BitVec.eq_of_getLsbD_eq; intro i hi
  simp only [descriptorOp, descriptorA, descriptorB, descriptorC, descriptorD, descriptorWord,
    BitVec.getLsbD_extractLsb', BitVec.getLsbD_append]
  by_cases h0 : i < 16
  · simp [h0]
  · by_cases h1 : i < 32
    · simp [h0, show i - 16 < 16 by omega, show 16 + (i - 16) = i by omega]
    · by_cases h2 : i < 48
      · simp [h0, show ¬ i - 16 < 16 by omega, show i - 16 - 16 < 16 by omega, show 32 + (i - 16 - 16) = i by omega]
      · by_cases h3 : i < 64
        · simp [h0, show ¬ i - 16 < 16 by omega, show ¬ i - 16 - 16 < 16 by omega,
            show i - 16 - 16 - 16 < 16 by omega, show 48 + (i - 16 - 16 - 16) = i by omega]
        · simp [h0, show ¬ i - 16 < 16 by omega, show ¬ i - 16 - 16 < 16 by omega,
            show ¬ i - 16 - 16 - 16 < 16 by omega, show i - 16 - 16 - 16 - 16 < 4 by omega,
            show 64 + (i - 16 - 16 - 16 - 16) = i by omega]

/-! ### Bytes of a halfword (R11, R118) -/

@[simp] theorem ofBytes_hi8_lo8 (v : Half) : ofBytes (hi8 v) (lo8 v) = v := by
  apply BitVec.eq_of_getLsbD_eq; intro i hi
  simp only [ofBytes, hi8, lo8, BitVec.getLsbD_append, BitVec.getLsbD_extractLsb']
  by_cases h : i < 8
  · simp [h]
  · simp [h, show i - 8 < 8 by omega, show 8 + (i - 8) = i by omega]

theorem be16_eq (v : Half) : be16 v = [hi8 v, lo8 v] := rfl

theorem boundArgs_eq (v0 v1 : Half) : boundArgs v0 v1 = [hi8 v0, lo8 v0, hi8 v1, lo8 v1] := rfl

@[simp] theorem boundArgs_length (v0 v1 : Half) : (boundArgs v0 v1).length = 4 := rfl

@[simp] theorem boundArgs_ne_nil (v0 v1 : Half) : boundArgs v0 v1 ≠ [] := by simp [boundArgs_eq]

/-- Two bytes a pixel (R64). -/
@[simp] theorem pixelBytes_length (px : List Pixel) : (pixelBytes px).length = 2 * px.length := by
  induction px with
  | nil => rfl
  | cons p ps ih => simp [pixelBytes, ih]; omega

@[simp] theorem pixelBytes_eq_nil (px : List Pixel) : pixelBytes px = [] ↔ px = [] := by
  cases px <;> simp [pixelBytes]

theorem pixelBytes_append (px qx : List Pixel) : pixelBytes (px ++ qx) = pixelBytes px ++ pixelBytes qx := by
  induction px with
  | nil => rfl
  | cons p ps ih => simp [pixelBytes, ih]

/-! ### Commands of opcode bytes (R105) -/

/-- A byte that names a command is that command's opcode. -/
theorem Opcodes.byte_of_cmd? {t : Opcodes} {b : Byte} {c : Cmd} (h : t.cmd? b = some c) : t.byte c = b := by
  simpa using List.find?_some h

/-- Every opcode byte names a command, even where two are equal. -/
theorem Opcodes.cmd?_byte_isSome (t : Opcodes) (c : Cmd) : (t.cmd? (t.byte c)).isSome = true := by
  simp only [Opcodes.cmd?, List.find?_isSome]
  exact ⟨c, by cases c <;> simp [Cmd.all], by simp⟩

/-- Distinct opcode bytes: no two commands share one. -/
theorem Opcodes.byte_injective {t : Opcodes} (h : t.distinct = true) {c d : Cmd} (he : t.byte c = t.byte d) : c = d := by
  simp only [Opcodes.distinct, decide_eq_true_eq] at h
  exact List.inj_on_of_nodup_map h (by cases c <;> simp [Cmd.all]) (by cases d <;> simp [Cmd.all]) he

/-- Distinct opcode bytes tell their commands. -/
theorem Opcodes.cmd?_byte {t : Opcodes} (h : t.distinct = true) (c : Cmd) : t.cmd? (t.byte c) = some c := by
  obtain ⟨d, hd⟩ := Option.isSome_iff_exists.mp (Opcodes.cmd?_byte_isSome t c)
  rw [hd, Opcodes.byte_injective h (Opcodes.byte_of_cmd? hd)]

/-! ### Orientations of bytes (R107) -/

/-- Distinct memory-access-control bytes: the first orientation with a byte is the one it came from. -/
theorem Params.findIdx?_madctl {p : Params} (hm : p.madctlDistinct = true) {k : Nat} {row : OrientRow} (hr : p.orientSet[k]? = some row) :
    p.orientSet.findIdx? (fun r => r.madctl == row.madctl) = some k := by
  rw [List.findIdx?_eq_some_iff_getElem]
  obtain ⟨hlt, he⟩ := List.getElem?_eq_some_iff.mp hr
  refine ⟨hlt, by simp [he], ?_⟩
  intro j hj
  simp only [beq_iff_eq]
  intro hj2
  simp only [Params.madctlDistinct, decide_eq_true_eq] at hm
  have hj3 : j < (p.orientSet.map OrientRow.madctl).length := by simp; omega
  have hk3 : k < (p.orientSet.map OrientRow.madctl).length := by simpa using hlt
  have := (List.Nodup.getElem_inj_iff hm (hi := hj3) (hj := hk3)).mp (by simpa [he] using hj2)
  omega

/-- Distinct memory-access-control bytes tell their orientations. -/
theorem Params.orientOf?_madctlOf? {p : Params} (hm : p.madctlDistinct = true) {o : Half} {m : Byte} (h : p.madctlOf? o = some m) :
    p.orientOf? m = some o := by
  simp only [Params.madctlOf?, Params.orientRow?, Option.map_eq_some_iff] at h
  obtain ⟨row, hr, rfl⟩ := h
  simp [Params.orientOf?, Params.findIdx?_madctl hm hr]

end Sys2Proof
end

