-- ==== Sys2Proof/Laws/Memory.lean ====
section
/-! SUPPORT. The pixel memory: every store keeps the canonical form, a load after a store, and what a list of stores
leaves at an address. -/

namespace Sys2Proof.Machine

/-! ### One store -/

@[simp] theorem PixelMemory.wf_nil : PixelMemory.wf [] = true := rfl

/-- The first key of a canonical memory is below every other. -/
theorem PixelMemory.wf_cons {a : Nat × Pixel} {m : PixelMemory} :
    PixelMemory.wf (a :: m) = true ↔ (∀ b ∈ m, a.1 < b.1) ∧ PixelMemory.wf m = true := by
  induction m generalizing a with
  | nil => simp [PixelMemory.wf]
  | cons b rest ih =>
    rw [PixelMemory.wf, Bool.and_eq_true, decide_eq_true_eq]
    constructor
    · rintro ⟨h1, h2⟩
      refine ⟨?_, h2⟩
      intro c hc
      rcases List.mem_cons.mp hc with rfl | hc
      · exact h1
      · exact h1.trans ((ih.mp h2).1 c hc)
    · rintro ⟨h1, h2⟩
      exact ⟨h1 b (by simp), h2⟩

theorem PixelMemory.store_keys {m : PixelMemory} {k : Nat} {p : Pixel} {b : Nat × Pixel} (h : b ∈ m.store k p) :
    b = (k, p) ∨ b ∈ m := by
  induction m with
  | nil => simpa [PixelMemory.store] using h
  | cons a rest ih =>
    rw [PixelMemory.store] at h
    split at h
    · simpa using h
    · split at h
      · simp only [List.mem_cons] at h ⊢; tauto
      · simp only [List.mem_cons] at h ⊢; tauto

/-- A store keeps the canonical form. -/
theorem PixelMemory.store_wf {m : PixelMemory} (h : m.wf = true) (k : Nat) (p : Pixel) : (m.store k p).wf = true := by
  induction m with
  | nil => rfl
  | cons a rest ih =>
    obtain ⟨h1, h2⟩ := PixelMemory.wf_cons.mp h
    rw [PixelMemory.store]
    split
    · rename_i hk
      refine PixelMemory.wf_cons.mpr ⟨?_, h⟩
      intro b hb
      rcases List.mem_cons.mp hb with rfl | hb
      · exact hk
      · exact hk.trans (h1 b hb)
    · split
      · rename_i hk; subst hk; exact PixelMemory.wf_cons.mpr ⟨h1, h2⟩
      · refine PixelMemory.wf_cons.mpr ⟨?_, ih h2⟩
        intro b hb
        rcases PixelMemory.store_keys hb with rfl | hb
        · simp only; omega
        · exact h1 b hb

/-- A load after a store to the same key. -/
theorem PixelMemory.load_store_same (m : PixelMemory) (k : Nat) (p : Pixel) : (m.store k p).load k = some p := by
  induction m with
  | nil => simp [PixelMemory.store, PixelMemory.load]
  | cons a rest ih =>
    rw [PixelMemory.store]
    split
    · simp [PixelMemory.load]
    · split
      · simp [PixelMemory.load]
      · rename_i h; simp [PixelMemory.load, h, ih]

/-- A store leaves every other key alone. -/
theorem PixelMemory.load_store_other (m : PixelMemory) {k k' : Nat} (h : k' ≠ k) (p : Pixel) :
    (m.store k p).load k' = m.load k' := by
  induction m with
  | nil => simp [PixelMemory.store, PixelMemory.load, h]
  | cons a rest ih =>
    rw [PixelMemory.store]
    split
    · simp [PixelMemory.load, h]
    · split
      · rename_i hk; subst hk; simp [PixelMemory.load, h]
      · simp [PixelMemory.load, ih]

/-! ### Addresses -/

theorem pixelKey_injective {r c r' c' : Nat} (h1 : c < 65536) (h2 : c' < 65536) (h : pixelKey r c = pixelKey r' c') :
    r = r' ∧ c = c' := by
  unfold pixelKey at h; omega

/-- A read after a store, for columns a 16-bit bound can name. -/
theorem PixelMemory.read_write (m : PixelMemory) {r c r' c' : Nat} (p : Pixel) (h : c < 65536) :
    (m.write r c p).read r' c' = if r' = r ∧ c' = c then some p else m.read r' c' := by
  unfold PixelMemory.read PixelMemory.write
  by_cases h' : c' < 65536
  · simp only [h', if_true]
    by_cases he : r' = r ∧ c' = c
    · obtain ⟨rfl, rfl⟩ := he; simp [PixelMemory.load_store_same]
    · rw [if_neg he, PixelMemory.load_store_other]
      intro hk; exact he (pixelKey_injective h' h hk)
  · rw [if_neg h', if_neg h', if_neg]; omega

/-! ### Many stores -/

theorem memoryOf_append (px qx : List PixelStore) :
    memoryOf (px ++ qx) = qx.foldl (fun m e => m.write e.r e.c e.p) (memoryOf px) := by
  simp [memoryOf, List.foldl_append]

theorem memoryOf_wf (px : List PixelStore) : (memoryOf px).wf = true := by
  unfold memoryOf
  suffices h : ∀ (m : PixelMemory), m.wf = true → (px.foldl (fun m e => m.write e.r e.c e.p) m).wf = true from h [] rfl
  induction px with
  | nil => intro m h; exact h
  | cons e rest ih => intro m h; exact ih _ (PixelMemory.store_wf h _ _)

/-- Stores elsewhere leave an address alone. -/
theorem memoryOf_read_other (px qx : List PixelStore) {r c : Nat} (hc : ∀ e ∈ qx, e.c < 65536)
    (h : ∀ e ∈ qx, ¬ (r = e.r ∧ c = e.c)) : (memoryOf (px ++ qx)).read r c = (memoryOf px).read r c := by
  rw [memoryOf_append]
  generalize memoryOf px = m
  induction qx generalizing m with
  | nil => rfl
  | cons e rest ih =>
    rw [List.foldl_cons, ih (fun x hx => hc x (by simp [hx])) (fun x hx => h x (by simp [hx])),
      PixelMemory.read_write _ _ (hc e (by simp)), if_neg (h e (by simp))]

/-- Stores whose pixel is a function of the address: what an address holds after them. -/
theorem memoryOf_read_fun (px qx : List PixelStore) (f : Nat → Nat → Pixel) (hc : ∀ e ∈ qx, e.c < 65536)
    (hf : ∀ e ∈ qx, e.p = f e.r e.c) (r c : Nat) :
    (memoryOf (px ++ qx)).read r c =
      if ∃ e ∈ qx, e.r = r ∧ e.c = c then some (f r c) else (memoryOf px).read r c := by
  rw [memoryOf_append]
  generalize memoryOf px = m
  induction qx generalizing m with
  | nil => simp
  | cons e rest ih =>
    rw [List.foldl_cons, ih (fun x hx => hc x (by simp [hx])) (fun x hx => hf x (by simp [hx])),
      PixelMemory.read_write _ _ (hc e (by simp))]
    have he := hf e (by simp)
    by_cases h1 : ∃ e ∈ rest, e.r = r ∧ e.c = c
    · rw [if_pos h1, if_pos]
      obtain ⟨x, hx, hrc⟩ := h1
      exact ⟨x, by simp [hx], hrc⟩
    · rw [if_neg h1]
      by_cases h2 : r = e.r ∧ c = e.c
      · rw [if_pos h2, if_pos ⟨e, by simp, h2.1.symm, h2.2.symm⟩, he, h2.1, h2.2]
      · rw [if_neg h2, if_neg]
        rintro ⟨x, hx, hrc⟩
        rcases List.mem_cons.mp hx with rfl | hx
        · exact h2 ⟨hrc.1.symm, hrc.2.symm⟩
        · exact h1 ⟨x, hx, hrc⟩

end Sys2Proof.Machine
end

