-- ==== Sys2Proof/Laws/Receiver.lean ====
section
/-! SUPPORT. The receiver model: what a frame does to it. Exactly, for the window's three commands and for pixel data
in an open window; and whatever its state, where pixel data can be stored. -/

namespace Sys2Proof.Machine

/-! ### Runs of events -/

@[simp] theorem Rx.run_nil (p : Params) (rx : Rx) : rx.run p [] = rx := rfl
@[simp] theorem Rx.run_cons (p : Params) (rx : Rx) (e : Event) (evs : List Event) :
    rx.run p (e :: evs) = (rx.event p e).run p evs := rfl
theorem Rx.run_append (p : Params) (rx : Rx) (e1 e2 : List Event) : rx.run p (e1 ++ e2) = (rx.run p e1).run p e2 := by
  simp [Rx.run, List.foldl_append]

/-- The receiver after more events of a trace. -/
theorem State.rx_append {s t : State} {evs : List Event} (h1 : t.tr = s.tr ++ evs) (h2 : t.cfg = s.cfg) :
    t.rx = s.rx.run s.cfg evs := by
  simp only [State.rx, Rx.observe, h1, h2, Rx.run_append]

@[simp] theorem Rx.event_dc (p : Params) (rx : Rx) (v : Bool) : rx.event p (.pin .dc v) = rx := by cases v <;> rfl
@[simp] theorem Rx.event_select (p : Params) (rx : Rx) : rx.event p (.pin .csN false) = { rx with selected := true } := by
  simp [Rx.event]
@[simp] theorem Rx.event_release (p : Params) (rx : Rx) :
    rx.event p (.pin .csN true) = { rx with selected := false, undef := rx.undef || rx.half.isSome } := by
  simp [Rx.event]

/-! ### What every trace keeps -/

/-- Before the reset prefix is complete there is no command and no open window; the columns of the counter and of
every store are ones a 16-bit bound can name; the mark stands within the stores. -/
structure Rx.Sane (rx : Rx) : Prop where
  shut : rx.boot ≠ .open → rx.cmd = none ∧ rx.cur = .closed
  column : ∀ r c, rx.cur = .pos r c → c < 65536
  stores : ∀ e ∈ rx.px, e.c < 65536
  mark : rx.beforeOrient ≤ rx.px.length

theorem Rx.start_sane : Rx.start.Sane where
  shut := fun _ => ⟨rfl, rfl⟩
  column := by intro r c h; simp [Rx.start] at h
  stores := by simp [Rx.start]
  mark := by simp [Rx.start]

theorem nextAddr_column {r0 r1 c0 c1 r c : Nat} (h0 : c0 < 65536) (h1 : c1 < 65536) :
    (nextAddr r0 r1 c0 c1 r c).2 < 65536 := by
  unfold nextAddr; split
  · simp only; omega
  · split <;> simpa using h0

/-- A close only shuts the counter and adds a verdict. -/
theorem Rx.close_eq (rx : Rx) :
    rx.close = { rx with verdicts := rx.close.verdicts, cur := .closed, undef := rx.close.undef } := by
  unfold Rx.close; cases h : rx.cur <;> simp
  rw [← h]

@[simp] theorem Rx.close_px (rx : Rx) : rx.close.px = rx.px := by rw [Rx.close_eq]
@[simp] theorem Rx.close_cur (rx : Rx) : rx.close.cur = .closed := by rw [Rx.close_eq]
@[simp] theorem Rx.close_beforeOrient (rx : Rx) : rx.close.beforeOrient = rx.beforeOrient := by rw [Rx.close_eq]
@[simp] theorem Rx.close_boot (rx : Rx) : rx.close.boot = rx.boot := by rw [Rx.close_eq]
@[simp] theorem Rx.close_cmd (rx : Rx) : rx.close.cmd = rx.cmd := by rw [Rx.close_eq]
@[simp] theorem Rx.close_fmt (rx : Rx) : rx.close.fmt = rx.fmt := by rw [Rx.close_eq]
@[simp] theorem Rx.close_row (rx : Rx) : rx.close.row = rx.row := by rw [Rx.close_eq]
@[simp] theorem Rx.close_col (rx : Rx) : rx.close.col = rx.col := by rw [Rx.close_eq]
@[simp] theorem Rx.close_selected (rx : Rx) : rx.close.selected = rx.selected := by rw [Rx.close_eq]

theorem Rx.store_sane {rx : Rx} (h : rx.Sane) (q : Pixel) : (rx.store q).Sane := by
  unfold Rx.store
  split
  · rename_i r c r0 r1 c0 c1 h1 h2 h3
    refine ⟨fun hb => absurd (h.shut hb).2 (by simp [h1]), ?_, ?_, ?_⟩
    · intro r' c' hc
      simp only [Cursor.pos.injEq] at hc
      rw [← hc.2]; exact nextAddr_column c0.isLt c1.isLt
    · intro e he
      rcases List.mem_append.mp he with he | he
      · exact h.stores e he
      · rw [List.mem_singleton.mp he]; exact h.column _ _ h1
    · have := h.mark; simp only [List.length_append]; omega
  · exact ⟨h.shut, h.column, h.stores, h.mark⟩

theorem Rx.command_sane {rx : Rx} (hs : rx.Sane) (h : rx.boot = .open) (p : Params) (b : Byte) :
    (rx.command p b).Sane := by
  have hb : (rx.command p b).boot = .open := by
    unfold Rx.command; simp only
    split <;> (try unfold Rx.ramwr) <;> (try split) <;> simp [h, Rx.setUndef]
  have hp : (rx.command p b).px = rx.px := by
    unfold Rx.command; simp only
    split <;> (try unfold Rx.ramwr) <;> (try split) <;> simp [Rx.setUndef]
  have hm : (rx.command p b).beforeOrient ≤ rx.px.length := by
    have := hs.mark
    unfold Rx.command; simp only
    split <;> (try unfold Rx.ramwr) <;> (try split) <;> simp [Rx.setUndef, this]
  refine ⟨fun hne => absurd hb hne, ?_, by rw [hp]; exact hs.stores, by rw [hp]; exact hm⟩
  intro r c hc
  unfold Rx.command at hc; simp only at hc
  split at hc <;> (try unfold Rx.ramwr at hc) <;> (try split at hc) <;> simp [Rx.setUndef] at hc
  obtain ⟨-, rfl⟩ := hc
  exact BitVec.isLt _

theorem Rx.data_sane {rx : Rx} (h : rx.Sane) (p : Params) (b : Byte) : (rx.data p b).Sane := by
  unfold Rx.data
  split
  · unfold Rx.casetArg; split <;> exact ⟨h.shut, h.column, h.stores, h.mark⟩
  · unfold Rx.rasetArg; split <;> exact ⟨h.shut, h.column, h.stores, h.mark⟩
  · unfold Rx.pixsetArg; split <;> exact ⟨h.shut, h.column, h.stores, h.mark⟩
  · unfold Rx.madctlArg; split <;> exact ⟨h.shut, h.column, h.stores, h.mark⟩
  · unfold Rx.pixelByte
    split
    · split
      · exact ⟨h.shut, h.column, h.stores, h.mark⟩
      · exact Rx.store_sane (rx := { rx with half := none }) ⟨h.shut, h.column, h.stores, h.mark⟩ _
    · exact ⟨h.shut, h.column, h.stores, h.mark⟩
  · exact ⟨h.shut, h.column, h.stores, h.mark⟩
  · exact ⟨h.shut, h.column, h.stores, h.mark⟩
  · exact ⟨h.shut, h.column, h.stores, h.mark⟩

theorem Rx.event_sane {rx : Rx} (h : rx.Sane) (p : Params) (e : Event) : (rx.event p e).Sane := by
  cases e with
  | pin q v =>
    cases q with
    | csN => cases v <;> exact ⟨h.shut, h.column, h.stores, h.mark⟩
    | dc => cases v <;> exact ⟨h.shut, h.column, h.stores, h.mark⟩
    | rstN =>
      cases v with
      | false => exact ⟨fun _ => ⟨rfl, rfl⟩, by intro r c hc; simp [Rx.event, Rx.hardReset, Rx.start] at hc, h.stores, h.mark⟩
      | true =>
        refine ⟨fun hb => h.shut (fun ho => hb ?_), h.column, h.stores, h.mark⟩
        simp [Rx.event, ho, BootPhase.releaseLine]
  | byte d b =>
    simp only [Rx.event]
    split
    · unfold Rx.byte
      split
      · rename_i ho
        split
        · exact Rx.data_sane h p b
        · exact Rx.command_sane h ho p b
      · exact ⟨h.shut, h.column, h.stores, h.mark⟩
    · exact h
  | xferFail =>
    refine ⟨fun hb => ⟨rfl, ?_⟩, ?_, h.stores, h.mark⟩
    · have := (h.shut hb).2
      simp [Rx.event, Rx.fail, this]
    · intro r c hc
      simp only [Rx.event, Rx.fail] at hc
      split at hc <;> simp at hc
  | wait n =>
    refine ⟨fun hb => h.shut (fun ho => hb ?_), h.column, h.stores, h.mark⟩
    simp [Rx.event, ho, BootPhase.waitOne]

theorem Rx.run_sane {rx : Rx} (h : rx.Sane) (p : Params) (evs : List Event) : (rx.run p evs).Sane := by
  induction evs generalizing rx with
  | nil => exact h
  | cons e rest ih => exact ih (Rx.event_sane h p e)

theorem State.rx_sane (s : State) : s.rx.Sane := Rx.run_sane Rx.start_sane _ _

/-! ### Data that is no pixel (R75, R76, R78) -/

/-- The receiver would not store a data byte. -/
def Rx.Deaf (p : Params) (rx : Rx) : Prop := rx.boot ≠ .open ∨ rx.cmd.bind p.opc.cmd? ≠ some .ramwr

/-- A data byte that is no pixel moves no pixel, no counter and no verdict. -/
theorem Rx.data_deaf {p : Params} {rx : Rx} (h : rx.cmd.bind p.opc.cmd? ≠ some .ramwr) (b : Byte) :
    (rx.data p b).px = rx.px ∧ (rx.data p b).cmd = rx.cmd ∧ (rx.data p b).boot = rx.boot ∧
      (rx.data p b).cur = rx.cur ∧ (rx.data p b).verdicts = rx.verdicts ∧ (rx.data p b).selected = rx.selected := by
  unfold Rx.data
  split
  · unfold Rx.casetArg; split <;> simp
  · unfold Rx.rasetArg; split <;> simp
  · unfold Rx.pixsetArg; split <;> simp
  · unfold Rx.madctlArg; split <;> simp
  · rename_i hr; exact absurd hr h
  · simp [Rx.setUndef]
  · simp [Rx.setUndef]
  · simp [Rx.setUndef]

theorem Rx.byte_deaf {p : Params} {rx : Rx} (h : rx.Deaf p) (b : Byte) :
    (rx.event p (.byte true b)).px = rx.px ∧ (rx.event p (.byte true b)).Deaf p := by
  simp only [Rx.event]
  split
  · unfold Rx.byte
    split
    · rename_i ho
      have hr : rx.cmd.bind p.opc.cmd? ≠ some .ramwr := by rcases h with h | h; exact absurd ho h; exact h
      obtain ⟨h1, h2, h3, -⟩ := Rx.data_deaf hr b
      simp only [if_true]
      exact ⟨h1, Or.inr (by rw [h2]; exact hr)⟩
    · rename_i ho; exact ⟨rfl, Or.inl ho⟩
  · exact ⟨rfl, h⟩

theorem Rx.bytes_deaf {p : Params} {rx : Rx} (h : rx.Deaf p) (bs : List Byte) :
    (rx.run p (bs.map (.byte true))).px = rx.px ∧ (rx.run p (bs.map (.byte true))).Deaf p := by
  induction bs generalizing rx with
  | nil => exact ⟨rfl, h⟩
  | cons b rest ih =>
    obtain ⟨h1, h2⟩ := Rx.byte_deaf h b
    obtain ⟨h3, h4⟩ := ih h2
    exact ⟨h3.trans h1, h4⟩

/-- An opcode byte moves no pixel. -/
theorem Rx.command_px (p : Params) (rx : Rx) (b : Byte) : (rx.command p b).px = rx.px := by
  unfold Rx.command; simp only
  split <;> (try unfold Rx.ramwr) <;> (try split) <;> simp [Rx.setUndef]

theorem Rx.command_cmd (p : Params) (rx : Rx) (b : Byte) : (rx.command p b).cmd = some b := by
  unfold Rx.command; simp only
  split <;> (try unfold Rx.ramwr) <;> (try split) <;> simp [Rx.setUndef]

/-- An opcode byte moves no pixel, and after one that is no memory-write no data byte is a pixel. -/
theorem Rx.opcode_deaf (p : Params) (rx : Rx) (b : Byte) :
    (rx.event p (.byte false b)).px = rx.px ∧
      (rx.selected = true → p.opc.cmd? b ≠ some .ramwr → (rx.event p (.byte false b)).Deaf p) := by
  simp only [Rx.event]
  split
  · unfold Rx.byte
    split
    · exact ⟨Rx.command_px p rx b, fun _ h => Or.inr (by simpa [Rx.command_cmd] using h)⟩
    · rename_i ho; exact ⟨rfl, fun _ _ => Or.inl ho⟩
  · rename_i hs; exact ⟨rfl, fun h => absurd h hs⟩

/-- Events that are no bytes move no pixel. -/
theorem Rx.line_px (p : Params) (rx : Rx) (e : Event) (h : ∀ d b, e ≠ .byte d b) : (rx.event p e).px = rx.px := by
  cases e with
  | pin q v => cases q <;> cases v <;> rfl
  | byte d b => exact absurd rfl (h d b)
  | xferFail => rfl
  | wait n => rfl

/-- Events without a data byte move no pixel. -/
theorem Rx.quiet_px (p : Params) (rx : Rx) (evs : List Event) (h : ∀ b, Event.byte true b ∉ evs) :
    (rx.run p evs).px = rx.px := by
  induction evs generalizing rx with
  | nil => rfl
  | cons e rest ih =>
    rw [Rx.run_cons, ih _ (fun b hb => h b (by simp [hb]))]
    cases e with
    | byte d b =>
      cases d with
      | true => exact absurd (by simp) (h b)
      | false => exact (Rx.opcode_deaf p rx b).1
    | pin q v => exact Rx.line_px p rx _ (by simp)
    | xferFail => rfl
    | wait n => rfl

/-- A command frame, whole or cut, moves no pixel unless it is a memory-write with arguments. -/
theorem Rx.frame_px (p : Params) (rx : Rx) (b : Byte) (args : List Byte) (tail : List Event)
    (h : p.opc.cmd? b ≠ some .ramwr ∨ args = []) (ht : ∀ x, Event.byte true x ∉ tail) :
    (rx.run p ([.pin .csN false, .pin .dc false, .byte false b, .pin .dc true] ++ args.map (.byte true) ++ tail)).px = rx.px := by
  simp only [List.cons_append, List.nil_append, Rx.run_cons, Rx.run_append, Rx.event_select, Rx.event_dc]
  rw [Rx.quiet_px p _ tail ht]
  obtain ⟨h1, h2⟩ := Rx.opcode_deaf p { rx with selected := true } b
  rcases h with h | rfl
  · rw [(Rx.bytes_deaf (h2 rfl h) args).1, h1]
  · exact h1

/-! ### Pixel data, wherever it comes (R78, R79) -/

theorem Rx.nextAddrs_zero (rx : Rx) : rx.nextAddrs 0 = [] := by
  unfold Rx.nextAddrs; split <;> rfl

/-- More pixels reach at least the addresses fewer pixels reach. -/
theorem storeAddrs_mono (r0 r1 c0 c1 : Nat) {m n : Nat} (h : m ≤ n) (rc : Nat × Nat) :
    ∀ x ∈ storeAddrs r0 r1 c0 c1 m rc, x ∈ storeAddrs r0 r1 c0 c1 n rc := by
  induction m generalizing n rc with
  | zero => intro x hx; simp [storeAddrs] at hx
  | succ m ih =>
    obtain ⟨k, rfl⟩ : ∃ k, n = k + 1 := ⟨n - 1, by omega⟩
    intro x hx
    simp only [storeAddrs, List.mem_cons] at hx ⊢
    exact hx.imp id (ih (by omega) _ x)

theorem Rx.nextAddrs_mono (rx : Rx) {m n : Nat} (h : m ≤ n) : ∀ x ∈ rx.nextAddrs m, x ∈ rx.nextAddrs n := by
  unfold Rx.nextAddrs; split
  · exact storeAddrs_mono _ _ _ _ h _
  · simp

/-- One store: at the counter's address, and on to the next. -/
theorem Rx.store_cases (rx : Rx) (q : Pixel) :
    ((rx.store q).px = rx.px ∧ (rx.store q).cur = rx.cur ∧ (rx.store q).row = rx.row ∧ (rx.store q).col = rx.col) ∨
      ∃ r c, (rx.store q).px = rx.px ++ [{ r := r, c := c, p := q }] ∧
        ∀ n, rx.nextAddrs (n + 1) = (r, c) :: (rx.store q).nextAddrs n := by
  unfold Rx.store
  split
  · rename_i r c r0 r1 c0 c1 h1 h2 h3
    exact .inr ⟨r, c, rfl, fun n => by simp [Rx.nextAddrs, h1, h2, h3, storeAddrs]⟩
  · exact .inl ⟨rfl, rfl, rfl, rfl⟩

/-- Does the receiver hold half a pixel? -/
def Rx.halves (rx : Rx) : Nat := if rx.half.isSome then 1 else 0

theorem Rx.store_half (rx : Rx) (q : Pixel) : (rx.store q).half = rx.half := by
  unfold Rx.store; split <;> rfl

theorem Rx.nextAddrs_congr {rx rx' : Rx} (h1 : rx'.cur = rx.cur) (h2 : rx'.row = rx.row) (h3 : rx'.col = rx.col) (n : Nat) :
    rx'.nextAddrs n = rx.nextAddrs n := by
  unfold Rx.nextAddrs; rw [h1, h2, h3]

/-- A data byte that is a pixel byte. -/
theorem Rx.event_pixelByte {p : Params} {rx : Rx} (hs : rx.selected = true) (ho : rx.boot = .open)
    (hr : rx.cmd.bind p.opc.cmd? = some .ramwr) (b : Byte) : rx.event p (.byte true b) = rx.pixelByte p b := by
  unfold Rx.event; simp only
  rw [if_pos hs]; unfold Rx.byte
  rw [if_pos ho, if_pos rfl]; unfold Rx.data
  rw [hr]

/-- Data bytes, whatever the receiver's state: what they store goes to the counter's addresses, one for every two
bytes (a pending half counts), each below column 65536. -/
theorem Rx.bytes_stores (p : Params) {rx : Rx} (hs : rx.Sane) (bs : List Byte) :
    ∃ stores, (rx.run p (bs.map (.byte true))).px = rx.px ++ stores ∧
      ∀ e ∈ stores, e.c < 65536 ∧ (e.r, e.c) ∈ rx.nextAddrs ((bs.length + rx.halves) / 2) := by
  by_cases hd : rx.Deaf p
  · exact ⟨[], by simp [(Rx.bytes_deaf hd bs).1], by simp⟩
  induction bs generalizing rx with
  | nil => exact ⟨[], by simp, by simp⟩
  | cons b rest ih =>
    have hd' := hd
    simp only [Rx.Deaf, not_or, not_not] at hd'
    obtain ⟨ho, hr⟩ := hd'
    simp only [List.map_cons, Rx.run_cons]
    have hrest : ∀ rx' : Rx, rx'.Sane → ∃ stores, (rx'.run p (rest.map (.byte true))).px = rx'.px ++ stores ∧
        ∀ e ∈ stores, e.c < 65536 ∧ (e.r, e.c) ∈ rx'.nextAddrs ((rest.length + rx'.halves) / 2) := by
      intro rx' hs'
      by_cases hd' : rx'.Deaf p
      · exact ⟨[], by simp [(Rx.bytes_deaf hd' rest).1], by simp⟩
      · exact ih hs' hd'
    by_cases hsel : rx.selected = true
    · rw [Rx.event_pixelByte hsel ho hr]
      unfold Rx.pixelByte
      split
      · split
        · rename_i hf hh
          obtain ⟨stores, h1, h2⟩ := hrest { rx with half := some b } ⟨hs.shut, hs.column, hs.stores, hs.mark⟩
          refine ⟨stores, h1, fun e he => ?_⟩
          have := h2 e he
          rw [show ({ rx with half := some b } : Rx).nextAddrs _ = rx.nextAddrs _ from Rx.nextAddrs_congr rfl rfl rfl _] at this
          simpa [Rx.halves, hh] using this
        · rename_i hf h hh
          have hs1 : ({ rx with half := none } : Rx).Sane := ⟨hs.shut, hs.column, hs.stores, hs.mark⟩
          obtain ⟨stores, h1, h2⟩ := hrest _ (Rx.store_sane hs1 (ofBytes h b))
          have hn : (({ rx with half := none } : Rx).store (ofBytes h b)).halves = 0 := by
            simp [Rx.halves, Rx.store_half]
          have hl : (rest.length + 1 + rx.halves) / 2 = rest.length / 2 + 1 := by
            simp [Rx.halves, hh]; omega
          rw [hn] at h2
          rcases Rx.store_cases { rx with half := none } (ofBytes h b) with ⟨e1, e2, e3, e4⟩ | ⟨r, c, e1, e2⟩
          · refine ⟨stores, by rw [h1, e1], fun e he => ?_⟩
            have := h2 e he
            rw [Rx.nextAddrs_congr e2 e3 e4,
              show ({ rx with half := none } : Rx).nextAddrs _ = rx.nextAddrs _ from Rx.nextAddrs_congr rfl rfl rfl _] at this
            exact ⟨this.1, rx.nextAddrs_mono (by simp only [List.length_cons]; omega) _ this.2⟩
          · refine ⟨{ r := r, c := c, p := ofBytes h b } :: stores, by rw [h1, e1]; simp, fun e he => ?_⟩
            have hcons : rx.nextAddrs (rest.length / 2 + 1) =
                (r, c) :: (({ rx with half := none } : Rx).store (ofBytes h b)).nextAddrs (rest.length / 2) := by
              rw [← e2]; exact (Rx.nextAddrs_congr rfl rfl rfl _).symm
            rw [List.length_cons, hl, hcons]
            rcases List.mem_cons.mp he with rfl | he
            · refine ⟨?_, by simp⟩
              have hmem : (r, c) ∈ rx.nextAddrs 1 := by
                have := e2 0
                rw [show ({ rx with half := none } : Rx).nextAddrs _ = rx.nextAddrs _ from Rx.nextAddrs_congr rfl rfl rfl _] at this
                rw [this]; simp
              unfold Rx.nextAddrs at hmem
              split at hmem
              · rename_i hc _ _; simp [storeAddrs] at hmem; obtain ⟨rfl, rfl⟩ := hmem; exact hs.column _ _ hc
              · simp at hmem
            · have := h2 e he
              exact ⟨this.1, by simpa using Or.inr this.2⟩
      · obtain ⟨stores, h1, h2⟩ := hrest rx.setUndef ⟨hs.shut, hs.column, hs.stores, hs.mark⟩
        refine ⟨stores, h1, fun e he => ?_⟩
        have := h2 e he
        rw [show rx.setUndef.nextAddrs _ = rx.nextAddrs _ from Rx.nextAddrs_congr rfl rfl rfl _,
          show rx.setUndef.halves = rx.halves from rfl] at this
        exact ⟨this.1, rx.nextAddrs_mono (by simp only [List.length_cons]; omega) _ this.2⟩
    · have hev : rx.event p (.byte true b) = rx := by unfold Rx.event; simp only; rw [if_neg hsel]
      rw [hev]
      obtain ⟨stores, h1, h2⟩ := hrest rx hs
      refine ⟨stores, h1, fun e he => ?_⟩
      have := h2 e he
      exact ⟨this.1, rx.nextAddrs_mono (by simp only [List.length_cons]; omega) _ this.2⟩

/-- Addresses the counter runs through stay in its window. -/
theorem storeAddrs_bounds {r0 r1 c0 c1 : Nat} (hr : r0 ≤ r1) (hc : c0 ≤ c1) (n : Nat) (rc : Nat × Nat)
    (h : r0 ≤ rc.1 ∧ rc.1 ≤ r1 ∧ c0 ≤ rc.2 ∧ rc.2 ≤ c1) :
    ∀ x ∈ storeAddrs r0 r1 c0 c1 n rc, r0 ≤ x.1 ∧ x.1 ≤ r1 ∧ c0 ≤ x.2 ∧ x.2 ≤ c1 := by
  induction n generalizing rc with
  | zero => simp [storeAddrs]
  | succ n ih =>
    intro x hx
    rcases List.mem_cons.mp hx with rfl | hx
    · exact h
    · refine ih _ ?_ x hx
      unfold nextAddr; split
      · simp only; omega
      · split <;> simp only <;> omega

/-! ### The clock (R65, R104) -/

@[simp] theorem clockEdges_nil (m : SpiMode) : clockEdges m [] = [] := rfl
@[simp] theorem clockEdges_pin (m : SpiMode) (p : Pin) (v : Bool) (rest : List Event) :
    clockEdges m (.pin p v :: rest) = clockEdges m rest := rfl
@[simp] theorem clockEdges_byte (m : SpiMode) (d : Bool) (b : Byte) (rest : List Event) :
    clockEdges m (.byte d b :: rest) = (wireBits b).flatMap (bitEdges m d) ++ clockEdges m rest := rfl
@[simp] theorem clockEdges_xferFail (m : SpiMode) (rest : List Event) :
    clockEdges m (.xferFail :: rest) = clockEdges m rest := rfl
@[simp] theorem clockEdges_wait (m : SpiMode) (n : Nat) (rest : List Event) :
    clockEdges m (.wait n :: rest) = clockEdges m rest := rfl

/-- Every bit is captured once, in either mode. -/
theorem bitEdges_captured (m : SpiMode) (d : Bool) (bits : List Bool) :
    ((bits.flatMap (bitEdges m d)).filterMap fun e => e.captured.map fun bit => (e.dc, bit)) =
      bits.map fun bit => (d, bit) := by
  induction bits with
  | nil => rfl
  | cons bit rest ih =>
    rw [List.flatMap_cons, List.filterMap_append, ih]
    cases hm : m.capture <;> simp [bitEdges, hm]

@[simp] theorem clockedBits_nil (m : SpiMode) : clockedBits m [] = [] := rfl
@[simp] theorem clockedBits_pin (m : SpiMode) (p : Pin) (v : Bool) (rest : List Event) :
    clockedBits m (.pin p v :: rest) = clockedBits m rest := rfl
@[simp] theorem clockedBits_byte (m : SpiMode) (d : Bool) (b : Byte) (rest : List Event) :
    clockedBits m (.byte d b :: rest) = ((wireBits b).map fun bit => (d, bit)) ++ clockedBits m rest := by
  unfold clockedBits
  rw [clockEdges_byte, List.filterMap_append, bitEdges_captured]

end Sys2Proof.Machine
end

