-- ==== Sys2Proof/Laws/Window.lean ====
section
/-! SUPPORT. The receiver through a window set and filled by whole frames (20_memory.md R74 to R81, R87): exactly. -/

namespace Sys2Proof.Machine

/-! ### Whole frames -/

theorem Rx.event_command {p : Params} {rx : Rx} (hs : rx.selected = true) (ho : rx.boot = .open) (b : Byte) :
    rx.event p (.byte false b) = rx.command p b := by
  unfold Rx.event; simp only
  rw [if_pos hs]; unfold Rx.byte
  rw [if_pos ho]; rfl

theorem Rx.event_data {p : Params} {rx : Rx} (hs : rx.selected = true) (ho : rx.boot = .open) (b : Byte) :
    rx.event p (.byte true b) = rx.data p b := by
  unfold Rx.event; simp only
  rw [if_pos hs]; unfold Rx.byte
  rw [if_pos ho]; rfl

/-- The row command's frame: the open window closes, the row register is set. -/
theorem Rx.run_raset {p : Params} (hd : p.opc.distinct = true) {rx : Rx} (ho : rx.boot = .open) {v0 v1 : Half}
    (hv : v0.toNat ≤ v1.toNat) :
    rx.run p (commandFrame (p.opc.byte .raset) (boundArgs v0 v1)) = { rx with
      selected := false, cmd := some (p.opc.byte .raset), args := boundArgs v0 v1, row := .bounds v0 v1, cur := .closed
      half := none, verdicts := rx.close.verdicts, undef := rx.close.undef } := by
  have hc : p.opc.cmd? (p.opc.byte .raset) = some .raset := Opcodes.cmd?_byte hd _
  have hcl := ({ rx with selected := true } : Rx).close_eq
  have hv2 : ({ rx with selected := true } : Rx).close.verdicts = rx.close.verdicts := by
    unfold Rx.close; cases h : rx.cur <;> simp [Rx.verdict, h, Rx.area?]
  have hu2 : ({ rx with selected := true } : Rx).close.undef = rx.close.undef := by
    unfold Rx.close; cases h : rx.cur <;> simp [Rx.verdict, h, Rx.area?]
  simp only [commandFrame, boundArgs_eq, List.map_cons, List.map_nil, List.cons_append, List.nil_append, Rx.run_cons,
    Rx.run_nil, Rx.event_select, Rx.event_dc]
  rw [Rx.event_command (rx := { rx with selected := true }) rfl ho]
  unfold Rx.command; simp only [hc]
  rw [hcl, hv2, hu2]
  simp only [Rx.event_data, ho, Rx.data, Option.bind_some, hc, Rx.rasetArg, List.nil_append, List.cons_append]
  simp [reversed, windowReg, Nat.not_lt.mpr hv]

/-- The column command's frame after the row command's. -/
theorem Rx.run_caset {p : Params} (hd : p.opc.distinct = true) {rx : Rx} (ho : rx.boot = .open) (hcur : rx.cur = .closed)
    {v0 v1 : Half} (hv : v0.toNat ≤ v1.toNat) :
    rx.run p (commandFrame (p.opc.byte .caset) (boundArgs v0 v1)) = { rx with
      selected := false, cmd := some (p.opc.byte .caset), args := boundArgs v0 v1, col := .bounds v0 v1, cur := .closed
      half := none } := by
  have hc : p.opc.cmd? (p.opc.byte .caset) = some .caset := Opcodes.cmd?_byte hd _
  have hcl : ({ rx with selected := true } : Rx).close = { rx with selected := true } := by simp [Rx.close, hcur]
  simp only [commandFrame, boundArgs_eq, List.map_cons, List.map_nil, List.cons_append, List.nil_append, Rx.run_cons,
    Rx.run_nil, Rx.event_select, Rx.event_dc]
  rw [Rx.event_command (rx := { rx with selected := true }) rfl ho]
  unfold Rx.command; simp only [hc]
  rw [hcl]
  simp only [Rx.event_data, ho, Rx.data, Option.bind_some, hc, Rx.casetArg, List.nil_append, List.cons_append]
  simp [reversed, windowReg, Nat.not_lt.mpr hv, hcur]

/-- The memory-write command's frame in a set window. -/
theorem Rx.run_ramwr {p : Params} (hd : p.opc.distinct = true) {rx : Rx} (ho : rx.boot = .open) (hcur : rx.cur = .closed)
    {r0 r1 c0 c1 : Half} (hrow : rx.row = .bounds r0 r1) (hcol : rx.col = .bounds c0 c1) :
    rx.run p (commandFrame (p.opc.byte .ramwr) []) = { rx with
      selected := false, cmd := some (p.opc.byte .ramwr), args := [], half := none, cur := .pos r0.toNat c0.toNat, cnt := 0 } := by
  have hc : p.opc.cmd? (p.opc.byte .ramwr) = some .ramwr := Opcodes.cmd?_byte hd _
  have hcl : ({ rx with selected := true } : Rx).close = { rx with selected := true } := by simp [Rx.close, hcur]
  simp only [commandFrame, List.map_nil, List.cons_append, List.nil_append, Rx.run_cons, Rx.run_nil, Rx.event_select,
    Rx.event_dc]
  rw [Rx.event_command (rx := { rx with selected := true }) rfl ho]
  unfold Rx.command; simp only [hc]
  rw [hcl]
  simp [Rx.ramwr, hrow, hcol]

/-- The receiver in an open window with nothing stored yet. -/
def Rx.opened (p : Params) (rx : Rx) (r0 r1 c0 c1 : Half) : Rx := { rx with
  selected := false, cmd := some (p.opc.byte .ramwr), args := [], half := none, row := .bounds r0 r1
  col := .bounds c0 c1, cur := .pos r0.toNat c0.toNat, cnt := 0, verdicts := rx.close.verdicts, undef := rx.close.undef }

/-- The three frames of SET_ADDRESS_WINDOW close the open window and open the new one (R74, R75, R77). -/
theorem Rx.run_window {p : Params} (hd : p.opc.distinct = true) {rx : Rx} (ho : rx.boot = .open) {r0 r1 c0 c1 : Half}
    (hr : r0.toNat ≤ r1.toNat) (hc : c0.toNat ≤ c1.toNat) :
    rx.run p (commandFrames p (windowTable r0 r1 c0 c1)) = rx.opened p r0 r1 c0 c1 := by
  simp only [commandFrames, windowTable, List.flatMap_cons, List.flatMap_nil, List.append_nil, Rx.run_append]
  rw [Rx.run_raset hd ho hr, Rx.run_caset hd (by simpa using ho) rfl hc,
    Rx.run_ramwr hd (by simpa using ho) rfl (r0 := r0) (r1 := r1) (c0 := c0) (c1 := c1) rfl rfl]
  rfl

/-! ### Pixel data under the 16-bit format -/

theorem Rx.store_eq (rx : Rx) (q : Pixel) : rx.store q = { rx with
    px := (rx.store q).px, cnt := (rx.store q).cnt, cur := (rx.store q).cur, undef := (rx.store q).undef } := by
  unfold Rx.store; split <;> rfl

theorem Rx.stores_eq (rx : Rx) (px : List Pixel) : px.foldl Rx.store rx = { rx with
    px := (px.foldl Rx.store rx).px, cnt := (px.foldl Rx.store rx).cnt, cur := (px.foldl Rx.store rx).cur
    undef := (px.foldl Rx.store rx).undef } := by
  induction px generalizing rx with
  | nil => rfl
  | cons q rest ih =>
    rw [List.foldl_cons, ih]
    rw [Rx.store_eq rx q]

/-- Selection takes no part in stores. -/
theorem Rx.stores_selected (rx : Rx) (v : Bool) (px : List Pixel) :
    px.foldl Rx.store { rx with selected := v } = { px.foldl Rx.store rx with selected := v } := by
  induction px generalizing rx with
  | nil => rfl
  | cons q rest ih =>
    simp only [List.foldl_cons]
    rw [← ih]
    congr 1
    unfold Rx.store; simp only; split <;> rfl

/-- Selection takes no part in closing. -/
theorem Rx.close_withSelected (rx : Rx) (v : Bool) : ({ rx with selected := v } : Rx).close = { rx.close with selected := v } := by
  unfold Rx.close; cases h : rx.cur <;> simp [Rx.verdict, h, Rx.area?]

/-- Whole pixels' bytes are stores, one after the other (R78). -/
theorem Rx.run_pixelBytes {p : Params} {rx : Rx} (hs : rx.selected = true) (ho : rx.boot = .open)
    (hr : rx.cmd.bind p.opc.cmd? = some .ramwr) (hf : rx.fmt = some p.pixfmtArg) (hh : rx.half = none) (px : List Pixel) :
    rx.run p ((pixelBytes px).map (.byte true)) = px.foldl Rx.store rx := by
  induction px generalizing rx with
  | nil => rfl
  | cons q rest ih =>
    simp only [pixelBytes, List.map_cons, Rx.run_cons, List.foldl_cons]
    rw [Rx.event_pixelByte hs ho hr]
    have h1 : rx.pixelByte p (hi8 q) = { rx with half := some (hi8 q) } := by
      unfold Rx.pixelByte; rw [if_pos hf, hh]
    rw [h1, Rx.event_pixelByte (by simpa using hs) (by simpa using ho) (by simpa using hr)]
    have h2 : ({ rx with half := some (hi8 q) } : Rx).pixelByte p (lo8 q) = rx.store q := by
      unfold Rx.pixelByte; simp only; rw [if_pos hf, ofBytes_hi8_lo8]
      congr 1; cases rx; simp at hh; simp [hh]
    rw [h2, Rx.store_eq]
    refine ih ?_ ?_ ?_ ?_ ?_ <;> simpa

/-- A data frame of whole pixels. -/
theorem Rx.run_dataFrame {p : Params} {rx : Rx} (ho : rx.boot = .open) (hr : rx.cmd.bind p.opc.cmd? = some .ramwr)
    (hf : rx.fmt = some p.pixfmtArg) (hh : rx.half = none) (px : List Pixel) :
    rx.run p (dataFrame (pixelBytes px)) = { px.foldl Rx.store rx with selected := false } := by
  simp only [dataFrame, List.cons_append, List.nil_append, Rx.run_cons, Rx.run_append, Rx.run_nil, Rx.event_select,
    Rx.event_dc, Rx.event_release]
  rw [Rx.run_pixelBytes (rx := { rx with selected := true }) rfl ho hr hf hh, Rx.stores_selected]
  have : (px.foldl Rx.store rx).half = none := by rw [Rx.stores_eq]; exact hh
  simp [this]

/-- The receiver in a memory-write command's data phase, ready for whole pixels (R76, R78, R81). -/
structure Rx.Streaming (p : Params) (rx : Rx) : Prop where
  boot : rx.boot = .open
  cmd : rx.cmd.bind p.opc.cmd? = some .ramwr
  fmt : rx.fmt = some p.pixfmtArg
  half : rx.half = none

theorem Rx.opened_streaming {p : Params} (hd : p.opc.distinct = true) {rx : Rx} (hb : rx.boot = .open)
    (hf : rx.fmt = some p.pixfmtArg) (r0 r1 c0 c1 : Half) : (rx.opened p r0 r1 c0 c1).Streaming p :=
  ⟨hb, by simp [Rx.opened, Opcodes.cmd?_byte hd], hf, rfl⟩

theorem Rx.stores_streaming {p : Params} {rx : Rx} (h : rx.Streaming p) (px : List Pixel) :
    ({ px.foldl Rx.store rx with selected := false } : Rx).Streaming p := by
  rw [Rx.stores_eq]; exact ⟨h.boot, h.cmd, h.fmt, h.half⟩

/-- Data frames one after the other are one pixel stream (R81). -/
theorem Rx.run_dataFrames {p : Params} {rx : Rx} (h : rx.Streaming p) (chunks : List (List Pixel)) (hne : chunks ≠ []) :
    rx.run p (chunks.flatMap fun px => dataFrame (pixelBytes px)) =
      { chunks.flatten.foldl Rx.store rx with selected := false } := by
  induction chunks generalizing rx with
  | nil => exact absurd rfl hne
  | cons px rest ih =>
    rw [List.flatMap_cons, Rx.run_append, Rx.run_dataFrame h.boot h.cmd h.fmt h.half]
    cases rest with
    | nil => simp
    | cons qx rest' =>
      have hf : (px :: qx :: rest').flatten = px ++ (qx :: rest').flatten := rfl
      rw [ih (Rx.stores_streaming h px) (by simp), hf, List.foldl_append, Rx.stores_selected]

/-! ### Filling a window (R79, R87) -/

/-- The place of pixel `n` in a window, the counter wrapping at the row bound. -/
def windowPos (r0 r1 c0 c1 n : Nat) : Nat × Nat := (r0 + n / (c1 - c0 + 1) % (r1 - r0 + 1), c0 + n % (c1 - c0 + 1))

theorem nextAddr_windowPos {r0 r1 c0 c1 : Nat} (hr : r0 ≤ r1) (hc : c0 ≤ c1) (n : Nat) :
    nextAddr r0 r1 c0 c1 (windowPos r0 r1 c0 c1 n).1 (windowPos r0 r1 c0 c1 n).2 = windowPos r0 r1 c0 c1 (n + 1) := by
  obtain ⟨w, hw⟩ : ∃ w, w = c1 - c0 + 1 := ⟨_, rfl⟩
  obtain ⟨h, hh⟩ : ∃ h, h = r1 - r0 + 1 := ⟨_, rfl⟩
  unfold windowPos nextAddr
  rw [← hw, ← hh]
  simp only
  have hm := Nat.mod_lt n (show 0 < w by omega)
  have hmh := Nat.mod_lt (n / w) (show 0 < h by omega)
  by_cases h1 : n % w + 1 < w
  · rw [if_pos (by omega)]
    have e1 : (n + 1) % w = n % w + 1 := by
      rw [Nat.add_mod, Nat.mod_eq_of_lt (show 1 < w by omega), Nat.mod_eq_of_lt h1]
    have e2 : (n + 1) / w = n / w := by
      rw [Nat.succ_div, if_neg, Nat.add_zero]
      intro hdv; have := Nat.mod_eq_zero_of_dvd hdv; omega
    rw [e1, e2]; simp; omega
  · rw [if_neg (by omega)]
    have hdv : w ∣ n + 1 := by
      refine Nat.dvd_of_mod_eq_zero ?_
      have : n % w = w - 1 := by omega
      rw [Nat.add_mod, this]
      by_cases hw1 : w = 1
      · subst hw1; rfl
      · rw [Nat.mod_eq_of_lt (show 1 < w by omega), show w - 1 + 1 = w by omega, Nat.mod_self]
    have e1 : (n + 1) % w = 0 := Nat.mod_eq_zero_of_dvd hdv
    have e2 : (n + 1) / w = n / w + 1 := by rw [Nat.succ_div, if_pos hdv]
    rw [e1, e2]
    by_cases h2 : n / w % h + 1 < h
    · rw [if_pos (by omega)]
      have e3 : (n / w + 1) % h = n / w % h + 1 := by
        rw [Nat.add_mod, Nat.mod_eq_of_lt (show 1 < h by omega), Nat.mod_eq_of_lt h2]
      rw [e3]; simp; omega
    · rw [if_neg (by omega)]
      have e3 : (n / w + 1) % h = 0 := by
        have : n / w % h = h - 1 := by omega
        rw [Nat.add_mod, this]
        by_cases hw1 : h = 1
        · subst hw1; rfl
        · rw [Nat.mod_eq_of_lt (show 1 < h by omega), show h - 1 + 1 = h by omega, Nat.mod_self]
      rw [e3]; simp

/-- The stores of pixels `n`, `n + 1`, ... of a window in row-major order. -/
def rowMajorFrom (r0 c0 w n : Nat) (px : List Pixel) : List PixelStore :=
  (px.zipIdx n).map fun pi => { r := r0 + pi.2 / w, c := c0 + pi.2 % w, p := pi.1 }

theorem rowMajorFrom_zero (r0 c0 w : Nat) (px : List Pixel) : rowMajorFrom r0 c0 w 0 px = rowMajor r0 c0 w px := rfl

theorem rowMajorFrom_append (r0 c0 w n : Nat) (px qx : List Pixel) :
    rowMajorFrom r0 c0 w n (px ++ qx) = rowMajorFrom r0 c0 w n px ++ rowMajorFrom r0 c0 w (n + px.length) qx := by
  simp [rowMajorFrom, List.zipIdx_append]

/-- The receiver in a window of which `n` pixels are stored. -/
structure Rx.Filling (rx : Rx) (r0 r1 c0 c1 : Half) (n : Nat) : Prop where
  row : rx.row = .bounds r0 r1
  col : rx.col = .bounds c0 c1
  cnt : rx.cnt = n
  cur : rx.cur = .pos (windowPos r0.toNat r1.toNat c0.toNat c1.toNat n).1 (windowPos r0.toNat r1.toNat c0.toNat c1.toNat n).2

/-- Stores that stay within the window's area (R79). -/
theorem Rx.stores_filling {r0 r1 c0 c1 : Half} (hr : r0.toNat ≤ r1.toNat) (hc : c0.toNat ≤ c1.toNat) {n : Nat} {rx : Rx}
    (h : rx.Filling r0 r1 c0 c1 n) (px : List Pixel)
    (ha : n + px.length ≤ windowArea r0.toNat r1.toNat c0.toNat c1.toNat) :
    (px.foldl Rx.store rx).Filling r0 r1 c0 c1 (n + px.length) ∧
      (px.foldl Rx.store rx).px = rx.px ++ rowMajorFrom r0.toNat c0.toNat (c1.toNat - c0.toNat + 1) n px ∧
      (px.foldl Rx.store rx).undef = rx.undef := by
  induction px generalizing n rx with
  | nil => simpa [rowMajorFrom] using h
  | cons q rest ih =>
    simp only [List.length_cons] at ha
    have hs : rx.store q = { rx with
        px := rx.px ++ [{ r := (windowPos r0.toNat r1.toNat c0.toNat c1.toNat n).1
                          c := (windowPos r0.toNat r1.toNat c0.toNat c1.toNat n).2, p := q }]
        cnt := n + 1
        cur := .pos (windowPos r0.toNat r1.toNat c0.toNat c1.toNat (n + 1)).1
          (windowPos r0.toNat r1.toNat c0.toNat c1.toNat (n + 1)).2
        undef := rx.undef } := by
      unfold Rx.store
      rw [h.cur, h.row, h.col]
      simp only [nextAddr_windowPos hr hc, h.cnt]
      have : ¬ windowArea r0.toNat r1.toNat c0.toNat c1.toNat ≤ n := by omega
      simp [this]
    have hpos : (windowPos r0.toNat r1.toNat c0.toNat c1.toNat n).1 = r0.toNat + n / (c1.toNat - c0.toNat + 1) := by
      simp only [windowPos]
      congr 1
      apply Nat.mod_eq_of_lt
      rw [Nat.div_lt_iff_lt_mul (by omega), Nat.mul_comm]
      unfold windowArea at ha; omega
    have hf : (rx.store q).Filling r0 r1 c0 c1 (n + 1) := by
      rw [hs]; exact ⟨h.row, h.col, rfl, rfl⟩
    obtain ⟨g1, g2, g3⟩ := ih hf (by omega)
    simp only [List.foldl_cons, List.length_cons]
    refine ⟨by rw [show n + (rest.length + 1) = n + 1 + rest.length by omega]; exact g1, ?_, ?_⟩
    · rw [g2, hs]
      simp only [List.append_assoc, List.cons_append, List.nil_append, rowMajorFrom, List.zipIdx_cons, List.map_cons]
      rw [hpos]; rfl
    · rw [g3, hs]

theorem Rx.opened_filling (p : Params) (rx : Rx) (r0 r1 c0 c1 : Half) : (rx.opened p r0 r1 c0 c1).Filling r0 r1 c0 c1 0 := by
  refine ⟨rfl, rfl, rfl, ?_⟩
  simp [Rx.opened, windowPos]

/-- How a window closes (R80): exactly filled, or short. -/
theorem Rx.close_filling {rx : Rx} {r0 r1 c0 c1 : Half} {n : Nat} (h : rx.Filling r0 r1 c0 c1 n)
    (ha : n ≤ windowArea r0.toNat r1.toNat c0.toNat c1.toNat) :
    rx.close.verdicts = rx.verdicts ++ [{ row := .bounds r0 r1, col := .bounds c0 c1, cnt := n
                                          verdict := if n = windowArea r0.toNat r1.toNat c0.toNat c1.toNat then .exact
                                            else .short }] ∧
      rx.close.undef = (rx.undef || decide (n ≠ windowArea r0.toNat r1.toNat c0.toNat c1.toNat)) := by
  unfold Rx.close
  simp only [h.cur, Rx.verdict, Rx.area?, h.row, h.col, h.cnt]
  by_cases he : n = windowArea r0.toNat r1.toNat c0.toNat c1.toNat
  · simp [he]
  · have : n < windowArea r0.toNat r1.toNat c0.toNat c1.toNat := by omega
    simp [he, this]

/-- Where row-major stores of a whole window lie. -/
theorem rowMajorFrom_mem {r0 c0 w n : Nat} {px : List Pixel} {e : PixelStore} (h : e ∈ rowMajorFrom r0 c0 w n px) :
    ∃ i, n ≤ i ∧ i < n + px.length ∧ e.r = r0 + i / w ∧ e.c = c0 + i % w ∧ px[i - n]? = some e.p := by
  simp only [rowMajorFrom, List.mem_map] at h
  obtain ⟨⟨q, i⟩, hi, rfl⟩ := h
  obtain ⟨h1, h2, h3⟩ := List.mem_zipIdx hi
  exact ⟨i, h1, by omega, rfl, rfl, by simp only; rw [h3]; simp⟩

end Sys2Proof.Machine
end

