-- ==== Sys2Proof/Laws/Controller.lean ====
section
/-! SUPPORT. The receiver through one whole command frame, exactly (20_memory.md R74 to R77): what each of the seven
commands does to it. -/

namespace Sys2Proof.Machine

/-- What is left of a command frame after its opcode byte: the arguments, then the release of chip-select. -/
theorem Rx.run_commandFrame {p : Params} {rx : Rx} (ho : rx.boot = .open) (opcode : Byte) (args : List Byte) :
    rx.run p (commandFrame opcode args) =
      (({ rx with selected := true } : Rx).command p opcode).run p (args.map (.byte true) ++ [.pin .csN true]) := by
  simp only [commandFrame, List.cons_append, List.nil_append, Rx.run_cons, Rx.event_select, Rx.event_dc]
  rw [Rx.event_command (rx := { rx with selected := true }) rfl ho]

/-- A command byte other than memory-write, from a selected receiver: the open window closes. -/
theorem Rx.command_closes {p : Params} {rx : Rx} {b : Byte} {c : Cmd} (hc : p.opc.cmd? b = some c) (hr : c ≠ .ramwr) :
    ({ rx with selected := true } : Rx).command p b =
      { rx with
        selected := true, cmd := some b, args := [], half := none, cur := .closed
        awake := rx.awake || decide (c = .slpout), on := rx.on || decide (c = .dispon)
        beforeOrient := if c = .madctl then rx.px.length else rx.beforeOrient
        verdicts := ({ rx with selected := true } : Rx).close.verdicts
        undef := ({ rx with selected := true } : Rx).close.undef } := by
  have hcl := ({ rx with selected := true } : Rx).close_eq
  unfold Rx.command
  simp only [hc]
  cases c
  case ramwr => exact absurd rfl hr
  all_goals rw [hcl]; simp

/-- The frame of SLPOUT (R74). -/
theorem Rx.frame_slpout {p : Params} (hd : p.opc.distinct = true) {rx : Rx} (ho : rx.boot = .open) :
    rx.run p (commandFrame (p.opc.byte .slpout) []) = { rx with
      selected := false, cmd := some (p.opc.byte .slpout), args := [], half := none, cur := .closed, awake := true
      verdicts := ({ rx with selected := true } : Rx).close.verdicts
      undef := ({ rx with selected := true } : Rx).close.undef } := by
  rw [Rx.run_commandFrame ho, Rx.command_closes (Opcodes.cmd?_byte hd .slpout) (by decide)]
  simp [Rx.run, Rx.event]

/-- The frame of DISPON (R74). -/
theorem Rx.frame_dispon {p : Params} (hd : p.opc.distinct = true) {rx : Rx} (ho : rx.boot = .open) :
    rx.run p (commandFrame (p.opc.byte .dispon) []) = { rx with
      selected := false, cmd := some (p.opc.byte .dispon), args := [], half := none, cur := .closed, on := true
      verdicts := ({ rx with selected := true } : Rx).close.verdicts
      undef := ({ rx with selected := true } : Rx).close.undef } := by
  rw [Rx.run_commandFrame ho, Rx.command_closes (Opcodes.cmd?_byte hd .dispon) (by decide)]
  simp [Rx.run, Rx.event]

/-- The frame of PIXSET (R76). -/
theorem Rx.frame_pixset {p : Params} (hd : p.opc.distinct = true) {rx : Rx} (ho : rx.boot = .open) (x : Byte) :
    rx.run p (commandFrame (p.opc.byte .pixset) [x]) = { rx with
      selected := false, cmd := some (p.opc.byte .pixset), args := [x], half := none, cur := .closed, fmt := some x
      verdicts := ({ rx with selected := true } : Rx).close.verdicts
      undef := ({ rx with selected := true } : Rx).close.undef } := by
  have hc := Opcodes.cmd?_byte hd .pixset
  rw [Rx.run_commandFrame ho, Rx.command_closes hc (by decide)]
  simp [Rx.run, Rx.event, Rx.byte, ho, Rx.data, hc, Rx.pixsetArg]

/-- The frame of MADCTL (R76). -/
theorem Rx.frame_madctl {p : Params} (hd : p.opc.distinct = true) {rx : Rx} (ho : rx.boot = .open) (x : Byte) :
    rx.run p (commandFrame (p.opc.byte .madctl) [x]) = { rx with
      selected := false, cmd := some (p.opc.byte .madctl), args := [x], half := none, cur := .closed, madctl := .byte x
      beforeOrient := rx.px.length
      verdicts := ({ rx with selected := true } : Rx).close.verdicts
      undef := ({ rx with selected := true } : Rx).close.undef } := by
  have hc := Opcodes.cmd?_byte hd .madctl
  rw [Rx.run_commandFrame ho, Rx.command_closes hc (by decide)]
  simp [Rx.run, Rx.event, Rx.byte, ho, Rx.data, hc, Rx.madctlArg]

/-- The frame of RASET (R75), the bounds in any order. -/
theorem Rx.frame_raset {p : Params} (hd : p.opc.distinct = true) {rx : Rx} (ho : rx.boot = .open) (v0 v1 : Half) :
    rx.run p (commandFrame (p.opc.byte .raset) (boundArgs v0 v1)) = { rx with
      selected := false, cmd := some (p.opc.byte .raset), args := boundArgs v0 v1, half := none, cur := .closed
      row := .bounds v0 v1, verdicts := ({ rx with selected := true } : Rx).close.verdicts
      undef := ({ rx with selected := true } : Rx).close.undef || decide (v1.toNat < v0.toNat) } := by
  have hc := Opcodes.cmd?_byte hd .raset
  rw [Rx.run_commandFrame ho, Rx.command_closes hc (by decide)]
  simp [Rx.run, Rx.event, Rx.byte, ho, Rx.data, hc, boundArgs_eq, Rx.rasetArg, windowReg, reversed]

/-- The frame of CASET (R75), the bounds in any order. -/
theorem Rx.frame_caset {p : Params} (hd : p.opc.distinct = true) {rx : Rx} (ho : rx.boot = .open) (v0 v1 : Half) :
    rx.run p (commandFrame (p.opc.byte .caset) (boundArgs v0 v1)) = { rx with
      selected := false, cmd := some (p.opc.byte .caset), args := boundArgs v0 v1, half := none, cur := .closed
      col := .bounds v0 v1, verdicts := ({ rx with selected := true } : Rx).close.verdicts
      undef := ({ rx with selected := true } : Rx).close.undef || decide (v1.toNat < v0.toNat) } := by
  have hc := Opcodes.cmd?_byte hd .caset
  rw [Rx.run_commandFrame ho, Rx.command_closes hc (by decide)]
  simp [Rx.run, Rx.event, Rx.byte, ho, Rx.data, hc, boundArgs_eq, Rx.casetArg, windowReg, reversed]

/-- The frame of RAMWR where both window registers are set (R77). -/
theorem Rx.frame_ramwr {p : Params} (hd : p.opc.distinct = true) {rx : Rx} (ho : rx.boot = .open) {r0 r1 c0 c1 : Half}
    (hrow : rx.row = .bounds r0 r1) (hcol : rx.col = .bounds c0 c1) :
    rx.run p (commandFrame (p.opc.byte .ramwr) []) = { rx with
      selected := false, cmd := some (p.opc.byte .ramwr), args := [], half := none
      cur := .pos r0.toNat c0.toNat, cnt := 0, verdicts := ({ rx with selected := true } : Rx).close.verdicts
      undef := ({ rx with selected := true } : Rx).close.undef } := by
  have hc := Opcodes.cmd?_byte hd .ramwr
  have hcl := ({ rx with selected := true } : Rx).close_eq
  rw [Rx.run_commandFrame ho]
  unfold Rx.command
  simp only [hc]
  rw [hcl]
  simp [Rx.run, Rx.event, Rx.ramwr, hrow, hcol]

/-- A trace that ends in a failed frame leaves the orientation byte indeterminate (R197 (d)). -/
theorem Rx.run_failed_madctl (p : Params) (rx : Rx) (evs : List Event) :
    (rx.run p (evs ++ [.xferFail, .pin .csN true])).madctl = .indeterminate := by
  rw [Rx.run_append]
  rfl

/-- The reset pulse and the settle wait (R73): everything unset, the history kept, bytes taken from here on. -/
theorem Rx.run_resetFrame (p : Params) (rx : Rx) :
    rx.run p (resetFrame p) = { Rx.start with
      selected := rx.selected, boot := .open, px := rx.px, beforeOrient := rx.beforeOrient, verdicts := rx.verdicts
      undef := rx.undef } := by
  simp [Rx.run, resetFrame, Rx.event, Rx.hardReset, BootPhase.releaseLine, BootPhase.waitOne]

end Sys2Proof.Machine
end

