-- ==== Sys2Proof/Laws/Display.lean ====
section
/-! SUPPORT. When content may be concluded, and what it is (20_memory.md R83). -/

namespace Sys2Proof.Machine

theorem startsWithInit_iff {p : Params} {tr : List Event} : startsWithInit p tr = true ↔
    ∃ row ∈ p.orientSet, resetFrame p ++ commandFrames p (p.initTable row.madctl) <+: tr := by
  simp [startsWithInit, List.any_eq_true, List.isPrefixOf_iff_prefix]

theorem State.traceDefined_iff {s : State} : s.traceDefined = true ↔ s.spi = .idle ∧ Event.xferFail ∉ s.tr ∧
    startsWithInit s.cfg s.tr = true ∧ s.rx.close.undef = false := by
  simp [State.traceDefined, and_assoc]

theorem State.isAddress_iff {s : State} {r c : Nat} : s.isAddress r c = true ↔
    ∃ nr nc, s.dims? = some (nr, nc) ∧ r < nr ∧ c < nc := by
  unfold State.isAddress
  cases s.dims? with
  | none => simp
  | some rc => obtain ⟨nr, nc⟩ := rc; simp

theorem State.cleared_iff {s : State} {nr nc : Nat} (hd : s.dims? = some (nr, nc)) : s.cleared = true ↔
    ∀ r c, r < nr → c < nc → ∃ e ∈ s.rx.px.drop s.rx.beforeOrient, e.r = r ∧ e.c = c := by
  simp only [State.cleared, hd, List.all_eq_true, List.mem_range, List.any_eq_true, Bool.and_eq_true, beq_iff_eq]
  exact ⟨fun h r c hr hc => h r hr c hc, fun h r hr c hc => h r c hr hc⟩

theorem State.glassKnown_iff {s : State} : s.glassKnown = true ↔ s.rx.beforeOrient = 0 ∨ s.cleared = true := by
  simp [State.glassKnown]

theorem State.displayDefined_iff {s : State} :
    s.displayDefined = true ↔ s.traceDefined = true ∧ s.glassKnown = true := by
  simp [State.displayDefined]

theorem State.pixel_defined {s : State} (h : s.displayDefined = true) {nr nc r c : Nat} (hd : s.dims? = some (nr, nc))
    (hr : r < nr) (hc : c < nc) : s.pixel r c = s.stored r c := by
  simp [State.pixel, h, State.isAddress_iff.mpr ⟨nr, nc, hd, hr, hc⟩]

/-- No content: at a place that is no address, on a trace that lets nothing be concluded, on a glass left open. -/
theorem State.pixel_none {s : State} {r c : Nat}
    (h : s.isAddress r c = true → s.traceDefined = true → s.glassKnown = true → False) : s.pixel r c = none := by
  unfold State.pixel
  split
  · rename_i hp
    rw [Bool.and_eq_true, State.displayDefined_iff] at hp
    exact (h hp.2 hp.1.1 hp.1.2).elim
  · rfl

/-- A run that goes on without a stall or a failure, and makes nothing undefined, still lets content be concluded. -/
theorem State.traceDefined_append {s t : State} {events : List Event} (hs : t.spi = .idle) (hc : t.cfg = s.cfg)
    (ht : t.tr = s.tr ++ events) (hf : Event.xferFail ∉ events) (hu : t.rx.close.undef = s.rx.close.undef)
    (h : s.traceDefined = true) : t.traceDefined = true := by
  rw [State.traceDefined_iff] at h ⊢
  obtain ⟨-, h1, h2, h3⟩ := h
  refine ⟨hs, by simp [ht, h1, hf], ?_, hu.trans h3⟩
  rw [startsWithInit_iff] at h2 ⊢
  obtain ⟨row, hr, hp⟩ := h2
  rw [hc, ht]
  exact ⟨row, hr, hp.trans (List.prefix_append _ _)⟩

/-- Stores under the same orientation leave what is known of the glass known. -/
theorem State.glassKnown_append {s t : State} {stores : List PixelStore} (hd : t.dims? = s.dims?)
    (hm : t.rx.beforeOrient = s.rx.beforeOrient) (hp : t.rx.px = s.rx.px ++ stores) (h : s.glassKnown = true) :
    t.glassKnown = true := by
  rw [State.glassKnown_iff] at h ⊢
  rcases h with h | h
  · exact .inl (hm.trans h)
  · right
    cases hdm : s.dims? with
    | none => simp [State.cleared, hdm] at h
    | some rc =>
      rw [State.cleared_iff hdm] at h
      rw [State.cleared_iff (hd.trans hdm)]
      intro r c hr hc
      obtain ⟨e, he, hrc⟩ := h r c hr hc
      exact ⟨e, by rw [hm, hp, List.drop_append]; exact List.mem_append_left _ he, hrc⟩

/-- Stores at every address clear the glass. -/
theorem State.cleared_of_stores {s t : State} {stores : List PixelStore} {nr nc : Nat} (hd : t.dims? = some (nr, nc))
    (hm : t.rx.beforeOrient = s.rx.beforeOrient) (hp : t.rx.px = s.rx.px ++ stores)
    (h : ∀ r c, r < nr → c < nc → ∃ e ∈ stores, e.r = r ∧ e.c = c) : t.cleared = true := by
  rw [State.cleared_iff hd]
  intro r c hr hc
  obtain ⟨e, he, hrc⟩ := h r c hr hc
  refine ⟨e, ?_, hrc⟩
  rw [hm, hp, List.drop_append_of_le_length s.rx_sane.mark]
  exact List.mem_append_right _ he

/-- After a memory-access-control command nothing is known of a glass that was drawn on. -/
theorem State.glass_open {s : State} (h0 : s.rx.px ≠ []) (hm : s.rx.beforeOrient = s.rx.px.length) {r c : Nat} :
    s.pixel r c = none := by
  refine State.pixel_none fun ha _ hg => ?_
  obtain ⟨nr, nc, hd, hr, hc⟩ := State.isAddress_iff.mp ha
  rcases State.glassKnown_iff.mp hg with h | h
  · rw [hm] at h; exact h0 (List.length_eq_zero_iff.mp h)
  · obtain ⟨e, he, -⟩ := (State.cleared_iff hd).mp h r c hr hc
    rw [hm, List.drop_length] at he
    exact absurd he (by simp)

/-- What an address holds after a list of stores: the pixel of the last store there. -/
theorem memoryOf_read_last (px : List PixelStore) (hc : ∀ e ∈ px, e.c < 65536) (r c : Nat) :
    (memoryOf px).read r c = (px.reverse.find? fun e => e.r == r && e.c == c).map PixelStore.p := by
  induction px using List.reverseRecOn with
  | nil => simp [memoryOf, PixelMemory.read, PixelMemory.load]
  | append_singleton rest e ih =>
    rw [memoryOf_append, List.foldl_cons, List.foldl_nil, PixelMemory.read_write _ _ (hc e (by simp)),
      ih (fun x hx => hc x (by simp [hx])), List.reverse_append, List.reverse_singleton, List.singleton_append,
      List.find?_cons]
    by_cases h : r = e.r ∧ c = e.c
    · obtain ⟨rfl, rfl⟩ := h; simp
    · have : (e.r == r && e.c == c) = false := by simp; omega
      rw [if_neg h, this]

/-- The pixel last stored at an address (R83). -/
theorem State.stored_eq (s : State) (r c : Nat) :
    s.stored r c = (s.rx.px.reverse.find? fun e => e.r == r && e.c == c).map PixelStore.p :=
  memoryOf_read_last _ s.rx_sane.stores r c

end Sys2Proof.Machine
end

