-- ==== Sys2Proof/Laws/State.lean ====
section
/-! SUPPORT. One lemma for each field and each named update of the state: what the update makes of the field. No
later proof unfolds an update. -/

namespace Sys2Proof.Machine

variable (s : State)

/-! ### emit -/

@[simp] theorem State.emit_ctrl (evs : List Event) : (s.emit evs).ctrl = s.ctrl := rfl
@[simp] theorem State.emit_initStep (evs : List Event) : (s.emit evs).initStep = s.initStep := rfl
@[simp] theorem State.emit_orient (evs : List Event) : (s.emit evs).orient = s.orient := rfl
@[simp] theorem State.emit_csN (evs : List Event) : (s.emit evs).csN = s.csN := rfl
@[simp] theorem State.emit_dc (evs : List Event) : (s.emit evs).dc = s.dc := rfl
@[simp] theorem State.emit_rstN (evs : List Event) : (s.emit evs).rstN = s.rstN := rfl
@[simp] theorem State.emit_latches (evs : List Event) : (s.emit evs).latches = s.latches := rfl
@[simp] theorem State.emit_tr (evs : List Event) : (s.emit evs).tr = s.tr ++ evs := rfl
@[simp] theorem State.emit_spi (evs : List Event) : (s.emit evs).spi = s.spi := rfl
@[simp] theorem State.emit_port (evs : List Event) : (s.emit evs).port = s.port := rfl
@[simp] theorem State.emit_bench (evs : List Event) : (s.emit evs).bench = s.bench := rfl
@[simp] theorem State.emit_completions (evs : List Event) : (s.emit evs).completions = s.completions := rfl
@[simp] theorem State.emit_cfg (evs : List Event) : (s.emit evs).cfg = s.cfg := rfl
@[simp] theorem State.emit_spiScript (evs : List Event) : (s.emit evs).spiScript = s.spiScript := rfl
@[simp] theorem State.emit_spiDrawn (evs : List Event) : (s.emit evs).spiDrawn = s.spiDrawn := rfl
@[simp] theorem State.emit_renderScript (evs : List Event) : (s.emit evs).renderScript = s.renderScript := rfl
@[simp] theorem State.emit_renderDrawn (evs : List Event) : (s.emit evs).renderDrawn = s.renderDrawn := rfl
@[simp] theorem State.emit_hostOrient (evs : List Event) : (s.emit evs).hostOrient = s.hostOrient := rfl

/-! ### wait -/

@[simp] theorem State.wait_ctrl (t : Nat) : (s.wait t).ctrl = s.ctrl := rfl
@[simp] theorem State.wait_initStep (t : Nat) : (s.wait t).initStep = s.initStep := rfl
@[simp] theorem State.wait_orient (t : Nat) : (s.wait t).orient = s.orient := rfl
@[simp] theorem State.wait_csN (t : Nat) : (s.wait t).csN = s.csN := rfl
@[simp] theorem State.wait_dc (t : Nat) : (s.wait t).dc = s.dc := rfl
@[simp] theorem State.wait_rstN (t : Nat) : (s.wait t).rstN = s.rstN := rfl
@[simp] theorem State.wait_latches (t : Nat) : (s.wait t).latches = s.latches := rfl
@[simp] theorem State.wait_tr (t : Nat) : (s.wait t).tr = s.tr ++ [.wait t] := rfl
@[simp] theorem State.wait_spi (t : Nat) : (s.wait t).spi = s.spi := rfl
@[simp] theorem State.wait_port (t : Nat) : (s.wait t).port = s.port := rfl
@[simp] theorem State.wait_bench (t : Nat) : (s.wait t).bench = s.bench := rfl
@[simp] theorem State.wait_completions (t : Nat) : (s.wait t).completions = s.completions := rfl
@[simp] theorem State.wait_cfg (t : Nat) : (s.wait t).cfg = s.cfg := rfl
@[simp] theorem State.wait_spiScript (t : Nat) : (s.wait t).spiScript = s.spiScript := rfl
@[simp] theorem State.wait_spiDrawn (t : Nat) : (s.wait t).spiDrawn = s.spiDrawn := rfl
@[simp] theorem State.wait_renderScript (t : Nat) : (s.wait t).renderScript = s.renderScript := rfl
@[simp] theorem State.wait_renderDrawn (t : Nat) : (s.wait t).renderDrawn = s.renderDrawn := rfl
@[simp] theorem State.wait_hostOrient (t : Nat) : (s.wait t).hostOrient = s.hostOrient := rfl

/-! ### complete -/

@[simp] theorem State.complete_ctrl (c : Completion) : (s.complete c).ctrl = s.ctrl := rfl
@[simp] theorem State.complete_initStep (c : Completion) : (s.complete c).initStep = s.initStep := rfl
@[simp] theorem State.complete_orient (c : Completion) : (s.complete c).orient = s.orient := rfl
@[simp] theorem State.complete_csN (c : Completion) : (s.complete c).csN = s.csN := rfl
@[simp] theorem State.complete_dc (c : Completion) : (s.complete c).dc = s.dc := rfl
@[simp] theorem State.complete_rstN (c : Completion) : (s.complete c).rstN = s.rstN := rfl
@[simp] theorem State.complete_latches (c : Completion) : (s.complete c).latches = s.latches := rfl
@[simp] theorem State.complete_tr (c : Completion) : (s.complete c).tr = s.tr := rfl
@[simp] theorem State.complete_spi (c : Completion) : (s.complete c).spi = s.spi := rfl
@[simp] theorem State.complete_port (c : Completion) : (s.complete c).port = s.port := rfl
@[simp] theorem State.complete_bench (c : Completion) : (s.complete c).bench = s.bench := rfl
@[simp] theorem State.complete_completions (c : Completion) : (s.complete c).completions = s.completions ++ [c] := rfl
@[simp] theorem State.complete_cfg (c : Completion) : (s.complete c).cfg = s.cfg := rfl
@[simp] theorem State.complete_spiScript (c : Completion) : (s.complete c).spiScript = s.spiScript := rfl
@[simp] theorem State.complete_spiDrawn (c : Completion) : (s.complete c).spiDrawn = s.spiDrawn := rfl
@[simp] theorem State.complete_renderScript (c : Completion) : (s.complete c).renderScript = s.renderScript := rfl
@[simp] theorem State.complete_renderDrawn (c : Completion) : (s.complete c).renderDrawn = s.renderDrawn := rfl
@[simp] theorem State.complete_hostOrient (c : Completion) : (s.complete c).hostOrient = s.hostOrient := rfl

/-! ### accept -/

@[simp] theorem State.accept_ctrl (op : BitVec 4) (a b c d : Half) : (s.accept op a b c d).ctrl = s.ctrl := rfl
@[simp] theorem State.accept_initStep (op : BitVec 4) (a b c d : Half) : (s.accept op a b c d).initStep = s.initStep := rfl
@[simp] theorem State.accept_orient (op : BitVec 4) (a b c d : Half) : (s.accept op a b c d).orient = s.orient := rfl
@[simp] theorem State.accept_csN (op : BitVec 4) (a b c d : Half) : (s.accept op a b c d).csN = s.csN := rfl
@[simp] theorem State.accept_dc (op : BitVec 4) (a b c d : Half) : (s.accept op a b c d).dc = s.dc := rfl
@[simp] theorem State.accept_rstN (op : BitVec 4) (a b c d : Half) : (s.accept op a b c d).rstN = s.rstN := rfl
@[simp] theorem State.accept_latches (op : BitVec 4) (a b c d : Half) : (s.accept op a b c d).latches = { opc := op, opa := a, opb := b, opc2 := c, opd := d } := rfl
@[simp] theorem State.accept_tr (op : BitVec 4) (a b c d : Half) : (s.accept op a b c d).tr = s.tr := rfl
@[simp] theorem State.accept_spi (op : BitVec 4) (a b c d : Half) : (s.accept op a b c d).spi = s.spi := rfl
@[simp] theorem State.accept_port (op : BitVec 4) (a b c d : Half) : (s.accept op a b c d).port = s.port := rfl
@[simp] theorem State.accept_bench (op : BitVec 4) (a b c d : Half) : (s.accept op a b c d).bench = s.bench := rfl
@[simp] theorem State.accept_completions (op : BitVec 4) (a b c d : Half) : (s.accept op a b c d).completions = s.completions := rfl
@[simp] theorem State.accept_cfg (op : BitVec 4) (a b c d : Half) : (s.accept op a b c d).cfg = s.cfg := rfl
@[simp] theorem State.accept_spiScript (op : BitVec 4) (a b c d : Half) : (s.accept op a b c d).spiScript = s.spiScript := rfl
@[simp] theorem State.accept_spiDrawn (op : BitVec 4) (a b c d : Half) : (s.accept op a b c d).spiDrawn = s.spiDrawn := rfl
@[simp] theorem State.accept_renderScript (op : BitVec 4) (a b c d : Half) : (s.accept op a b c d).renderScript = s.renderScript := rfl
@[simp] theorem State.accept_renderDrawn (op : BitVec 4) (a b c d : Half) : (s.accept op a b c d).renderDrawn = s.renderDrawn := rfl
@[simp] theorem State.accept_hostOrient (op : BitVec 4) (a b c d : Half) : (s.accept op a b c d).hostOrient = s.hostOrient := rfl

/-! ### withPort -/

@[simp] theorem State.withPort_ctrl (q : List Request) : (s.withPort q).ctrl = s.ctrl := rfl
@[simp] theorem State.withPort_initStep (q : List Request) : (s.withPort q).initStep = s.initStep := rfl
@[simp] theorem State.withPort_orient (q : List Request) : (s.withPort q).orient = s.orient := rfl
@[simp] theorem State.withPort_csN (q : List Request) : (s.withPort q).csN = s.csN := rfl
@[simp] theorem State.withPort_dc (q : List Request) : (s.withPort q).dc = s.dc := rfl
@[simp] theorem State.withPort_rstN (q : List Request) : (s.withPort q).rstN = s.rstN := rfl
@[simp] theorem State.withPort_latches (q : List Request) : (s.withPort q).latches = s.latches := rfl
@[simp] theorem State.withPort_tr (q : List Request) : (s.withPort q).tr = s.tr := rfl
@[simp] theorem State.withPort_spi (q : List Request) : (s.withPort q).spi = s.spi := rfl
@[simp] theorem State.withPort_port (q : List Request) : (s.withPort q).port = q := rfl
@[simp] theorem State.withPort_bench (q : List Request) : (s.withPort q).bench = s.bench := rfl
@[simp] theorem State.withPort_completions (q : List Request) : (s.withPort q).completions = s.completions := rfl
@[simp] theorem State.withPort_cfg (q : List Request) : (s.withPort q).cfg = s.cfg := rfl
@[simp] theorem State.withPort_spiScript (q : List Request) : (s.withPort q).spiScript = s.spiScript := rfl
@[simp] theorem State.withPort_spiDrawn (q : List Request) : (s.withPort q).spiDrawn = s.spiDrawn := rfl
@[simp] theorem State.withPort_renderScript (q : List Request) : (s.withPort q).renderScript = s.renderScript := rfl
@[simp] theorem State.withPort_renderDrawn (q : List Request) : (s.withPort q).renderDrawn = s.renderDrawn := rfl
@[simp] theorem State.withPort_hostOrient (q : List Request) : (s.withPort q).hostOrient = s.hostOrient := rfl

/-! ### withBench -/

@[simp] theorem State.withBench_ctrl (q : List Request) : (s.withBench q).ctrl = s.ctrl := rfl
@[simp] theorem State.withBench_initStep (q : List Request) : (s.withBench q).initStep = s.initStep := rfl
@[simp] theorem State.withBench_orient (q : List Request) : (s.withBench q).orient = s.orient := rfl
@[simp] theorem State.withBench_csN (q : List Request) : (s.withBench q).csN = s.csN := rfl
@[simp] theorem State.withBench_dc (q : List Request) : (s.withBench q).dc = s.dc := rfl
@[simp] theorem State.withBench_rstN (q : List Request) : (s.withBench q).rstN = s.rstN := rfl
@[simp] theorem State.withBench_latches (q : List Request) : (s.withBench q).latches = s.latches := rfl
@[simp] theorem State.withBench_tr (q : List Request) : (s.withBench q).tr = s.tr := rfl
@[simp] theorem State.withBench_spi (q : List Request) : (s.withBench q).spi = s.spi := rfl
@[simp] theorem State.withBench_port (q : List Request) : (s.withBench q).port = s.port := rfl
@[simp] theorem State.withBench_bench (q : List Request) : (s.withBench q).bench = q := rfl
@[simp] theorem State.withBench_completions (q : List Request) : (s.withBench q).completions = s.completions := rfl
@[simp] theorem State.withBench_cfg (q : List Request) : (s.withBench q).cfg = s.cfg := rfl
@[simp] theorem State.withBench_spiScript (q : List Request) : (s.withBench q).spiScript = s.spiScript := rfl
@[simp] theorem State.withBench_spiDrawn (q : List Request) : (s.withBench q).spiDrawn = s.spiDrawn := rfl
@[simp] theorem State.withBench_renderScript (q : List Request) : (s.withBench q).renderScript = s.renderScript := rfl
@[simp] theorem State.withBench_renderDrawn (q : List Request) : (s.withBench q).renderDrawn = s.renderDrawn := rfl
@[simp] theorem State.withBench_hostOrient (q : List Request) : (s.withBench q).hostOrient = s.hostOrient := rfl

/-! ### noteOrient -/

@[simp] theorem State.noteOrient_ctrl (o : Half) : (s.noteOrient o).ctrl = s.ctrl := rfl
@[simp] theorem State.noteOrient_initStep (o : Half) : (s.noteOrient o).initStep = s.initStep := rfl
@[simp] theorem State.noteOrient_orient (o : Half) : (s.noteOrient o).orient = s.orient := rfl
@[simp] theorem State.noteOrient_csN (o : Half) : (s.noteOrient o).csN = s.csN := rfl
@[simp] theorem State.noteOrient_dc (o : Half) : (s.noteOrient o).dc = s.dc := rfl
@[simp] theorem State.noteOrient_rstN (o : Half) : (s.noteOrient o).rstN = s.rstN := rfl
@[simp] theorem State.noteOrient_latches (o : Half) : (s.noteOrient o).latches = s.latches := rfl
@[simp] theorem State.noteOrient_tr (o : Half) : (s.noteOrient o).tr = s.tr := rfl
@[simp] theorem State.noteOrient_spi (o : Half) : (s.noteOrient o).spi = s.spi := rfl
@[simp] theorem State.noteOrient_port (o : Half) : (s.noteOrient o).port = s.port := rfl
@[simp] theorem State.noteOrient_bench (o : Half) : (s.noteOrient o).bench = s.bench := rfl
@[simp] theorem State.noteOrient_completions (o : Half) : (s.noteOrient o).completions = s.completions := rfl
@[simp] theorem State.noteOrient_cfg (o : Half) : (s.noteOrient o).cfg = s.cfg := rfl
@[simp] theorem State.noteOrient_spiScript (o : Half) : (s.noteOrient o).spiScript = s.spiScript := rfl
@[simp] theorem State.noteOrient_spiDrawn (o : Half) : (s.noteOrient o).spiDrawn = s.spiDrawn := rfl
@[simp] theorem State.noteOrient_renderScript (o : Half) : (s.noteOrient o).renderScript = s.renderScript := rfl
@[simp] theorem State.noteOrient_renderDrawn (o : Half) : (s.noteOrient o).renderDrawn = s.renderDrawn := rfl
@[simp] theorem State.noteOrient_hostOrient (o : Half) : (s.noteOrient o).hostOrient = some o := rfl

/-! ### drawChoice -/

@[simp] theorem State.drawChoice_ctrl : (s.drawChoice).ctrl = s.ctrl := rfl
@[simp] theorem State.drawChoice_initStep : (s.drawChoice).initStep = s.initStep := rfl
@[simp] theorem State.drawChoice_orient : (s.drawChoice).orient = s.orient := rfl
@[simp] theorem State.drawChoice_csN : (s.drawChoice).csN = s.csN := rfl
@[simp] theorem State.drawChoice_dc : (s.drawChoice).dc = s.dc := rfl
@[simp] theorem State.drawChoice_rstN : (s.drawChoice).rstN = s.rstN := rfl
@[simp] theorem State.drawChoice_latches : (s.drawChoice).latches = s.latches := rfl
@[simp] theorem State.drawChoice_tr : (s.drawChoice).tr = s.tr := rfl
@[simp] theorem State.drawChoice_spi : (s.drawChoice).spi = s.spi := rfl
@[simp] theorem State.drawChoice_port : (s.drawChoice).port = s.port := rfl
@[simp] theorem State.drawChoice_bench : (s.drawChoice).bench = s.bench := rfl
@[simp] theorem State.drawChoice_completions : (s.drawChoice).completions = s.completions := rfl
@[simp] theorem State.drawChoice_cfg : (s.drawChoice).cfg = s.cfg := rfl
@[simp] theorem State.drawChoice_spiScript : (s.drawChoice).spiScript = s.spiScript := rfl
@[simp] theorem State.drawChoice_spiDrawn : (s.drawChoice).spiDrawn = s.spiDrawn := rfl
@[simp] theorem State.drawChoice_renderScript : (s.drawChoice).renderScript = s.renderScript := rfl
@[simp] theorem State.drawChoice_renderDrawn : (s.drawChoice).renderDrawn = s.renderDrawn + 1 := rfl
@[simp] theorem State.drawChoice_hostOrient : (s.drawChoice).hostOrient = s.hostOrient := rfl

/-! ### commandDone -/

@[simp] theorem State.commandDone_ctrl (o : Half) (k : Nat) : (commandDone o k s).ctrl = s.ctrl := rfl
@[simp] theorem State.commandDone_initStep (o : Half) (k : Nat) : (commandDone o k s).initStep = BitVec.ofNat 3 (k + 1) := rfl
@[simp] theorem State.commandDone_orient (o : Half) (k : Nat) : (commandDone o k s).orient = if k = 2 then some o else s.orient := rfl
@[simp] theorem State.commandDone_csN (o : Half) (k : Nat) : (commandDone o k s).csN = s.csN := rfl
@[simp] theorem State.commandDone_dc (o : Half) (k : Nat) : (commandDone o k s).dc = s.dc := rfl
@[simp] theorem State.commandDone_rstN (o : Half) (k : Nat) : (commandDone o k s).rstN = s.rstN := rfl
@[simp] theorem State.commandDone_latches (o : Half) (k : Nat) : (commandDone o k s).latches = s.latches := rfl
@[simp] theorem State.commandDone_tr (o : Half) (k : Nat) : (commandDone o k s).tr = s.tr := rfl
@[simp] theorem State.commandDone_spi (o : Half) (k : Nat) : (commandDone o k s).spi = s.spi := rfl
@[simp] theorem State.commandDone_port (o : Half) (k : Nat) : (commandDone o k s).port = s.port := rfl
@[simp] theorem State.commandDone_bench (o : Half) (k : Nat) : (commandDone o k s).bench = s.bench := rfl
@[simp] theorem State.commandDone_completions (o : Half) (k : Nat) : (commandDone o k s).completions = s.completions := rfl
@[simp] theorem State.commandDone_cfg (o : Half) (k : Nat) : (commandDone o k s).cfg = s.cfg := rfl
@[simp] theorem State.commandDone_spiScript (o : Half) (k : Nat) : (commandDone o k s).spiScript = s.spiScript := rfl
@[simp] theorem State.commandDone_spiDrawn (o : Half) (k : Nat) : (commandDone o k s).spiDrawn = s.spiDrawn := rfl
@[simp] theorem State.commandDone_renderScript (o : Half) (k : Nat) : (commandDone o k s).renderScript = s.renderScript := rfl
@[simp] theorem State.commandDone_renderDrawn (o : Half) (k : Nat) : (commandDone o k s).renderDrawn = s.renderDrawn := rfl
@[simp] theorem State.commandDone_hostOrient (o : Half) (k : Nat) : (commandDone o k s).hostOrient = s.hostOrient := rfl

/-! ### resetPulse -/

@[simp] theorem State.resetPulse_ctrl : (resetPulse s).ctrl = .initializing := rfl
@[simp] theorem State.resetPulse_initStep : (resetPulse s).initStep = 0 := rfl
@[simp] theorem State.resetPulse_orient : (resetPulse s).orient = s.orient := rfl
@[simp] theorem State.resetPulse_csN : (resetPulse s).csN = s.csN := rfl
@[simp] theorem State.resetPulse_dc : (resetPulse s).dc = s.dc := rfl
@[simp] theorem State.resetPulse_rstN : (resetPulse s).rstN = true := rfl
@[simp] theorem State.resetPulse_latches : (resetPulse s).latches = s.latches := rfl
@[simp] theorem State.resetPulse_tr : (resetPulse s).tr = s.tr ++ [.pin .rstN false] ++ [.wait s.cfg.tRstPulse] ++ [.pin .rstN true] ++ [.wait s.cfg.tSettle] := rfl
@[simp] theorem State.resetPulse_spi : (resetPulse s).spi = s.spi := rfl
@[simp] theorem State.resetPulse_port : (resetPulse s).port = s.port := rfl
@[simp] theorem State.resetPulse_bench : (resetPulse s).bench = s.bench := rfl
@[simp] theorem State.resetPulse_completions : (resetPulse s).completions = s.completions := rfl
@[simp] theorem State.resetPulse_cfg : (resetPulse s).cfg = s.cfg := rfl
@[simp] theorem State.resetPulse_spiScript : (resetPulse s).spiScript = s.spiScript := rfl
@[simp] theorem State.resetPulse_spiDrawn : (resetPulse s).spiDrawn = s.spiDrawn := rfl
@[simp] theorem State.resetPulse_renderScript : (resetPulse s).renderScript = s.renderScript := rfl
@[simp] theorem State.resetPulse_renderDrawn : (resetPulse s).renderDrawn = s.renderDrawn := rfl
@[simp] theorem State.resetPulse_hostOrient : (resetPulse s).hostOrient = s.hostOrient := rfl

/-! ### drive -/

@[simp] theorem State.drive_ctrl (p : Pin) (v : Bool) : (s.drive p v).ctrl = s.ctrl := by cases p <;> rfl
@[simp] theorem State.drive_initStep (p : Pin) (v : Bool) : (s.drive p v).initStep = s.initStep := by cases p <;> rfl
@[simp] theorem State.drive_orient (p : Pin) (v : Bool) : (s.drive p v).orient = s.orient := by cases p <;> rfl
@[simp] theorem State.drive_csN_csN (v : Bool) : (s.drive .csN v).csN = v := rfl
@[simp] theorem State.drive_dc_csN (v : Bool) : (s.drive .dc v).csN = s.csN := rfl
@[simp] theorem State.drive_rstN_csN (v : Bool) : (s.drive .rstN v).csN = s.csN := rfl
@[simp] theorem State.drive_csN_dc (v : Bool) : (s.drive .csN v).dc = s.dc := rfl
@[simp] theorem State.drive_dc_dc (v : Bool) : (s.drive .dc v).dc = v := rfl
@[simp] theorem State.drive_rstN_dc (v : Bool) : (s.drive .rstN v).dc = s.dc := rfl
@[simp] theorem State.drive_csN_rstN (v : Bool) : (s.drive .csN v).rstN = s.rstN := rfl
@[simp] theorem State.drive_dc_rstN (v : Bool) : (s.drive .dc v).rstN = s.rstN := rfl
@[simp] theorem State.drive_rstN_rstN (v : Bool) : (s.drive .rstN v).rstN = v := rfl
@[simp] theorem State.drive_latches (p : Pin) (v : Bool) : (s.drive p v).latches = s.latches := by cases p <;> rfl
@[simp] theorem State.drive_tr (p : Pin) (v : Bool) : (s.drive p v).tr = s.tr ++ [.pin p v] := by cases p <;> rfl
@[simp] theorem State.drive_spi (p : Pin) (v : Bool) : (s.drive p v).spi = s.spi := by cases p <;> rfl
@[simp] theorem State.drive_port (p : Pin) (v : Bool) : (s.drive p v).port = s.port := by cases p <;> rfl
@[simp] theorem State.drive_bench (p : Pin) (v : Bool) : (s.drive p v).bench = s.bench := by cases p <;> rfl
@[simp] theorem State.drive_completions (p : Pin) (v : Bool) : (s.drive p v).completions = s.completions := by cases p <;> rfl
@[simp] theorem State.drive_cfg (p : Pin) (v : Bool) : (s.drive p v).cfg = s.cfg := by cases p <;> rfl
@[simp] theorem State.drive_spiScript (p : Pin) (v : Bool) : (s.drive p v).spiScript = s.spiScript := by cases p <;> rfl
@[simp] theorem State.drive_spiDrawn (p : Pin) (v : Bool) : (s.drive p v).spiDrawn = s.spiDrawn := by cases p <;> rfl
@[simp] theorem State.drive_renderScript (p : Pin) (v : Bool) : (s.drive p v).renderScript = s.renderScript := by cases p <;> rfl
@[simp] theorem State.drive_renderDrawn (p : Pin) (v : Bool) : (s.drive p v).renderDrawn = s.renderDrawn := by cases p <;> rfl
@[simp] theorem State.drive_hostOrient (p : Pin) (v : Bool) : (s.drive p v).hostOrient = s.hostOrient := by cases p <;> rfl

/-! ### Values that depend on few fields -/

/-- An answer depends on the script alone. -/
theorem State.answerAt_congr {s t : State} (h : t.spiScript = s.spiScript) (n : Nat) : t.answerAt n = s.answerAt n := by
  simp [State.answerAt, h]

@[simp] theorem State.answerAt_emit (evs : List Event) (n : Nat) : (s.emit evs).answerAt n = s.answerAt n := rfl
@[simp] theorem State.answerAt_drive (p : Pin) (v : Bool) (n : Nat) : (s.drive p v).answerAt n = s.answerAt n := by
  cases p <;> rfl
@[simp] theorem State.answerAt_accept (op : BitVec 4) (a b c d : Half) (n : Nat) :
    (s.accept op a b c d).answerAt n = s.answerAt n := rfl
@[simp] theorem State.answerAt_noteOrient (o : Half) (n : Nat) : (s.noteOrient o).answerAt n = s.answerAt n := rfl
@[simp] theorem State.answerAt_drawChoice (n : Nat) : s.drawChoice.answerAt n = s.answerAt n := rfl
@[simp] theorem State.answerAt_commandDone (o : Half) (k n : Nat) : (commandDone o k s).answerAt n = s.answerAt n := rfl
@[simp] theorem State.answerAt_resetPulse (n : Nat) : (resetPulse s).answerAt n = s.answerAt n := rfl

@[simp] theorem State.dims?_accept (op : BitVec 4) (a b c d : Half) : (s.accept op a b c d).dims? = s.dims? := rfl
@[simp] theorem State.dims?_noteOrient (o : Half) : (s.noteOrient o).dims? = s.dims? := rfl
@[simp] theorem State.dims?_drawChoice : s.drawChoice.dims? = s.dims? := rfl

end Sys2Proof.Machine
end

