-- ==== Sys2Proof/Laws/Ops.lean ====
section
/-! SUPPORT. What each shared operation can do, said once. First the exact next state where the SPI master's
answers are known; then, for every answer, the relation `Ran`: which events were appended, what else changed, and
how the status shows in both. Callers cite these and never unfold a primitive. -/

namespace Sys2Proof.Machine

/-! ### Sequencing -/

@[simp] theorem andThen_ok (s : State) (f : State → State × Status) : andThen (s, .ok) f = f s := rfl
@[simp] theorem andThen_failed (s : State) (f : State → State × Status) : andThen (s, .failed) f = (s, .failed) := rfl
@[simp] theorem andThen_stuck (s : State) (f : State → State × Status) : andThen (s, .stuck) f = (s, .stuck) := rfl
@[simp] theorem release_ok (s : State) : release (s, .ok) = (s.drive .csN true, .ok) := rfl
@[simp] theorem release_failed (s : State) : release (s, .failed) = (s.drive .csN true, .failed) := rfl
@[simp] theorem release_stuck (s : State) : release (s, .stuck) = (s, .stuck) := rfl
@[simp] theorem finish_ok (err : Completion) (s : State) : finish err (s, .ok) = s.complete .ok := rfl
@[simp] theorem finish_failed (err : Completion) (s : State) : finish err (s, .failed) = s.complete err := rfl
@[simp] theorem finish_stuck (err : Completion) (s : State) : finish err (s, .stuck) = s := rfl
@[simp] theorem settle_ok (err : Completion) (r : State × Status) : settle err (.ok r) = .next (finish err r) := rfl
@[simp] theorem settle_error (err : Completion) (e : Refusal) : settle err (.error e) = .refused e := rfl
@[simp] theorem andThenHost_error (e : Refusal) (f : State → Except Refusal (State × Status)) :
    andThenHost (.error e) f = .error e := rfl
@[simp] theorem andThenHost_ok (s : State) (f : State → Except Refusal (State × Status)) :
    andThenHost (.ok (s, .ok)) f = f s := rfl
@[simp] theorem andThenHost_failed (s : State) (f : State → Except Refusal (State × Status)) :
    andThenHost (.ok (s, .failed)) f = .ok (s, .failed) := rfl
@[simp] theorem andThenHost_stuck (s : State) (f : State → Except Refusal (State × Status)) :
    andThenHost (.ok (s, .stuck)) f = .ok (s, .stuck) := rfl

@[simp] theorem noted_ok (o : Half) (s : State) : noted o (s, .ok) = (s.noteOrient o, .ok) := rfl
@[simp] theorem noted_failed (o : Half) (s : State) : noted o (s, .failed) = (s, .failed) := rfl
@[simp] theorem noted_stuck (o : Half) (s : State) : noted o (s, .stuck) = (s, .stuck) := rfl

/-- What the host's note changes: what it knows, if all went well. -/
theorem noted_eq (o : Half) (r : State × Status) :
    noted o r = (if r.2 = .ok then r.1.noteOrient o else r.1, r.2) := by
  obtain ⟨t, st⟩ := r
  cases st <;> rfl

theorem whenRunning_idle {s : State} (h : s.spi = .idle) (k : State → Host.Outcome State Fault Refusal) :
    whenRunning s k = k s := by simp [whenRunning, h]

theorem whenRunning_stalled {s : State} (h : s.spi = .stalled) (k : State → Host.Outcome State Fault Refusal) :
    whenRunning s k = .fault .transferStalled := by simp [whenRunning, h]

theorem whenReady_ready {s : State} (h : s.ctrl = .ready) (k : State → Except Refusal (State × Status)) :
    whenReady s k = k s := by simp [whenReady, h]

theorem whenReady_notReady {s : State} (h : s.ctrl ≠ .ready) (k : State → Except Refusal (State × Status)) :
    whenReady s k = .error .notReady := by
  unfold whenReady; cases hc : s.ctrl <;> simp_all

theorem whenUnpowered_unpowered {s : State} (h : s.ctrl = .unpowered) (k : State → Except Refusal (State × Status)) :
    whenUnpowered s k = k s := by simp [whenUnpowered, h]

theorem whenUnpowered_other {s : State} (h : s.ctrl ≠ .unpowered) (k : State → Except Refusal (State × Status)) :
    whenUnpowered s k = .error .notUnpowered := by
  unfold whenUnpowered; cases hc : s.ctrl <;> simp_all

/-! ### Exact next states -/

/-- A state after primitives that ended in `Ok`: both lines high, the frames appended, the answers drawn. -/
def State.sent (s : State) (evs : List Event) (n : Nat) : State :=
  { s with csN := true, dc := true, tr := s.tr ++ evs, spiDrawn := s.spiDrawn + n }

theorem xfer_ok {s : State} (h : s.answerAt s.spiDrawn = .ok) (bs : List Byte) :
    xfer bs s = ({ s with tr := s.tr ++ bs.map (.byte s.dc), spiDrawn := s.spiDrawn + 1 }, .ok) := by
  simp [xfer, h, State.emit]

theorem xfer_fail {s : State} {k : Nat} (h : s.answerAt s.spiDrawn = .fail k) (bs : List Byte) :
    xfer bs s = ({ s with
      tr := s.tr ++ ((bs.take (deliveredOnFail k bs.length)).map (.byte s.dc) ++ [.xferFail])
      spiDrawn := s.spiDrawn + 1 }, .failed) := by
  simp [xfer, h, State.emit]

theorem xfer_stall {s : State} (h : s.answerAt s.spiDrawn = .stall) (bs : List Byte) :
    xfer bs s = ({ s with spiDrawn := s.spiDrawn + 1, spi := .stalled }, .stuck) := by
  simp [xfer, h]

/-- Every answer is one of three. -/
theorem answer_cases (a : SpiAnswer) : a = .ok ∨ (∃ k, a = .fail k) ∨ a = .stall := by
  cases a <;> simp

/-- How many transfers a list of bytes takes (R141 line 5, R143 line 3). -/
def transfers (bs : List Byte) : Nat := if bs = [] then 0 else 1

theorem sendCommand_ok {s : State} {args : List Byte} (h : s.answersOk (1 + transfers args)) (opcode : Byte) :
    sendCommand opcode args s = (s.sent (commandFrame opcode args) (1 + transfers args), .ok) := by
  have h0 : s.answerAt s.spiDrawn = .ok := by simpa using h 0 (by omega)
  cases args with
  | nil =>
    simp only [State.answerAt] at h0
    simp [sendCommand, xfer, xferIfAny, State.sent, commandFrame, transfers, State.drive, State.setPin, State.emit,
      State.answerAt, h0]
  | cons a as =>
    have h1 : s.answerAt (s.spiDrawn + 1) = .ok := h 1 (by simp [transfers])
    simp only [State.answerAt] at h0 h1
    simp [sendCommand, xfer, xferIfAny, State.sent, commandFrame, transfers, State.drive, State.setPin, State.emit,
      State.answerAt, h0, h1]

theorem sendCommand_failsOpcode {s : State} {k : Nat} (h : s.answerAt s.spiDrawn = .fail k) (opcode : Byte) (args : List Byte) :
    sendCommand opcode args s =
      ({ s with csN := true, dc := false, tr := s.tr ++ opcodeFailedFrame, spiDrawn := s.spiDrawn + 1 }, .failed) := by
  simp only [State.answerAt] at h
  simp [sendCommand, xfer, State.drive, State.setPin, State.emit, State.answerAt, h, opcodeFailedFrame, deliveredOnFail]

theorem sendCommand_failsArgs {s : State} {k : Nat} {args : List Byte} (h : s.failsAt 1 k) (ha : args ≠ []) (opcode : Byte) :
    sendCommand opcode args s =
      ({ s with csN := true, dc := true, tr := s.tr ++ argsFailedFrame opcode args (deliveredOnFail k args.length)
                spiDrawn := s.spiDrawn + 2 }, .failed) := by
  obtain ⟨h0, h1⟩ := h
  have h0 : s.answerAt s.spiDrawn = .ok := by simpa using h0 0 (by omega)
  simp only [State.answerAt] at h0 h1
  cases args with
  | nil => exact absurd rfl ha
  | cons a as =>
    simp [sendCommand, xfer, xferIfAny, State.drive, State.setPin, State.emit, State.answerAt, h0, h1, argsFailedFrame]

theorem sendCommand_stallsOpcode {s : State} (h : s.answerAt s.spiDrawn = .stall) (opcode : Byte) (args : List Byte) :
    sendCommand opcode args s =
      ({ s with csN := false, dc := false, tr := s.tr ++ [.pin .csN false, .pin .dc false], spiDrawn := s.spiDrawn + 1
                spi := .stalled }, .stuck) := by
  simp only [State.answerAt] at h
  simp [sendCommand, xfer, State.drive, State.setPin, State.emit, State.answerAt, h]

theorem sendCommand_stallsArgs {s : State} {args : List Byte} (h : s.stallsAt 1) (ha : args ≠ []) (opcode : Byte) :
    sendCommand opcode args s =
      ({ s with csN := false, dc := true
                tr := s.tr ++ [.pin .csN false, .pin .dc false, .byte false opcode, .pin .dc true]
                spiDrawn := s.spiDrawn + 2, spi := .stalled }, .stuck) := by
  obtain ⟨h0, h1⟩ := h
  have h0 : s.answerAt s.spiDrawn = .ok := by simpa using h0 0 (by omega)
  simp only [State.answerAt] at h0 h1
  cases args with
  | nil => exact absurd rfl ha
  | cons a as => simp [sendCommand, xfer, xferIfAny, State.drive, State.setPin, State.emit, State.answerAt, h0, h1]

theorem sendPixels_ok {s : State} {bytes : List Byte} (h : s.answersOk (transfers bytes)) :
    sendPixels bytes s = (s.sent (dataFrame bytes) (transfers bytes), .ok) := by
  cases bytes with
  | nil => simp [sendPixels, xferIfAny, State.sent, dataFrame, transfers, State.drive, State.setPin, State.emit]
  | cons a as =>
    have h0 : s.answerAt s.spiDrawn = .ok := by simpa using h 0 (by simp [transfers])
    simp only [State.answerAt] at h0
    simp [sendPixels, xfer, xferIfAny, State.sent, dataFrame, transfers, State.drive, State.setPin, State.emit,
      State.answerAt, h0]

theorem sendPixels_fails {s : State} {k : Nat} {bytes : List Byte} (h : s.answerAt s.spiDrawn = .fail k) (hb : bytes ≠ []) :
    sendPixels bytes s =
      ({ s with csN := true, dc := true, tr := s.tr ++ dataFailedFrame bytes (deliveredOnFail k bytes.length)
                spiDrawn := s.spiDrawn + 1 }, .failed) := by
  simp only [State.answerAt] at h
  cases bytes with
  | nil => exact absurd rfl hb
  | cons a as =>
    simp [sendPixels, xfer, xferIfAny, State.drive, State.setPin, State.emit, State.answerAt, h, dataFailedFrame]

theorem sendPixels_stalls {s : State} {bytes : List Byte} (h : s.answerAt s.spiDrawn = .stall) (hb : bytes ≠ []) :
    sendPixels bytes s =
      ({ s with csN := false, dc := true, tr := s.tr ++ [.pin .csN false, .pin .dc true], spiDrawn := s.spiDrawn + 1
                spi := .stalled }, .stuck) := by
  simp only [State.answerAt] at h
  cases bytes with
  | nil => exact absurd rfl hb
  | cons a as => simp [sendPixels, xfer, xferIfAny, State.drive, State.setPin, State.emit, State.answerAt, h]

/-! ### `sent` composes -/

@[simp] theorem State.sent_cfg (s : State) (evs : List Event) (n : Nat) : (s.sent evs n).cfg = s.cfg := rfl
@[simp] theorem State.sent_spi (s : State) (evs : List Event) (n : Nat) : (s.sent evs n).spi = s.spi := rfl
@[simp] theorem State.sent_ctrl (s : State) (evs : List Event) (n : Nat) : (s.sent evs n).ctrl = s.ctrl := rfl
@[simp] theorem State.sent_orient (s : State) (evs : List Event) (n : Nat) : (s.sent evs n).orient = s.orient := rfl
@[simp] theorem State.sent_tr (s : State) (evs : List Event) (n : Nat) : (s.sent evs n).tr = s.tr ++ evs := rfl
@[simp] theorem State.sent_spiDrawn (s : State) (evs : List Event) (n : Nat) : (s.sent evs n).spiDrawn = s.spiDrawn + n := rfl
@[simp] theorem State.sent_answerAt (s : State) (evs : List Event) (n k : Nat) : (s.sent evs n).answerAt k = s.answerAt k := rfl
@[simp] theorem State.sent_dims? (s : State) (evs : List Event) (n : Nat) : (s.sent evs n).dims? = s.dims? := rfl

theorem State.sent_sent (s : State) (e1 e2 : List Event) (m n : Nat) : (s.sent e1 m).sent e2 n = s.sent (e1 ++ e2) (m + n) := by
  simp [State.sent, Nat.add_assoc]

theorem State.answersOk_mono {s : State} {m n : Nat} (h : s.answersOk n) (hmn : m ≤ n) : s.answersOk m :=
  fun k hk => h k (by omega)

theorem State.answersOk_sent {s : State} {m n : Nat} (evs : List Event) (h : s.answersOk (m + n)) : (s.sent evs m).answersOk n := by
  intro k hk
  have := h (m + k) (by omega)
  simpa [Nat.add_assoc] using this

theorem State.failsAt_sent {s : State} {m n k : Nat} (evs : List Event) (h : s.failsAt (m + n) k) : (s.sent evs m).failsAt n k :=
  ⟨State.answersOk_sent evs h.1, by simpa [Nat.add_assoc] using h.2⟩

/-- The premises on the SPI master see two fields alone. -/
theorem State.answersOk_congr {s t : State} (h1 : t.spiScript = s.spiScript) (h2 : t.spiDrawn = s.spiDrawn) (n : Nat) :
    t.answersOk n ↔ s.answersOk n := by
  simp [State.answersOk, State.answerAt, h1, h2]

theorem State.failsAt_congr {s t : State} (h1 : t.spiScript = s.spiScript) (h2 : t.spiDrawn = s.spiDrawn) (n k : Nat) :
    t.failsAt n k ↔ s.failsAt n k := by
  simp [State.failsAt, State.answersOk, State.answerAt, h1, h2]

/-! ### The primitives by single answers: side conditions that simp discharges -/

theorem sendCommand_nil_ok {s : State} (h0 : s.answerAt s.spiDrawn = .ok) (opcode : Byte) :
    sendCommand opcode [] s = (s.sent (commandFrame opcode []) 1, .ok) :=
  sendCommand_ok (args := []) (fun k hk => by have : k = 0 := by simp [transfers] at hk; omega
                                              subst this; simpa using h0) opcode

theorem sendCommand_cons_ok {s : State} (h0 : s.answerAt s.spiDrawn = .ok) (h1 : s.answerAt (s.spiDrawn + 1) = .ok)
    (opcode a : Byte) (as : List Byte) :
    sendCommand opcode (a :: as) s = (s.sent (commandFrame opcode (a :: as)) 2, .ok) :=
  sendCommand_ok (args := a :: as) (fun k hk => by
    have : k = 0 ∨ k = 1 := by simp [transfers] at hk; omega
    rcases this with rfl | rfl
    · simpa using h0
    · exact h1) opcode

theorem sendCommand_cons_failsArgs {s : State} {k : Nat} (h0 : s.answerAt s.spiDrawn = .ok)
    (h1 : s.answerAt (s.spiDrawn + 1) = .fail k) (opcode a : Byte) (as : List Byte) :
    sendCommand opcode (a :: as) s =
      ({ s with csN := true, dc := true
                tr := s.tr ++ argsFailedFrame opcode (a :: as) (deliveredOnFail k (as.length + 1))
                spiDrawn := s.spiDrawn + 2 }, .failed) :=
  sendCommand_failsArgs ⟨fun j hj => by have : j = 0 := by omega
                                        subst this; simpa using h0, h1⟩ (by simp) opcode

theorem sendPixels_cons_ok {s : State} (h0 : s.answerAt s.spiDrawn = .ok) (a : Byte) (as : List Byte) :
    sendPixels (a :: as) s = (s.sent (dataFrame (a :: as)) 1, .ok) :=
  sendPixels_ok (bytes := a :: as) (fun k hk => by have : k = 0 := by simp [transfers] at hk; omega
                                                   subst this; simpa using h0)

/-! ### Tables and bodies -/

/-- The transfers a command table takes. -/
def tableTransfers : List (Cmd × List Byte) → Nat
  | [] => 0
  | ca :: rest => 1 + transfers ca.2 + tableTransfers rest

theorem sendCommands_ok (table : List (Cmd × List Byte)) (ht : table ≠ []) {s : State} (h : s.answersOk (tableTransfers table)) :
    sendCommands table s = (s.sent (commandFrames s.cfg table) (tableTransfers table), .ok) := by
  induction table generalizing s with
  | nil => exact absurd rfl ht
  | cons ca rest ih =>
    have h1 : s.answersOk (1 + transfers ca.2) := State.answersOk_mono h (by simp [tableTransfers])
    rw [sendCommands, sendCommand_ok h1, andThen_ok]
    cases rest with
    | nil => simp [sendCommands, commandFrames, tableTransfers]
    | cons cb rest' =>
      rw [ih (by simp) (State.answersOk_sent _ (by simpa [tableTransfers] using h)), State.sent_sent]
      simp [commandFrames, tableTransfers]

theorem windowBody_ok {s : State} (h : s.answersOk 5) (r0 r1 c0 c1 : Half) :
    windowBody r0 r1 c0 c1 s = (s.sent (commandFrames s.cfg (windowTable r0 r1 c0 c1)) 5, .ok) :=
  sendCommands_ok (windowTable r0 r1 c0 c1) (by simp [windowTable]) h

theorem streamBody_ok {s : State} {px : List Pixel} (h : s.answersOk (transfers (pixelBytes px))) :
    streamBody px s = (s.sent (dataFrame (pixelBytes px)) (transfers (pixelBytes px)), .ok) := sendPixels_ok h

/-! ### Everything a body can do -/

/-- `Ran s r evs`: from `s` a body ended as `r`, having appended `evs`, and what its status says of both. A failure
stands last but for the release of chip-select, and nowhere else (R145, R262); a stuck body has left chip-select low
(R146); any other body that touched the wire has released it (R38); the reset line is not touched (R40). -/
structure Ran (s : State) (r : State × Status) (evs : List Event) : Prop where
  tr : r.1.tr = s.tr ++ evs
  clean : r.2 ≠ .failed → Event.xferFail ∉ evs
  failed : r.2 = .failed → ∃ before, evs = before ++ [.xferFail, .pin .csN true] ∧ Event.xferFail ∉ before
  free : r.2 ≠ .stuck → r.1.spi = s.spi
  stuck : r.2 = .stuck → r.1.spi = .stalled ∧ r.1.csN = false
  released : evs ≠ [] → r.2 ≠ .stuck → r.1.csN = true
  quiet : evs = [] → r.1.csN = s.csN ∧ r.1.dc = s.dc ∧ r.2 = .ok
  drawn : s.spiDrawn ≤ r.1.spiDrawn
  noReset : ∀ v, Event.pin .rstN v ∉ evs

/-- A body that only moved fields no clause of `Ran` sees. -/
theorem Ran.of_quiet {s t : State} (h1 : t.tr = s.tr) (h2 : t.spi = s.spi) (h3 : t.csN = s.csN) (h4 : t.dc = s.dc)
    (h5 : t.spiDrawn = s.spiDrawn) : Ran s (t, .ok) [] where
  tr := by simp [h1]
  clean := by simp
  failed := by simp
  free := by simp [h2]
  stuck := by simp
  released := by simp
  quiet := by simp [h3, h4]
  drawn := by simp [h5]
  noReset := by simp

theorem Ran.refl (s : State) : Ran s (s, .ok) [] := Ran.of_quiet rfl rfl rfl rfl rfl

/-- `Ran` sees five fields of the state it begins in. -/
theorem Ran.of_eq {s s' : State} {r : State × Status} {evs : List Event} (h : Ran s r evs) (h1 : s.tr = s'.tr)
    (h2 : s.spi = s'.spi) (h3 : s.csN = s'.csN) (h4 : s.dc = s'.dc) (h5 : s.spiDrawn = s'.spiDrawn) : Ran s' r evs where
  tr := by rw [h.tr, h1]
  clean := h.clean
  failed := h.failed
  free := by rw [← h2]; exact h.free
  stuck := h.stuck
  released := h.released
  quiet := by rw [← h3, ← h4]; exact h.quiet
  drawn := by rw [← h5]; exact h.drawn
  noReset := h.noReset

/-- Bytes are no failures. -/
theorem xferFail_not_mem_bytes (d : Bool) (bs : List Byte) : Event.xferFail ∉ bs.map (Event.byte d) := by simp

/-- Bytes are no pin changes. -/
theorem pin_not_mem_bytes (p : Pin) (v d : Bool) (bs : List Byte) : Event.pin p v ∉ bs.map (Event.byte d) := by simp

/-- One SEND_COMMAND, whatever the answers. -/
theorem sendCommand_ran (opcode : Byte) (args : List Byte) (s : State) : ∃ evs, Ran s (sendCommand opcode args s) evs := by
  rcases answer_cases (s.answerAt s.spiDrawn) with h | ⟨k, h⟩ | h
  · cases args with
    | nil =>
      have hs : s.answersOk (1 + transfers []) := by
        intro j hj; have : j = 0 := by simp [transfers] at hj; omega
        subst this; simpa using h
      rw [sendCommand_ok hs]
      exact ⟨commandFrame opcode [], by constructor <;> simp [State.sent, commandFrame]⟩
    | cons a as =>
      rcases answer_cases (s.answerAt (s.spiDrawn + 1)) with h1 | ⟨k, h1⟩ | h1
      · have hs : s.answersOk (1 + transfers (a :: as)) := by
          intro j hj
          have : j = 0 ∨ j = 1 := by simp [transfers] at hj; omega
          rcases this with rfl | rfl
          · simpa using h
          · exact h1
        rw [sendCommand_ok hs]
        exact ⟨commandFrame opcode (a :: as), by constructor <;> simp [State.sent, commandFrame]⟩
      · have hs : s.failsAt 1 k := ⟨fun j hj => by have : j = 0 := by omega
                                                   subst this; simpa using h, h1⟩
        rw [sendCommand_failsArgs hs (by simp), argsFailedFrame]
        generalize (a :: as).take (deliveredOnFail k (a :: as).length) = sent
        refine ⟨[.pin .csN false, .pin .dc false, .byte false opcode, .pin .dc true] ++ sent.map (.byte true) ++
          [.xferFail, .pin .csN true], ?_⟩
        constructor <;> try simp
        exact ⟨[.pin .csN false, .pin .dc false, .byte false opcode, .pin .dc true] ++ sent.map (.byte true), by simp, by simp⟩
      · have hs : s.stallsAt 1 := ⟨fun j hj => by have : j = 0 := by omega
                                                  subst this; simpa using h, h1⟩
        rw [sendCommand_stallsArgs hs (by simp)]
        exact ⟨[.pin .csN false, .pin .dc false, .byte false opcode, .pin .dc true], by constructor <;> simp⟩
  · rw [sendCommand_failsOpcode h]
    refine ⟨opcodeFailedFrame, ?_⟩
    constructor <;> try simp [opcodeFailedFrame]
    exact ⟨[.pin .csN false, .pin .dc false], by simp, by simp⟩
  · rw [sendCommand_stallsOpcode h]
    exact ⟨[.pin .csN false, .pin .dc false], by constructor <;> simp⟩

/-- One SEND_PIXELS, whatever the answers. -/
theorem sendPixels_ran (bytes : List Byte) (s : State) : ∃ evs, Ran s (sendPixels bytes s) evs := by
  cases bytes with
  | nil =>
    have hs : s.answersOk (transfers []) := by intro j hj; simp [transfers] at hj
    rw [sendPixels_ok hs]
    exact ⟨dataFrame [], by constructor <;> simp [State.sent, dataFrame, transfers]⟩
  | cons a as =>
    rcases answer_cases (s.answerAt s.spiDrawn) with h | ⟨k, h⟩ | h
    · have hs : s.answersOk (transfers (a :: as)) := by
        intro j hj; have : j = 0 := by simp [transfers] at hj; omega
        subst this; simpa using h
      rw [sendPixels_ok hs]
      exact ⟨dataFrame (a :: as), by constructor <;> simp [State.sent, dataFrame]⟩
    · rw [sendPixels_fails h (by simp), dataFailedFrame]
      generalize (a :: as).take (deliveredOnFail k (a :: as).length) = sent
      refine ⟨[.pin .csN false, .pin .dc true] ++ sent.map (.byte true) ++ [.xferFail, .pin .csN true], ?_⟩
      constructor <;> try simp
      exact ⟨[.pin .csN false, .pin .dc true] ++ sent.map (.byte true), by simp, by simp⟩
    · rw [sendPixels_stalls h (by simp)]
      exact ⟨[.pin .csN false, .pin .dc true], by constructor <;> simp⟩

/-- Bodies in sequence. -/
theorem Ran.andThen {s : State} {r : State × Status} {e1 : List Event} (h1 : Ran s r e1)
    {f : State → State × Status} (h2 : ∃ e2, Ran r.1 (f r.1) e2) : ∃ evs, Ran s (Machine.andThen r f) evs := by
  obtain ⟨t, st⟩ := r
  cases st with
  | failed => exact ⟨e1, h1⟩
  | stuck => exact ⟨e1, h1⟩
  | ok =>
    obtain ⟨e2, h2⟩ := h2
    refine ⟨e1 ++ e2, ?_⟩
    simp only [Machine.andThen]
    simp only at h2
    have hc := h1.clean (by simp)
    constructor
    · rw [h2.tr, h1.tr, List.append_assoc]
    · intro hne; simp only [List.mem_append, not_or]; exact ⟨hc, h2.clean hne⟩
    · intro hf
      obtain ⟨before, rfl, hb⟩ := h2.failed hf
      exact ⟨e1 ++ before, by simp, by simp [hc, hb]⟩
    · intro hne; rw [h2.free hne]; exact h1.free (by simp)
    · intro hs; exact h2.stuck hs
    · intro hor hne
      by_cases he : e2 = []
      · rw [(h2.quiet he).1]
        exact h1.released (by simpa [he] using hor) (by simp)
      · exact h2.released he hne
    · intro he
      simp only [List.append_eq_nil_iff] at he
      obtain ⟨q1, q2, q3⟩ := h2.quiet he.2
      obtain ⟨q4, q5, -⟩ := h1.quiet he.1
      exact ⟨q1.trans q4, q2.trans q5, q3⟩
    · exact h1.drawn.trans h2.drawn
    · intro v; simp only [List.mem_append, not_or]; exact ⟨h1.noReset v, h2.noReset v⟩

theorem sendCommands_ran (table : List (Cmd × List Byte)) (s : State) : ∃ evs, Ran s (sendCommands table s) evs := by
  induction table generalizing s with
  | nil => exact ⟨[], Ran.refl s⟩
  | cons ca rest ih =>
    obtain ⟨e1, h1⟩ := sendCommand_ran (s.cfg.opc.byte ca.1) ca.2 s
    exact h1.andThen (ih _)

theorem windowBody_ran (r0 r1 c0 c1 : Half) (s : State) : ∃ evs, Ran s (windowBody r0 r1 c0 c1 s) evs :=
  sendCommands_ran _ s

theorem streamBody_ran (px : List Pixel) (s : State) : ∃ evs, Ran s (streamBody px s) evs := sendPixels_ran _ s

theorem fillFrames_ran (color : Pixel) (counts : List Nat) (s : State) : ∃ evs, Ran s (fillFrames color counts s) evs := by
  induction counts generalizing s with
  | nil => exact ⟨[], Ran.refl s⟩
  | cons k rest ih =>
    obtain ⟨e1, h1⟩ := streamBody_ran (List.replicate k color) s
    exact h1.andThen (ih _)

theorem clearBody_ran (color : Pixel) (nr nc : Nat) (s : State) : ∃ evs, Ran s (clearBody color nr nc s) evs := by
  obtain ⟨e1, h1⟩ := windowBody_ran 0 (BitVec.ofNat 16 (nr - 1)) 0 (BitVec.ofNat 16 (nc - 1)) s
  exact h1.andThen (fillFrames_ran color _ _)

/-! ### What bodies leave alone -/

/-- Nothing but the transport's fields differs (R140, R141, R143). -/
def Kept (s t : State) : Prop :=
  t = { s with csN := t.csN, dc := t.dc, tr := t.tr, spi := t.spi, spiDrawn := t.spiDrawn }

theorem Kept.refl (s : State) : Kept s s := rfl

theorem Kept.trans {s t u : State} (h1 : Kept s t) (h2 : Kept t u) : Kept s u := by
  unfold Kept at *; rw [h2, h1]

theorem Kept.andThen {s : State} {r : State × Status} (h1 : Kept s r.1) {f : State → State × Status}
    (h2 : Kept r.1 (f r.1).1) : Kept s (Machine.andThen r f).1 := by
  obtain ⟨t, st⟩ := r
  cases st with
  | ok => exact h1.trans h2
  | failed => exact h1
  | stuck => exact h1

theorem sendCommand_kept (opcode : Byte) (args : List Byte) (s : State) : Kept s (sendCommand opcode args s).1 := by
  unfold sendCommand xfer Kept
  simp only [State.answerAt, State.drive, State.setPin, State.emit]
  cases (s.spiScript[s.spiDrawn]?).getD (Config.spiOracle s.spiDrawn) with
  | fail k => rfl
  | stall => rfl
  | ok =>
    cases args with
    | nil => rfl
    | cons a as =>
      simp only [andThen_ok, xferIfAny, xfer, State.answerAt]
      cases (s.spiScript[s.spiDrawn + 1]?).getD (Config.spiOracle (s.spiDrawn + 1)) <;> rfl

theorem sendPixels_kept (bytes : List Byte) (s : State) : Kept s (sendPixels bytes s).1 := by
  unfold sendPixels Kept
  cases bytes with
  | nil => rfl
  | cons a as =>
    simp only [xferIfAny, xfer, State.answerAt, State.drive, State.setPin, State.emit]
    cases (s.spiScript[s.spiDrawn]?).getD (Config.spiOracle s.spiDrawn) <;> rfl

theorem sendCommands_kept (table : List (Cmd × List Byte)) (s : State) : Kept s (sendCommands table s).1 := by
  induction table generalizing s with
  | nil => exact Kept.refl s
  | cons ca rest ih => exact (sendCommand_kept _ _ s).andThen (ih _)

theorem windowBody_kept (r0 r1 c0 c1 : Half) (s : State) : Kept s (windowBody r0 r1 c0 c1 s).1 := sendCommands_kept _ s

theorem streamBody_kept (px : List Pixel) (s : State) : Kept s (streamBody px s).1 := sendPixels_kept _ s

theorem fillFrames_kept (color : Pixel) (counts : List Nat) (s : State) : Kept s (fillFrames color counts s).1 := by
  induction counts generalizing s with
  | nil => exact Kept.refl s
  | cons k rest ih => exact (streamBody_kept _ s).andThen (ih _)

theorem clearBody_kept (color : Pixel) (nr nc : Nat) (s : State) : Kept s (clearBody color nr nc s).1 :=
  (windowBody_kept _ _ _ _ s).andThen (fillFrames_kept color _ _)

end Sys2Proof.Machine
end

