-- ==== Sys2Proof/Laws/Host.lean ====
section
/-! SUPPORT. The host operations once admitted: what each is as a body on the accepted state, what INIT's parts do, and
which frames CLEAR cuts its pixels into. -/

namespace Sys2Proof.Machine

theorem madctlOf?_row {p : Params} {o : Half} {row : OrientRow} (h : p.orientSet[o.toNat]? = some row) :
    p.madctlOf? o = some row.madctl := by
  simp [Params.madctlOf?, Params.orientRow?, h]

theorem madctlOf?_none {p : Params} {o : Half} (h : p.orientSet.length ≤ o.toNat) : p.madctlOf? o = none := by
  simp [Params.madctlOf?, Params.orientRow?, h]

/-! ### INIT (R192) -/

/-- The state INIT sends its commands from (R192 lines 1 to 6). -/
theorem resetPulse_eq (s : State) :
    resetPulse s = { s with ctrl := .initializing, initStep := 0, rstN := true, tr := s.tr ++ resetFrame s.cfg } := by
  simp [resetPulse, resetFrame, State.drive, State.setPin, State.wait, State.emit]

theorem hostInit_eq {s : State} {o b c2 d : Half} {row : OrientRow} (hc : s.ctrl = .unpowered)
    (hr : s.cfg.orientSet[o.toNat]? = some row) :
    hostInit o b c2 d s = .ok (noted o (runInitTable o 0 (s.cfg.initTable row.madctl) { s with
      latches := { opc := 0, opa := o, opb := b, opc2 := c2, opd := d }
      ctrl := .initializing, initStep := 0, rstN := true, tr := s.tr ++ resetFrame s.cfg })) := by
  simp only [hostInit, whenUnpowered_unpowered hc, whenOrient, madctlOf?_row hr, resetPulse_eq]; rfl

@[simp] theorem commandDone_answerAt (o : Half) (k : Nat) (s : State) (n : Nat) :
    (commandDone o k s).answerAt n = s.answerAt n := rfl
@[simp] theorem commandDone_spiDrawn (o : Half) (k : Nat) (s : State) : (commandDone o k s).spiDrawn = s.spiDrawn := rfl
@[simp] theorem commandDone_cfg (o : Half) (k : Nat) (s : State) : (commandDone o k s).cfg = s.cfg := rfl
@[simp] theorem commandDone_tr (o : Half) (k : Nat) (s : State) : (commandDone o k s).tr = s.tr := rfl

/-! ### The Ready operations (R190, R196, R211, R214, R216) -/

theorem hostOrientation_eq {s : State} {o b c2 d : Half} {row : OrientRow} (hc : s.ctrl = .ready)
    (hr : s.cfg.orientSet[o.toNat]? = some row) :
    hostOrientation o b c2 d s = .ok (noted o (orientationBody o row.madctl (s.accept 1 o b c2 d))) := by
  simp [hostOrientation, whenReady_ready hc, whenOrient, madctlOf?_row hr]

theorem hostWindow_eq {s : State} {r0 r1 c0 c1 : Half} {nr nc : Nat} (hc : s.ctrl = .ready)
    (hd : s.dims? = some (nr, nc)) (hb : boundsOk nr nc r0 r1 c0 c1 = true) :
    hostWindow r0 r1 c0 c1 s = .ok (windowBody r0 r1 c0 c1 (s.accept 2 r0 r1 c0 c1)) := by
  simp [hostWindow, whenReady_ready hc, hd, hb]

theorem hostStream_eq {s : State} (hc : s.ctrl = .ready) (a b c2 d : Half) (px : List Pixel) :
    hostStream a b c2 d px s = .ok (streamBody px (s.accept 3 a b c2 d)) := by
  simp [hostStream, whenReady_ready hc]

theorem hostClear_eq {s : State} {nr nc : Nat} (hc : s.ctrl = .ready) (hd : s.dims? = some (nr, nc))
    (color : Pixel) (b c2 d : Half) :
    hostClear color b c2 d s = .ok (clearBody color nr nc (s.accept 4 color b c2 d)) := by
  simp [hostClear, whenReady_ready hc, hd]

theorem boundsOk_iff {nr nc : Nat} {r0 r1 c0 c1 : Half} : boundsOk nr nc r0 r1 c0 c1 = true ↔
    r0.toNat ≤ r1.toNat ∧ r1.toNat < nr ∧ c0.toNat ≤ c1.toNat ∧ c1.toNat < nc := by
  simp [boundsOk, and_assoc]

@[simp] theorem accept_answerAt (s : State) (op : BitVec 4) (a b c2 d : Half) (n : Nat) :
    (s.accept op a b c2 d).answerAt n = s.answerAt n := rfl

/-! ### CLEAR's frames (R216) -/

/-- CLEAR's frames: whole chunks, then what is left. -/
theorem clearFrames_eq {chunk : Nat} (hc : 1 ≤ chunk) (fuel left : Nat) (h : left ≤ fuel) :
    clearFrames chunk fuel left =
      List.replicate (left / chunk) chunk ++ (if left % chunk = 0 then [] else [left % chunk]) := by
  induction fuel generalizing left with
  | zero => have : left = 0 := by omega
            subst this; simp [clearFrames]
  | succ n ih =>
    by_cases h0 : left = 0
    · subst h0; simp [clearFrames]
    · rw [clearFrames, if_neg h0]
      by_cases hlt : left < chunk
      · rw [Nat.min_eq_left hlt.le, Nat.sub_self, ih 0 (by omega), Nat.div_eq_of_lt hlt, Nat.mod_eq_of_lt hlt]
        simp [h0]
      · have hge : chunk ≤ left := by omega
        rw [Nat.min_eq_right hge, ih (left - chunk) (by omega), ← Nat.mod_eq_sub_mod hge, Nat.div_eq_sub_div hc hge,
          List.replicate_succ, List.cons_append]

/-- CLEAR's frames hold exactly the pixels (R216, R217 (a)). -/
theorem clearFrames_sum {chunk : Nat} (hc : 1 ≤ chunk) (fuel left : Nat) (h : left ≤ fuel) :
    (clearFrames chunk fuel left).sum = left := by
  rw [clearFrames_eq hc fuel left h]
  have := Nat.div_add_mod' left chunk
  split <;> simp <;> omega

/-- No frame of CLEAR is empty. -/
theorem clearFrames_pos {chunk : Nat} (hc : 1 ≤ chunk) (fuel left : Nat) (h : left ≤ fuel) :
    ∀ k ∈ clearFrames chunk fuel left, 1 ≤ k ∧ k ≤ chunk := by
  rw [clearFrames_eq hc fuel left h]
  have hm := Nat.mod_lt left (show 0 < chunk by omega)
  intro k hk
  split at hk
  · simp at hk; omega
  · simp at hk; omega

theorem andThen_assoc (r : State × Status) (f g : State → State × Status) :
    andThen (andThen r f) g = andThen r fun s => andThen (f s) g := by
  obtain ⟨s, st⟩ := r; cases st <;> rfl

theorem fillFrames_append (color : Pixel) (xs ys : List Nat) (s : State) :
    fillFrames color (xs ++ ys) s = andThen (fillFrames color xs s) (fillFrames color ys) := by
  induction xs generalizing s with
  | nil => rfl
  | cons k rest ih =>
    rw [List.cons_append, fillFrames, fillFrames, andThen_assoc]
    congr 1; funext t; exact ih t

/-- Frames of one colour, every transfer `ok`. -/
theorem fillFrames_ok (color : Pixel) (counts : List Nat) (hne : counts ≠ []) (hp : ∀ k ∈ counts, 1 ≤ k) {s : State}
    (h : s.answersOk counts.length) :
    fillFrames color counts s =
      (s.sent (counts.flatMap fun k => dataFrame (pixelBytes (List.replicate k color))) counts.length, .ok) := by
  induction counts generalizing s with
  | nil => exact absurd rfl hne
  | cons k rest ih =>
    have hk : pixelBytes (List.replicate k color) ≠ [] := by
      have := hp k (by simp); simp; omega
    have ht : transfers (pixelBytes (List.replicate k color)) = 1 := by simp [transfers, hk]
    rw [fillFrames, streamBody_ok (by rw [ht]; exact State.answersOk_mono h (by simp)), andThen_ok, ht]
    cases rest with
    | nil => simp [fillFrames]
    | cons k' rest' =>
      rw [ih (by simp) (fun x hx => hp x (by simp [hx])) (State.answersOk_sent _ (by simpa [Nat.add_comm] using h)),
        State.sent_sent]
      simp [Nat.add_comm, Nat.add_left_comm]

end Sys2Proof.Machine
end

