-- ==== Sys2Proof/Laws/Exec.lean ====
section
/-! SUPPORT. What one operation can do, said once: `exec_cases` inverts `exec`, so that a claim about every operation
needs no case analysis over the dispatch. -/

namespace Sys2Proof.Machine

/-! ### What host operations leave alone -/

/-- Nothing but the transport's fields and the operand latches differs. -/
def KeptHost (s t : State) : Prop :=
  t = { s with csN := t.csN, dc := t.dc, tr := t.tr, spi := t.spi, spiDrawn := t.spiDrawn, latches := t.latches }

theorem KeptHost.refl (s : State) : KeptHost s s := rfl

theorem Kept.host {s t : State} (h : Kept s t) : KeptHost s t := by
  unfold Kept at h; unfold KeptHost; rw [h]

theorem KeptHost.trans {s t u : State} (h1 : KeptHost s t) (h2 : KeptHost t u) : KeptHost s u := by
  unfold KeptHost at *; rw [h2, h1]

theorem KeptHost.accept (s : State) (op : BitVec 4) (a b c2 d : Half) : KeptHost s (s.accept op a b c2 d) := rfl

/-- A host operation that was not refused: events appended, and nothing changed but what `KeptHost` names. -/
def HostRan (s : State) (r : State × Status) : Prop := (∃ evs, Ran s r evs) ∧ KeptHost s r.1

theorem HostRan.refl (s : State) : HostRan s (s, .ok) := ⟨⟨[], Ran.refl s⟩, KeptHost.refl s⟩

theorem windowBody_hostRan (r0 r1 c0 c1 : Half) (s : State) (op : BitVec 4) (a b c2 d : Half) :
    HostRan s (windowBody r0 r1 c0 c1 (s.accept op a b c2 d)) := by
  obtain ⟨evs, h⟩ := windowBody_ran r0 r1 c0 c1 (s.accept op a b c2 d)
  exact ⟨⟨evs, h.of_eq rfl rfl rfl rfl rfl⟩, (KeptHost.accept s op a b c2 d).trans (windowBody_kept _ _ _ _ _).host⟩

theorem streamBody_hostRan (px : List Pixel) (s : State) (op : BitVec 4) (a b c2 d : Half) :
    HostRan s (streamBody px (s.accept op a b c2 d)) := by
  obtain ⟨evs, h⟩ := streamBody_ran px (s.accept op a b c2 d)
  exact ⟨⟨evs, h.of_eq rfl rfl rfl rfl rfl⟩, (KeptHost.accept s op a b c2 d).trans (streamBody_kept _ _).host⟩

theorem clearBody_hostRan (color : Pixel) (nr nc : Nat) (s : State) (op : BitVec 4) (a b c2 d : Half) :
    HostRan s (clearBody color nr nc (s.accept op a b c2 d)) := by
  obtain ⟨evs, h⟩ := clearBody_ran color nr nc (s.accept op a b c2 d)
  exact ⟨⟨evs, h.of_eq rfl rfl rfl rfl rfl⟩, (KeptHost.accept s op a b c2 d).trans (clearBody_kept _ _ _ _).host⟩

/-! ### Inversion of the host operations -/

theorem whenReady_next {s : State} {k : State → Except Refusal (State × Status)} {r : State × Status}
    (h : whenReady s k = .ok r) : s.ctrl = .ready ∧ k s = .ok r := by
  unfold whenReady at h
  cases hc : s.ctrl <;> simp [hc] at h
  exact ⟨rfl, h⟩

theorem hostWindow_next {s : State} {r0 r1 c0 c1 : Half} {r : State × Status} (h : hostWindow r0 r1 c0 c1 s = .ok r) :
    s.ctrl = .ready ∧ (∃ nr nc, s.dims? = some (nr, nc) ∧ boundsOk nr nc r0 r1 c0 c1 = true) ∧
      r = windowBody r0 r1 c0 c1 (s.accept 2 r0 r1 c0 c1) := by
  obtain ⟨hc, h⟩ := whenReady_next h
  refine ⟨hc, ?_⟩
  cases hd : s.dims? with
  | none => simp [hd] at h
  | some d =>
    obtain ⟨nr, nc⟩ := d
    simp only [hd] at h
    split at h
    · rename_i hb; simp only [Except.ok.injEq] at h; exact ⟨⟨nr, nc, rfl, hb⟩, h.symm⟩
    · simp at h

theorem hostStream_next {s : State} {a b c2 d : Half} {px : List Pixel} {r : State × Status}
    (h : hostStream a b c2 d px s = .ok r) : s.ctrl = .ready ∧ r = streamBody px (s.accept 3 a b c2 d) := by
  obtain ⟨hc, h⟩ := whenReady_next h
  simp only [Except.ok.injEq] at h
  exact ⟨hc, h.symm⟩

theorem hostClear_next {s : State} {color : Pixel} {b c2 d : Half} {r : State × Status}
    (h : hostClear color b c2 d s = .ok r) :
    s.ctrl = .ready ∧ ∃ nr nc, s.dims? = some (nr, nc) ∧ r = clearBody color nr nc (s.accept 4 color b c2 d) := by
  obtain ⟨hc, h⟩ := whenReady_next h
  refine ⟨hc, ?_⟩
  cases hd : s.dims? with
  | none => simp [hd] at h
  | some dm =>
    simp only [hd, Except.ok.injEq] at h
    exact ⟨dm.1, dm.2, rfl, h.symm⟩

theorem hostOrientation_next {s : State} {o b c2 d : Half} {r : State × Status}
    (h : hostOrientation o b c2 d s = .ok r) :
    s.ctrl = .ready ∧ ∃ m, s.cfg.madctlOf? o = some m ∧ r = noted o (orientationBody o m (s.accept 1 o b c2 d)) := by
  obtain ⟨hc, h⟩ := whenReady_next h
  refine ⟨hc, ?_⟩
  unfold whenOrient at h
  cases hm : s.cfg.madctlOf? o with
  | none => simp [hm] at h
  | some m =>
    simp only [hm, Except.ok.injEq] at h
    exact ⟨m, rfl, h.symm⟩

theorem hostInit_next {s : State} {o b c2 d : Half} {r : State × Status} (h : hostInit o b c2 d s = .ok r) :
    s.ctrl = .unpowered ∧ ∃ m, s.cfg.madctlOf? o = some m ∧
      r = noted o (runInitTable o 0 (s.cfg.initTable m) { s with
        latches := { opc := 0, opa := o, opb := b, opc2 := c2, opd := d }
        ctrl := .initializing, initStep := 0, rstN := true, tr := s.tr ++ resetFrame s.cfg }) := by
  unfold hostInit whenUnpowered at h
  cases hc : s.ctrl <;> simp [hc] at h
  refine ⟨rfl, ?_⟩
  unfold whenOrient at h
  cases hm : s.cfg.madctlOf? o with
  | none => simp [hm] at h
  | some m =>
    simp only [hm, Except.ok.injEq, resetPulse_eq] at h
    refine ⟨m, rfl, ?_⟩
    rw [← h]; rfl

/-- Host operations in sequence. -/
theorem HostRan.andThenHost {s : State} {x : Except Refusal (State × Status)} {r : State × Status}
    (h1 : ∀ q, x = .ok q → HostRan s q) {f : State → Except Refusal (State × Status)}
    (h2 : ∀ t q, f t = .ok q → HostRan t q) (h : Machine.andThenHost x f = .ok r) : HostRan s r := by
  cases x with
  | error e => simp at h
  | ok q =>
    obtain ⟨t, st⟩ := q
    have hq := h1 _ rfl
    cases st with
    | failed => simp only [andThenHost_failed, Except.ok.injEq] at h; exact h ▸ hq
    | stuck => simp only [andThenHost_stuck, Except.ok.injEq] at h; exact h ▸ hq
    | ok =>
      simp only [andThenHost_ok] at h
      obtain ⟨⟨e1, g1⟩, k1⟩ := hq
      obtain ⟨g2, k2⟩ := h2 _ _ h
      have := Ran.andThen g1 (f := fun _ => r) g2
      exact ⟨this, k1.trans k2⟩

theorem hostWindow_hostRan {s : State} {r0 r1 c0 c1 : Half} {r : State × Status} (h : hostWindow r0 r1 c0 c1 s = .ok r) :
    HostRan s r := by
  obtain ⟨-, -, rfl⟩ := hostWindow_next h; exact windowBody_hostRan ..

theorem hostStream_hostRan {s : State} {a b c2 d : Half} {px : List Pixel} {r : State × Status}
    (h : hostStream a b c2 d px s = .ok r) : HostRan s r := by
  obtain ⟨-, rfl⟩ := hostStream_next h; exact streamBody_hostRan ..

theorem hostRun_next {run : Run} {s : State} {r : State × Status} (h : hostRun run s = .ok r) :
    ∃ w c0 c1, toBound? run.row = some w ∧ toBound? run.c0 = some c0 ∧ toBound? run.c1 = some c1 ∧
      hostWindow w w c0 c1 s = .ok r := by
  unfold hostRun at h
  split at h
  · rename_i w c0 c1 h1 h2 h3; exact ⟨w, c0, c1, h1, h2, h3, h⟩
  · exact absurd (whenReady_next h).2 (by simp)

theorem hostRun_hostRan {run : Run} {s : State} {r : State × Status} (h : hostRun run s = .ok r) : HostRan s r := by
  obtain ⟨_, _, _, -, -, -, h⟩ := hostRun_next h; exact hostWindow_hostRan h

theorem drawJobs_hostRan {jobs : List (Run × List Pixel)} {s : State} {r : State × Status} (h : drawJobs jobs s = .ok r) :
    HostRan s r := by
  induction jobs generalizing s r with
  | nil => simp only [drawJobs, Except.ok.injEq] at h; exact h ▸ HostRan.refl s
  | cons job rest ih =>
    exact HostRan.andThenHost (fun q hq => HostRan.andThenHost (fun _ h => hostRun_hostRan h)
      (fun _ _ h => hostStream_hostRan h) hq) (fun _ _ h => ih h) h

/-! ### INIT's commands -/

/-- Where INIT's commands end (R192, R193): ORIENT before the third was `before`, and if all completed the host then
knows the orientation `knows`. -/
structure InitEnd (o : Half) (before knows : Option Half) (s : State) (r : State × Status) : Prop where
  kept : r.1 = { s with
    csN := r.1.csN, dc := r.1.dc, tr := r.1.tr, spi := r.1.spi, spiDrawn := r.1.spiDrawn, orient := r.1.orient
    ctrl := r.1.ctrl, initStep := r.1.initStep, hostOrient := r.1.hostOrient }
  done : r.2 = .ok → r.1.ctrl = .ready ∧ r.1.initStep = 4 ∧ r.1.orient = some o
  known : r.1.hostOrient = if r.2 = .ok then knows else s.hostOrient
  cut : r.2 ≠ .ok → r.1.ctrl = .initializing ∧ ∃ j < 4, r.1.initStep = BitVec.ofNat 3 j ∧
    r.1.orient = if 3 ≤ j then some o else before

theorem runInitTable_end (o : Half) (before : Option Half) (k : Nat) (table : List (Cmd × List Byte)) (s : State)
    (hk : k + table.length = 4) (hc : s.ctrl = .initializing) (hi : s.initStep = BitVec.ofNat 3 k)
    (ho : s.orient = if 3 ≤ k then some o else before) : InitEnd o before s.hostOrient s (runInitTable o k table s) := by
  induction table generalizing k s with
  | nil =>
    have : k = 4 := by simpa using hk
    subst this
    exact ⟨rfl, fun _ => ⟨rfl, hi, ho⟩, rfl, fun h => absurd rfl h⟩
  | cons ca rest ih =>
    rw [runInitTable]
    have hkept := sendCommand_kept (s.cfg.opc.byte ca.1) ca.2 s
    have hk4 : k < 4 := by simp at hk; omega
    generalize sendCommand (s.cfg.opc.byte ca.1) ca.2 s = q at hkept
    obtain ⟨t, st⟩ := q
    unfold Kept at hkept
    simp only at hkept
    have hcut : ∀ st', st' ≠ Status.ok → InitEnd o before s.hostOrient s (t, st') := by
      intro st' hne
      refine ⟨?_, fun h => absurd h hne, by rw [if_neg hne, hkept], fun _ => ⟨?_, k, hk4, ?_, ?_⟩⟩
      · simp only; rw [hkept]
      · simp only; rw [hkept]; exact hc
      · simp only; rw [hkept]; exact hi
      · simp only; rw [hkept]; exact ho
    cases st with
    | failed => exact hcut _ (by simp)
    | stuck => exact hcut _ (by simp)
    | ok =>
      rw [andThen_ok]
      have := ih (k + 1) (commandDone o k t) (by simp at hk; omega) (by rw [hkept]; exact hc) rfl (by
        rw [hkept]
        simp only [commandDone, ho]
        by_cases h2 : k = 2
        · simp [h2]
        · rw [if_neg h2]
          by_cases h3 : 3 ≤ k
          · simp [h3, show 3 ≤ k + 1 by omega]
          · simp [h3, show ¬ 3 ≤ k + 1 by omega])
      refine ⟨this.kept.trans ?_, this.done, ?_, this.cut⟩
      · rw [hkept]; rfl
      · rw [this.known, State.commandDone_hostOrient, hkept, ite_self]

theorem InitEnd.noted {o : Half} {before knows : Option Half} {s : State} {r : State × Status}
    (h : InitEnd o before knows s r) : InitEnd o before (some o) s (Machine.noted o r) := by
  obtain ⟨t, st⟩ := r
  obtain ⟨hk, hd, hn, hc⟩ := h
  cases st with
  | ok => exact ⟨by rw [noted_eq, if_pos rfl, State.noteOrient, hk], hd, rfl, fun h => absurd rfl h⟩
  | failed => exact ⟨hk, by simp [noted_eq], hn, hc⟩
  | stuck => exact ⟨hk, by simp [noted_eq], hn, hc⟩

/-- The host's note puts nothing on the wire. -/
theorem Ran.noted {s : State} {r : State × Status} {evs : List Event} (h : Ran s r evs) (o : Half) :
    ∃ evs, Ran s (Machine.noted o r) evs := h.andThen ⟨[], Ran.of_quiet rfl rfl rfl rfl rfl⟩

theorem runInitTable_ran (o : Half) (k : Nat) (table : List (Cmd × List Byte)) (s : State) :
    ∃ evs, Ran s (runInitTable o k table s) evs := by
  induction table generalizing k s with
  | nil => exact ⟨[], Ran.of_quiet rfl rfl rfl rfl rfl⟩
  | cons ca rest ih =>
    obtain ⟨e1, h1⟩ := sendCommand_ran (s.cfg.opc.byte ca.1) ca.2 s
    refine h1.andThen ?_
    obtain ⟨e2, h2⟩ := ih (k + 1) (commandDone o k (sendCommand (s.cfg.opc.byte ca.1) ca.2 s).1)
    exact ⟨e2, h2.of_eq rfl rfl rfl rfl rfl⟩

/-! ### SET_ORIENTATION -/

theorem orientationBody_ran (o : Half) (m : Byte) (s : State) : ∃ evs, Ran s (orientationBody o m s) evs := by
  obtain ⟨e1, h1⟩ := sendCommand_ran (s.cfg.opc.byte .madctl) [m] s
  exact h1.andThen ⟨[], Ran.of_quiet rfl rfl rfl rfl rfl⟩

/-- ORIENT is written on `Ok` only, and nothing else but the transport's fields (R196, R197 (d)). -/
theorem orientationBody_end (o : Half) (m : Byte) (s : State) :
    (orientationBody o m s).1 = { s with
      csN := (orientationBody o m s).1.csN, dc := (orientationBody o m s).1.dc, tr := (orientationBody o m s).1.tr
      spi := (orientationBody o m s).1.spi, spiDrawn := (orientationBody o m s).1.spiDrawn
      orient := (orientationBody o m s).1.orient } ∧
    (orientationBody o m s).1.orient = if (orientationBody o m s).2 = .ok then some o else s.orient := by
  unfold orientationBody
  have hkept := sendCommand_kept (s.cfg.opc.byte .madctl) [m] s
  generalize sendCommand (s.cfg.opc.byte .madctl) [m] s = q at hkept
  obtain ⟨t, st⟩ := q
  unfold Kept at hkept
  simp only at hkept
  cases st with
  | ok => exact ⟨by rw [hkept]; rfl, rfl⟩
  | failed => exact ⟨by rw [hkept]; rfl, by rw [hkept]; rfl⟩
  | stuck => exact ⟨by rw [hkept]; rfl, by rw [hkept]; rfl⟩

/-! ### One operation -/

/-- What an operation other than INIT did: as a host operation does, but that SET_ORIENTATION also writes ORIENT. -/
structure OpRan (i : Instr) (s : State) (r : State × Status) : Prop where
  ran : ∃ evs, Ran s r evs
  kept : r.1 = { s with
    csN := r.1.csN, dc := r.1.dc, tr := r.1.tr, spi := r.1.spi, spiDrawn := r.1.spiDrawn, latches := r.1.latches
    renderDrawn := r.1.renderDrawn, orient := r.1.orient, hostOrient := r.1.hostOrient }
  draws : r.1.renderDrawn = s.renderDrawn + if isDraw i then 1 else 0
  orient : (r.1.orient = s.orient ∧ r.1.hostOrient = s.hostOrient) ∨ ∃ o b c2 d, i = .setOrientation o b c2 d ∧
    r.2 = .ok ∧ r.1.orient = some o ∧ r.1.hostOrient = some o ∧ (s.cfg.madctlOf? o).isSome ∧ s.ctrl = .ready

theorem HostRan.op {s : State} {r : State × Status} (h : HostRan s r) (i : Instr) (hd : isDraw i = false) : OpRan i s r where
  ran := h.1
  kept := by have := h.2; unfold KeptHost at this; rw [this]
  draws := by have := h.2; unfold KeptHost at this; rw [this, hd]; rfl
  orient := .inl (by have := h.2; unfold KeptHost at this; rw [this]; exact ⟨rfl, rfl⟩)

theorem OpRan.drawn {i : Instr} {s : State} {r : State × Status} (h : HostRan s.drawChoice r) (hd : isDraw i = true) :
    OpRan i s r where
  ran := by obtain ⟨⟨evs, h⟩, -⟩ := h; exact ⟨evs, h.of_eq rfl rfl rfl rfl rfl⟩
  kept := by have := h.2; unfold KeptHost at this; rw [this]; rfl
  draws := by have := h.2; unfold KeptHost at this; rw [this, hd]; rfl
  orient := .inl (by have := h.2; unfold KeptHost at this; rw [this]; exact ⟨rfl, rfl⟩)

theorem sendCommand_opRan (i : Instr) (opcode : Byte) (args : List Byte) (s : State) (hd : isDraw i = false) :
    OpRan i s (sendCommand opcode args s) :=
  HostRan.op ⟨sendCommand_ran opcode args s, (sendCommand_kept opcode args s).host⟩ i hd

/-- What INIT did (R192, R193): the reset frame, then its commands. -/
structure InitRan (o b c2 d : Half) (s : State) (r : State × Status) : Prop where
  admitted : s.ctrl = .unpowered
  inSet : (s.cfg.madctlOf? o).isSome
  ran : ∃ evs, Ran { s with tr := s.tr ++ resetFrame s.cfg } r evs
  ends : InitEnd o s.orient (some o) { s with
    latches := { opc := 0, opa := o, opb := b, opc2 := c2, opd := d }
    ctrl := .initializing, initStep := 0, rstN := true, tr := s.tr ++ resetFrame s.cfg } r

theorem hostInit_initRan {s : State} {o b c2 d : Half} {r : State × Status} (h : hostInit o b c2 d s = .ok r) :
    InitRan o b c2 d s r := by
  obtain ⟨hc, m, hm, rfl⟩ := hostInit_next h
  refine ⟨hc, by simp [hm], ?_, InitEnd.noted (by apply runInitTable_end o <;> rfl)⟩
  obtain ⟨_, h⟩ := runInitTable_ran o 0 (s.cfg.initTable m) { s with
    latches := { opc := 0, opa := o, opb := b, opc2 := c2, opd := d }
    ctrl := .initializing, initStep := 0, rstN := true, tr := s.tr ++ resetFrame s.cfg }
  obtain ⟨evs, h⟩ := Ran.noted h o
  exact ⟨evs, h.of_eq rfl rfl rfl rfl rfl⟩

theorem settle_next {err : Completion} {x : Except Refusal (State × Status)} {t : State} (h : settle err x = .next t) :
    ∃ r, x = .ok r ∧ t = finish err r := by
  cases x with
  | error e => simp at h
  | ok r => simp only [settle_ok, Host.Outcome.next.injEq] at h; exact ⟨r, rfl, h.symm⟩

theorem whenRunning_next {s t : State} {k : State → Host.Outcome State Fault Refusal} (h : whenRunning s k = .next t) :
    s.spi = .idle ∧ k s = .next t := by
  cases hs : s.spi with
  | stalled => simp [whenRunning_stalled hs] at h
  | idle => rw [whenRunning_idle hs] at h; exact ⟨rfl, h⟩

theorem runCommand_next {c : Cmd} {args : List Byte} {s t : State} (h : runCommand c args s = .next t) :
    s.spi = .idle ∧ t = finish .busError (sendCommand (s.cfg.opc.byte c) args s) := by
  obtain ⟨hs, h⟩ := whenRunning_next h
  simp only [settle_ok, Host.Outcome.next.injEq] at h
  exact ⟨hs, h.symm⟩

/-- Every operation that takes a next state: it was not after a stall, and it is INIT or did what `OpRan` says; then
it handed back its completion value. -/
theorem exec_cases {i : Instr} {s t : State} (h : exec i s = .next t) :
    s.spi = .idle ∧ ∃ r, t = finish (opError i) r ∧
      ((∃ o b c2 d, i = .init o b c2 d ∧ InitRan o b c2 d s r) ∨ ((∀ o b c2 d, i ≠ .init o b c2 d) ∧ OpRan i s r)) := by
  cases i with
  | slpout => obtain ⟨hs, h⟩ := runCommand_next h; exact ⟨hs, _, h, .inr ⟨by simp, sendCommand_opRan (hd := rfl) ..⟩⟩
  | pixset => obtain ⟨hs, h⟩ := runCommand_next h; exact ⟨hs, _, h, .inr ⟨by simp, sendCommand_opRan (hd := rfl) ..⟩⟩
  | dispon => obtain ⟨hs, h⟩ := runCommand_next h; exact ⟨hs, _, h, .inr ⟨by simp, sendCommand_opRan (hd := rfl) ..⟩⟩
  | ramwr => obtain ⟨hs, h⟩ := runCommand_next h; exact ⟨hs, _, h, .inr ⟨by simp, sendCommand_opRan (hd := rfl) ..⟩⟩
  | raset r0 r1 => obtain ⟨hs, h⟩ := runCommand_next h; exact ⟨hs, _, h, .inr ⟨by simp, sendCommand_opRan (hd := rfl) ..⟩⟩
  | caset c0 c1 => obtain ⟨hs, h⟩ := runCommand_next h; exact ⟨hs, _, h, .inr ⟨by simp, sendCommand_opRan (hd := rfl) ..⟩⟩
  | madctl o =>
    simp only [exec, execMadctl] at h
    split at h
    · obtain ⟨hs, h⟩ := runCommand_next h; exact ⟨hs, _, h, .inr ⟨by simp, sendCommand_opRan (hd := rfl) ..⟩⟩
    · exact absurd (whenRunning_next h).2 (by simp)
  | init o b c2 d =>
    simp only [exec, execInit] at h
    obtain ⟨hs, h⟩ := whenRunning_next h
    obtain ⟨r, hr, rfl⟩ := settle_next h
    exact ⟨hs, r, rfl, .inl ⟨o, b, c2, d, rfl, hostInit_initRan hr⟩⟩
  | setOrientation o b c2 d =>
    simp only [exec, execSetOrientation] at h
    obtain ⟨hs, h⟩ := whenRunning_next h
    obtain ⟨r, hr, rfl⟩ := settle_next h
    obtain ⟨hc, m, hm, rfl⟩ := hostOrientation_next hr
    refine ⟨hs, _, rfl, .inr ⟨by simp, ?_⟩⟩
    obtain ⟨hk, ho⟩ := orientationBody_end o m (s.accept 1 o b c2 d)
    have hran : ∃ evs, Ran s (noted o (orientationBody o m (s.accept 1 o b c2 d))) evs := by
      obtain ⟨_, hr⟩ := orientationBody_ran o m (s.accept 1 o b c2 d)
      obtain ⟨evs, hr⟩ := hr.noted o
      exact ⟨evs, hr.of_eq rfl rfl rfl rfl rfl⟩
    rw [noted_eq] at hran ⊢
    by_cases hok : (orientationBody o m (s.accept 1 o b c2 d)).2 = .ok
    · rw [if_pos hok] at hran ⊢
      exact ⟨hran, by rw [State.noteOrient, hk]; rfl, by rw [State.noteOrient, hk]; rfl,
        .inr ⟨o, b, c2, d, rfl, hok, by rw [State.noteOrient_orient, ho, if_pos hok], rfl, by simp [hm], hc⟩⟩
    · rw [if_neg hok] at hran ⊢
      exact ⟨hran, by rw [hk]; rfl, by rw [hk]; rfl, .inl ⟨by rw [ho, if_neg hok]; rfl, by rw [hk]; rfl⟩⟩
  | setAddressWindow r0 r1 c0 c1 =>
    simp only [exec, execSetAddressWindow] at h
    obtain ⟨hs, h⟩ := whenRunning_next h
    obtain ⟨r, hr, rfl⟩ := settle_next h
    exact ⟨hs, r, rfl, .inr ⟨by simp, (hostWindow_hostRan hr).op _ rfl⟩⟩
  | writePixelStream a b c2 d px =>
    simp only [exec, execWritePixelStream] at h
    obtain ⟨hs, h⟩ := whenRunning_next h
    obtain ⟨r, hr, rfl⟩ := settle_next h
    exact ⟨hs, r, rfl, .inr ⟨by simp, (hostStream_hostRan hr).op _ rfl⟩⟩
  | clear color b c2 d =>
    simp only [exec, execClear] at h
    obtain ⟨hs, h⟩ := whenRunning_next h
    obtain ⟨r, hr, rfl⟩ := settle_next h
    obtain ⟨-, nr, nc, -, rfl⟩ := hostClear_next hr
    exact ⟨hs, _, rfl, .inr ⟨by simp, (clearBody_hostRan ..).op _ rfl⟩⟩
  | sendCommand opcode args =>
    simp only [exec, execSendCommand] at h
    obtain ⟨hs, h⟩ := whenRunning_next h
    split at h
    · simp at h
    · split at h
      · simp only [settle_ok, Host.Outcome.next.injEq] at h
        exact ⟨hs, _, h.symm, .inr ⟨by simp, sendCommand_opRan (hd := rfl) ..⟩⟩
      · simp at h
  | sendPixels bytes =>
    simp only [exec, execSendPixels] at h
    obtain ⟨hs, h⟩ := whenRunning_next h
    simp only [settle_ok, Host.Outcome.next.injEq] at h
    exact ⟨hs, _, h.symm, .inr ⟨by simp, HostRan.op ⟨sendPixels_ran bytes s, (sendPixels_kept bytes s).host⟩ _ rfl⟩⟩
  | drawCircle row col radius stroke width fill =>
    simp only [exec, execDrawCircle] at h
    obtain ⟨hs, h⟩ := whenRunning_next h
    obtain ⟨r, hr, rfl⟩ := settle_next h
    exact ⟨hs, r, rfl, .inr ⟨by simp, OpRan.drawn (drawJobs_hostRan hr) rfl⟩⟩
  | drawText text row col align color =>
    simp only [exec, execDrawText] at h
    obtain ⟨hs, h⟩ := whenRunning_next h
    obtain ⟨r, hr, rfl⟩ := settle_next h
    exact ⟨hs, r, rfl, .inr ⟨by simp, OpRan.drawn (drawJobs_hostRan hr) rfl⟩⟩
  | plot r c p =>
    simp only [exec, execPlot] at h
    obtain ⟨hs, h⟩ := whenRunning_next h
    obtain ⟨q, hq, rfl⟩ := settle_next h
    exact ⟨hs, q, rfl, .inr ⟨by simp, (HostRan.andThenHost (fun _ h => hostWindow_hostRan h)
      (fun _ _ h => hostStream_hostRan h) hq).op _ rfl⟩⟩

theorem runRequest_next {reachable : Bool} {r : Request} {s t : State} (h : runRequest reachable r s = .next t) :
    reachable = true ∧ ∃ i, decode r = .ok i ∧ exec i s = .next t := by
  unfold runRequest at h
  split at h
  · rename_i hr
    split at h
    · rename_i i hd; exact ⟨hr, i, hd, h⟩
    · simp at h
  · simp at h

/-- A step that takes a next state holds the state, or runs a decoded request: from the port one that a host can make,
and from the Bus Transport's boundary, which goes first, one that no host can (R15, R275 (a)). -/
theorem step_cases {s t : State} (h : step s = .next t) :
    s.spi = .idle ∧ ((s.bench = [] ∧ s.port = [] ∧ t = s) ∨
      ∃ r rest i s0, decode r = .ok i ∧ exec i s0 = .next t ∧
        ((s.bench = [] ∧ s.port = r :: rest ∧ fromHost r = true ∧ s0 = s.withPort rest) ∨
          (s.bench = r :: rest ∧ fromHost r = false ∧ s0 = s.withBench rest))) := by
  obtain ⟨hs, h⟩ := whenRunning_next h
  refine ⟨hs, ?_⟩
  split at h
  · rename_i r rest hb
    obtain ⟨hr, i, hd, h⟩ := runRequest_next h
    exact .inr ⟨r, rest, i, _, hd, h, .inr ⟨hb, by simpa using hr, rfl⟩⟩
  · rename_i r rest hb hp
    obtain ⟨hr, i, hd, h⟩ := runRequest_next h
    exact .inr ⟨r, rest, i, _, hd, h, .inl ⟨hb, hp, hr, rfl⟩⟩
  · rename_i hb hp; simp only [Host.Outcome.next.injEq] at h; exact .inl ⟨hb, hp, h.symm⟩

end Sys2Proof.Machine
end

