-- ==== Sys2Proof/Laws/Draw.lean ====
section
/-! SUPPORT. Host operations in Ready with every transfer `ok`, and what the receiver holds after them. -/

namespace Sys2Proof.Machine

/-- A state the host can go on from as from `s`: idle, Ready, the same configuration, dimensions and script of
answers, `n` answers drawn. -/
structure GoesOn (s t : State) (n : Nat) : Prop where
  spi : t.spi = .idle
  ctrl : t.ctrl = .ready
  cfg : t.cfg = s.cfg
  orient : t.orient = s.orient
  script : t.spiScript = s.spiScript
  drawn : t.spiDrawn = s.spiDrawn + n

theorem GoesOn.dims? {s t : State} {n : Nat} (h : GoesOn s t n) : t.dims? = s.dims? := by
  simp only [State.dims?, h.orient, h.cfg]

theorem GoesOn.answersOk {s t : State} {m n : Nat} (h : GoesOn s t m) (ha : s.answersOk (m + n)) : t.answersOk n := by
  intro k hk
  have := ha (m + k) (by omega)
  simp only [State.answerAt, h.script, h.drawn] at this ⊢
  rwa [Nat.add_assoc]

theorem GoesOn.trans {s t u : State} {m n : Nat} (h1 : GoesOn s t m) (h2 : GoesOn t u n) : GoesOn s u (m + n) where
  spi := h2.spi
  ctrl := h2.ctrl
  cfg := h2.cfg.trans h1.cfg
  orient := h2.orient.trans h1.orient
  script := h2.script.trans h1.script
  drawn := by rw [h2.drawn, h1.drawn, Nat.add_assoc]

/-- SET_ADDRESS_WINDOW in Ready, every transfer `ok`: the receiver's window is opened. -/
theorem hostWindow_rx {s : State} {r0 r1 c0 c1 : Half} {nr nc : Nat} (hs : s.spi = .idle) (hc : s.ctrl = .ready)
    (hd : s.cfg.opc.distinct = true) (hdm : s.dims? = some (nr, nc)) (hb : boundsOk nr nc r0 r1 c0 c1 = true)
    (ho : s.rx.boot = .open) (ha : s.answersOk 5) :
    ∃ t, hostWindow r0 r1 c0 c1 s = .ok (t, .ok) ∧ GoesOn s t 5 ∧ t.completions = s.completions ∧
      t.rx = s.rx.opened s.cfg r0 r1 c0 c1 := by
  obtain ⟨h1, h2, h3, h4⟩ := boundsOk_iff.mp hb
  have ha' : (s.accept 2 r0 r1 c0 c1).answersOk 5 := ha
  refine ⟨_, (hostWindow_eq hc hdm hb).trans (congrArg Except.ok (windowBody_ok ha' r0 r1 c0 c1)),
    ⟨hs, hc, rfl, rfl, rfl, rfl⟩, rfl, ?_⟩
  refine Eq.trans (State.rx_append (s := s) (evs := commandFrames s.cfg (windowTable r0 r1 c0 c1)) ?_ ?_)
    (Rx.run_window hd ho h1 h3) <;> rfl

/-- WRITE_PIXEL_STREAM in Ready, every transfer `ok`: the receiver stores the pixels. -/
theorem hostStream_rx {s : State} (hs : s.spi = .idle) (hc : s.ctrl = .ready) {px : List Pixel}
    (ha : s.answersOk (if px = [] then 0 else 1)) (hr : s.rx.Streaming s.cfg) (a b c2 d : Half) :
    ∃ t, hostStream a b c2 d px s = .ok (t, .ok) ∧ GoesOn s t (if px = [] then 0 else 1) ∧
      t.completions = s.completions ∧ t.rx = { px.foldl Rx.store s.rx with selected := false } := by
  have ht : (if px = [] then 0 else 1) = transfers (pixelBytes px) := by simp [transfers]
  rw [ht] at ha ⊢
  have ha' : (s.accept 3 a b c2 d).answersOk (transfers (pixelBytes px)) := ha
  refine ⟨_, (hostStream_eq hc a b c2 d px).trans (congrArg Except.ok (streamBody_ok ha')),
    ⟨hs, hc, rfl, rfl, rfl, rfl⟩, rfl, ?_⟩
  refine Eq.trans (State.rx_append (s := s) (evs := dataFrame (pixelBytes px)) ?_ ?_)
    (Rx.run_dataFrame hr.boot hr.cmd hr.fmt hr.half px) <;> rfl

/-- `GoesOn` after the completion value is handed back. -/
theorem GoesOn.complete {s t : State} {n : Nat} (h : GoesOn s t n) (c : Completion) : GoesOn s (t.complete c) n :=
  ⟨h.spi, h.ctrl, h.cfg, h.orient, h.script, h.drawn⟩

@[simp] theorem complete_rx (s : State) (c : Completion) : (s.complete c).rx = s.rx := rfl
@[simp] theorem complete_completions (s : State) (c : Completion) : (s.complete c).completions = s.completions ++ [c] := rfl

theorem exec_window {s : State} {r0 r1 c0 c1 : Half} {nr nc : Nat} (hs : s.spi = .idle) (hc : s.ctrl = .ready)
    (hd : s.cfg.opc.distinct = true) (hdm : s.dims? = some (nr, nc)) (hb : boundsOk nr nc r0 r1 c0 c1 = true)
    (ho : s.rx.boot = .open) (ha : s.answersOk 5) :
    ∃ t, exec (.setAddressWindow r0 r1 c0 c1) s = .next t ∧ GoesOn s t 5 ∧ t.completions = s.completions ++ [.ok] ∧
      t.rx = s.rx.opened s.cfg r0 r1 c0 c1 := by
  obtain ⟨t, h1, h2, h3, h4⟩ := hostWindow_rx hs hc hd hdm hb ho ha
  refine ⟨t.complete .ok, ?_, h2.complete _, by rw [complete_completions, h3], h4⟩
  simp only [exec, execSetAddressWindow, whenRunning_idle hs, h1, settle_ok, finish_ok]

theorem exec_stream {s : State} (hs : s.spi = .idle) (hc : s.ctrl = .ready) {px : List Pixel}
    (ha : s.answersOk (if px = [] then 0 else 1)) (hr : s.rx.Streaming s.cfg) (a b c2 d : Half) :
    ∃ t, exec (.writePixelStream a b c2 d px) s = .next t ∧ GoesOn s t (if px = [] then 0 else 1) ∧
      t.completions = s.completions ++ [.ok] ∧ t.rx = { px.foldl Rx.store s.rx with selected := false } := by
  obtain ⟨t, h1, h2, h3, h4⟩ := hostStream_rx hs hc ha hr a b c2 d
  refine ⟨t.complete .ok, ?_, h2.complete _, by rw [complete_completions, h3], h4⟩
  simp only [exec, execWritePixelStream, whenRunning_idle hs, h1, settle_ok, finish_ok]

/-- Streams one after the other in a data phase: one pixel stream (R81). -/
theorem execAll_streams (chunks : List (List Pixel)) (hne : chunks ≠ []) {s : State} (hs : s.spi = .idle)
    (hc : s.ctrl = .ready) (ha : s.answersOk (chunks.filter fun px => !px.isEmpty).length) (hr : s.rx.Streaming s.cfg) :
    ∃ t, execAll (chunks.map (.writePixelStream 0 0 0 0)) s = .next t ∧
      t.rx = { chunks.flatten.foldl Rx.store s.rx with selected := false } := by
  induction chunks generalizing s with
  | nil => exact absurd rfl hne
  | cons px rest ih =>
    have hlen : (List.filter (fun px => !px.isEmpty) (px :: rest)).length =
        (if px = [] then 0 else 1) + (rest.filter fun px => !px.isEmpty).length := by
      cases px <;> simp; omega
    rw [hlen] at ha
    obtain ⟨t, h1, h2, -, h4⟩ := exec_stream hs hc (px := px) (State.answersOk_mono ha (by omega)) hr 0 0 0 0
    simp only [List.map_cons, execAll, h1]
    cases rest with
    | nil => exact ⟨t, rfl, by rw [h4]; simp⟩
    | cons qx rest' =>
      obtain ⟨u, g1, g2⟩ := ih (by simp) h2.spi h2.ctrl (h2.answersOk ha) (by rw [h2.cfg, h4]; exact Rx.stores_streaming hr px)
      have hf : (px :: qx :: rest').flatten = px ++ (qx :: rest').flatten := rfl
      exact ⟨u, g1, by rw [g2, h4, hf, List.foldl_append, Rx.stores_selected]⟩

end Sys2Proof.Machine
end

