-- ==== Sys2Proof/Laws/Renderer.lean ====
section
/-! SUPPORT. The renderer's jobs with every transfer `ok`: what the receiver holds after them; and the plans of circles
and texts. -/

namespace Sys2Proof.Machine

/-! ### Coordinates as bounds -/

theorem toBound?_eq {v : Int} (h0 : 0 ≤ v) (h1 : v < 65536) : ∃ b : Half, toBound? v = some b ∧ (b.toNat : Int) = v := by
  refine ⟨BitVec.ofNat 16 v.toNat, by simp [toBound?, h0, h1], ?_⟩
  simp only [BitVec.toNat_ofNat]
  omega

theorem toBound?_some {v : Int} {b : Half} (h : toBound? v = some b) : (b.toNat : Int) = v := by
  unfold toBound? at h
  split at h
  · simp only [Option.some.injEq] at h
    subst h
    simp only [BitVec.toNat_ofNat]
    omega
  · simp at h

/-! ### One job -/

/-- A run inside the panel. -/
def inPanel (run : Run) (nr nc : Nat) : Prop := 0 ≤ run.row ∧ run.row < nr ∧ 0 ≤ run.c0 ∧ run.c0 ≤ run.c1 ∧ run.c1 < nc

/-- The stores a job makes: its pixels from the left of its run. -/
def jobStores (job : Run × List Pixel) : List PixelStore :=
  job.2.zipIdx.map fun pi => { r := job.1.row.toNat, c := job.1.c0.toNat + pi.2, p := pi.1 }

/-- What the receiver has to be in between jobs. -/
structure RxBetween (s t : State) (stores : List PixelStore) : Prop where
  boot : t.rx.boot = .open
  fmt : t.rx.fmt = some s.cfg.pixfmtArg
  px : t.rx.px = s.rx.px ++ stores
  undef : t.rx.close.undef = s.rx.close.undef
  mark : t.rx.beforeOrient = s.rx.beforeOrient
  verdicts : ∃ entries, t.rx.close.verdicts = s.rx.close.verdicts ++ entries ∧ ∀ e ∈ entries, e.verdict = .exact

theorem RxBetween.refl {s : State} (h : s.rxReady) : RxBetween s s [] :=
  ⟨h.1, h.2, by simp, rfl, rfl, [], by simp, by simp⟩

theorem RxBetween.trans {s t u : State} {x y : List PixelStore} (hc : t.cfg = s.cfg) (h1 : RxBetween s t x)
    (h2 : RxBetween t u y) : RxBetween s u (x ++ y) := by
  obtain ⟨e1, g1, g2⟩ := h1.verdicts
  obtain ⟨e2, g3, g4⟩ := h2.verdicts
  refine ⟨h2.boot, by rw [h2.fmt, hc], by rw [h2.px, h1.px, List.append_assoc], h2.undef.trans h1.undef,
    h2.mark.trans h1.mark, e1 ++ e2, ?_, ?_⟩
  · rw [g3, g1, List.append_assoc]
  · intro e he
    rcases List.mem_append.mp he with he | he
    · exact g2 e he
    · exact g4 e he

/-- One run in the panel, with as many pixels as it is wide. -/
theorem job_rx {s : State} {run : Run} {px : List Pixel} {nr nc : Nat} (hs : s.spi = .idle) (hc : s.ctrl = .ready)
    (hd : s.cfg.opc.distinct = true) (hdm : s.dims? = some (nr, nc)) (hnr : nr ≤ 65536) (hnc : nc ≤ 65536)
    (hr : s.rxReady) (hp : inPanel run nr nc) (hl : (px.length : Int) = run.c1 - run.c0 + 1) (ha : s.answersOk 6) :
    ∃ t, andThenHost (hostRun run s) (hostStream 0 0 0 0 px) = .ok (t, .ok) ∧ GoesOn s t 6 ∧
      t.completions = s.completions ∧ RxBetween s t (jobStores (run, px)) := by
  obtain ⟨p1, p2, p3, p4, p5⟩ := hp
  obtain ⟨w, hw1, hw2⟩ := toBound?_eq p1 (by omega)
  obtain ⟨c0, hc1, hc2⟩ := toBound?_eq p3 (by omega)
  obtain ⟨c1, hc3, hc4⟩ := toBound?_eq (v := run.c1) (by omega) (by omega)
  have hb : boundsOk nr nc w w c0 c1 = true := boundsOk_iff.mpr ⟨le_rfl, by omega, by omega, by omega⟩
  have hne : px ≠ [] := by rintro rfl; simp at hl; omega
  obtain ⟨t, h1, h2, h3, h4⟩ := hostWindow_rx hs hc hd hdm hb hr.1 (State.answersOk_mono ha (by omega))
  have hst : t.rx.Streaming t.cfg := by rw [h2.cfg, h4]; exact Rx.opened_streaming hd hr.1 hr.2 ..
  obtain ⟨u, g1, g2, g3, g4⟩ := hostStream_rx h2.spi h2.ctrl (px := px) (by simpa [hne] using h2.answersOk (n := 1) ha) hst 0 0 0 0
  rw [if_neg hne] at g2
  refine ⟨u, ?_, h2.trans g2, by rw [g3, h3], ?_⟩
  · simp only [hostRun, hw1, hc1, hc3, h1, andThenHost_ok, g1]
  have hfill := Rx.opened_filling s.cfg s.rx w w c0 c1
  rw [← h4] at hfill
  have harea : px.length = windowArea w.toNat w.toNat c0.toNat c1.toNat := by unfold windowArea; simp; omega
  obtain ⟨f1, f2, f3⟩ := Rx.stores_filling le_rfl (by omega) hfill px (by omega)
  obtain ⟨e1, e2⟩ := Rx.close_filling f1 (by omega)
  simp only [Nat.zero_add] at e1 e2
  have hu := Rx.stores_streaming hst px
  rw [← g4] at hu
  refine ⟨hu.boot, by rw [hu.fmt, h2.cfg], ?_, ?_, ?_, ?_⟩
  · rw [g4]
    simp only [f2]
    rw [h4]
    simp only [Rx.opened]
    congr 1
    simp only [rowMajorFrom, jobStores]
    apply List.map_congr_left
    rintro ⟨q, i⟩ hi
    have hi' := (List.mem_zipIdx hi).2.1
    have hlt : i < c1.toNat - c0.toNat + 1 := by omega
    simp only [Nat.div_eq_of_lt hlt, Nat.mod_eq_of_lt hlt, PixelStore.mk.injEq, and_true]
    omega
  · rw [g4, Rx.close_withSelected]
    simp only [e2, f3, harea]
    rw [h4]; simp [Rx.opened]
  · rw [g4, Rx.stores_eq, h4]; rfl
  · rw [g4, Rx.close_withSelected]
    refine ⟨[{ row := .bounds w w, col := .bounds c0 c1, cnt := px.length
               verdict := if px.length = windowArea w.toNat w.toNat c0.toNat c1.toNat then .exact else .short }], ?_, ?_⟩
    · simp only [e1]
      rw [Rx.stores_eq, h4]
      rfl
    · simp [harea]

/-- Jobs in the panel, each with as many pixels as its run is wide. -/
theorem drawJobs_rx (jobs : List (Run × List Pixel)) {s : State} {nr nc : Nat} (hs : s.spi = .idle) (hc : s.ctrl = .ready)
    (hd : s.cfg.opc.distinct = true) (hdm : s.dims? = some (nr, nc)) (hnr : nr ≤ 65536) (hnc : nc ≤ 65536)
    (hr : s.rxReady) (hp : ∀ j ∈ jobs, inPanel j.1 nr nc ∧ (j.2.length : Int) = j.1.c1 - j.1.c0 + 1)
    (ha : s.answersOk (6 * jobs.length)) :
    ∃ t, drawJobs jobs s = .ok (t, .ok) ∧ GoesOn s t (6 * jobs.length) ∧ t.completions = s.completions ∧
      RxBetween s t (jobs.flatMap jobStores) := by
  induction jobs generalizing s with
  | nil => exact ⟨s, rfl, ⟨hs, hc, rfl, rfl, rfl, rfl⟩, rfl, RxBetween.refl hr⟩
  | cons job rest ih =>
    have hlen : 6 * (job :: rest).length = 6 + 6 * rest.length := by simp; omega
    rw [hlen] at ha ⊢
    obtain ⟨t, h1, h2, h3, h4⟩ := job_rx hs hc hd hdm hnr hnc hr (hp job (by simp)).1 (hp job (by simp)).2
      (State.answersOk_mono ha (by omega))
    have hrt : t.rxReady := ⟨h4.boot, by rw [h4.fmt, h2.cfg]⟩
    obtain ⟨u, g1, g2, g3, g4⟩ := ih h2.spi h2.ctrl (by rw [h2.cfg]; exact hd) (by rw [h2.dims?]; exact hdm) hrt
      (fun j hj => hp j (by simp [hj])) (h2.answersOk ha)
    refine ⟨u, by rw [drawJobs, h1, andThenHost_ok, g1], h2.trans g2, g3.trans h3, ?_⟩
    rw [List.flatMap_cons]
    exact h4.trans h2.cfg g4

/-- A job off the panel is refused, whatever comes after it, if the jobs before it are in it. -/
theorem drawJobs_refused (jobs : List (Run × List Pixel)) {s : State} {nr nc : Nat} (hs : s.spi = .idle) (hc : s.ctrl = .ready)
    (hdm : s.dims? = some (nr, nc)) (hp : ∃ j ∈ jobs, ¬ inPanel j.1 nr nc) (ha : s.answersOk (6 * jobs.length)) :
    drawJobs jobs s = .error .windowOutOfBounds := by
  induction jobs generalizing s with
  | nil => simp at hp
  | cons job rest ih =>
    have hlen : 6 * (job :: rest).length = 6 + 6 * rest.length := by simp; omega
    rw [hlen] at ha
    rw [drawJobs]
    have hcase : hostRun job.1 s = .error .windowOutOfBounds ∨ ∃ w c0 c1 : Half, (w.toNat : Int) = job.1.row ∧
        (c0.toNat : Int) = job.1.c0 ∧ (c1.toNat : Int) = job.1.c1 ∧ boundsOk nr nc w w c0 c1 = true ∧
        hostRun job.1 s = .ok (windowBody w w c0 c1 (s.accept 2 w w c0 c1)) := by
      unfold hostRun
      split
      · rename_i w c0 c1 h1 h2 h3
        by_cases hb : boundsOk nr nc w w c0 c1 = true
        · exact .inr ⟨w, c0, c1, toBound?_some h1, toBound?_some h2, toBound?_some h3, hb, hostWindow_eq hc hdm hb⟩
        · left; simp [hostWindow, whenReady_ready hc, hdm, hb]
      · left; simp [whenReady_ready hc]
    rcases hcase with h | ⟨w, c0, c1, e1, e2, e3, hb, h⟩
    · rw [h]; rfl
    · have hin : inPanel job.1 nr nc := by
        obtain ⟨b1, b2, b3, b4⟩ := boundsOk_iff.mp hb
        refine ⟨?_, ?_, ?_, ?_, ?_⟩ <;> omega
      have ha5 : (s.accept 2 w w c0 c1).answersOk 5 := State.answersOk_mono ha (by omega)
      rw [h, windowBody_ok ha5, andThenHost_ok]
      rw [hostStream_eq (by simpa using hc)]
      have ha6 : (((s.accept 2 w w c0 c1).sent (commandFrames (s.accept 2 w w c0 c1).cfg (windowTable w w c0 c1)) 5).accept 3 0 0 0 0).answersOk
          (transfers (pixelBytes job.2)) := by
        refine (State.answersOk_congr (s := (s.accept 2 w w c0 c1).sent (commandFrames (s.accept 2 w w c0 c1).cfg (windowTable w w c0 c1)) 5)
          rfl rfl _).mpr (State.answersOk_sent _ (State.answersOk_mono (s := s.accept 2 w w c0 c1) ha ?_))
        unfold transfers; split <;> omega
      rw [streamBody_ok ha6, andThenHost_ok]
      refine ih ?_ ?_ ?_ ?_ ?_
      · exact hs
      · exact hc
      · exact hdm
      · obtain ⟨j, hj, hn⟩ := hp
        rcases List.mem_cons.mp hj with rfl | hj
        · exact absurd hin hn
        · exact ⟨j, hj, hn⟩
      · intro k hk
        have hk' := ha (5 + transfers (pixelBytes job.2) + k) (by unfold transfers; split <;> omega)
        simp only [State.answerAt] at hk' ⊢
        simp only [State.sent, State.accept]
        rw [show s.spiDrawn + 5 + transfers (pixelBytes job.2) + k = s.spiDrawn + (5 + transfers (pixelBytes job.2) + k) by omega]
        exact hk'

/-! ### Clipping (N14) -/

/-- What the renderer clips to, by what the host knows: the panel as the block has it, in Ready only. -/
theorem State.panel?_ready {s : State} (hk : s.hostKnows) (h : s.ctrl = .ready) : s.panel? = s.dims? := by
  unfold State.hostKnows at hk
  rw [State.panel?, hk, if_pos h, State.dims?]

theorem State.panel?_notReady {s : State} (hk : s.hostKnows) (h : s.ctrl ≠ .ready) : s.panel? = none := by
  unfold State.hostKnows at hk
  rw [State.panel?, hk, if_neg h, Option.bind_none]

@[simp] theorem clipPlan_none (choice : RenderChoice) (plan : List Run) : clipPlan choice none plan = plan := by
  unfold clipPlan
  cases choice.clips <;> rfl

theorem clipPlan_unclipped {choice : RenderChoice} (h : choice.clips = false) (panel : Option (Nat × Nat))
    (plan : List Run) : clipPlan choice panel plan = plan := by simp [clipPlan, h]

theorem clipPlan_clipped {choice : RenderChoice} (h : choice.clips = true) (nr nc : Nat) (plan : List Run) :
    clipPlan choice (some (nr, nc)) plan = plan.filterMap (clipRun nr nc) := by simp [clipPlan, h]

/-- What clipping one run gives: its columns inside the panel. -/
theorem clipRun_eq_some {nr nc : Nat} {run run' : Run} : clipRun nr nc run = some run' ↔
    inPanel run' nr nc ∧ run'.row = run.row ∧ run'.c0 = max run.c0 0 ∧ run'.c1 = min run.c1 ((nc : Int) - 1) := by
  obtain ⟨r, a, b⟩ := run'
  unfold clipRun inPanel
  simp only [Option.ite_none_right_eq_some, Option.some.injEq, Run.mk.injEq]
  omega

/-- Clipping makes a plan no longer. -/
theorem clipPlan_length_le (choice : RenderChoice) (panel : Option (Nat × Nat)) (plan : List Run) :
    (clipPlan choice panel plan).length ≤ plan.length := by
  unfold clipPlan
  split
  · exact List.length_filterMap_le _ _
  all_goals exact le_rfl

/-- Every run that is left is part of a run of the plan. -/
theorem clipPlan_sub {choice : RenderChoice} {panel : Option (Nat × Nat)} {plan : List Run} {run' : Run}
    (h : run' ∈ clipPlan choice panel plan) : ∃ run ∈ plan, run'.row = run.row ∧ run.c0 ≤ run'.c0 ∧ run'.c1 ≤ run.c1 := by
  unfold clipPlan at h
  split at h
  · obtain ⟨run, hr, hc⟩ := List.mem_filterMap.mp h
    obtain ⟨-, h1, h2, h3⟩ := clipRun_eq_some.mp hc
    exact ⟨run, hr, h1, by omega, by omega⟩
  all_goals exact ⟨run', h, rfl, le_rfl, le_rfl⟩

/-- What is left lies in the panel, if all of the plan does or the renderer clips. -/
theorem clipPlan_inPanel {choice : RenderChoice} {nr nc : Nat} {plan : List Run}
    (h : (∀ run ∈ plan, inPanel run nr nc) ∨ choice.clips = true) {run : Run}
    (hr : run ∈ clipPlan choice (some (nr, nc)) plan) : inPanel run nr nc := by
  cases hc : choice.clips with
  | true =>
    rw [clipPlan_clipped hc] at hr
    obtain ⟨_, -, h1⟩ := List.mem_filterMap.mp hr
    exact (clipRun_eq_some.mp h1).1
  | false => rw [clipPlan_unclipped hc] at hr; rw [hc] at h; exact h.resolve_right (by simp) run hr

/-- What the plan covers inside the panel stays covered. -/
theorem clipPlan_covers {choice : RenderChoice} {nr nc : Nat} {plan : List Run} {run : Run} (hr : run ∈ plan) {c : Int}
    (h0 : run.c0 ≤ c) (h1 : c ≤ run.c1) (hp : 0 ≤ run.row ∧ run.row < nr ∧ 0 ≤ c ∧ c < nc) :
    ∃ run' ∈ clipPlan choice (some (nr, nc)) plan, run'.row = run.row ∧ run'.c0 ≤ c ∧ c ≤ run'.c1 := by
  cases hc : choice.clips with
  | true =>
    rw [clipPlan_clipped hc]
    refine ⟨{ row := run.row, c0 := max run.c0 0, c1 := min run.c1 ((nc : Int) - 1) }, List.mem_filterMap.mpr ⟨run, hr,
      clipRun_eq_some.mpr ⟨⟨?_, ?_, ?_, ?_, ?_⟩, rfl, rfl, rfl⟩⟩, rfl, ?_, ?_⟩ <;> simp only <;> omega
  | false => rw [clipPlan_unclipped hc]; exact ⟨run, hr, rfl, h0, h1⟩

/-! ### Circles (R242, R243) -/

theorem halfWidth_le (lim : Int) (n : Nat) : halfWidth lim n ≤ n := by
  induction n with
  | zero => simp [halfWidth]
  | succ n ih => rw [halfWidth]; split <;> omega

theorem halfWidth_sq {lim : Int} (h : 0 ≤ lim) (n : Nat) : (halfWidth lim n : Int) * (halfWidth lim n : Int) ≤ lim := by
  induction n with
  | zero => simpa [halfWidth] using h
  | succ n ih => rw [halfWidth]; split <;> assumption

theorem halfWidth_max {lim : Int} (n k : Nat) (hk : k ≤ n) (h : (k : Int) * k ≤ lim) : k ≤ halfWidth lim n := by
  induction n with
  | zero => omega
  | succ n ih =>
    rw [halfWidth]
    split
    · exact hk
    · rename_i hn
      refine ih ?_
      rcases Nat.lt_or_ge k (n + 1) with h' | h'
      · omega
      · have : k = n + 1 := by omega
        subst this; exact absurd h hn

theorem mem_runCols {run : Run} {c : Int} : c ∈ runCols run ↔ run.c0 ≤ c ∧ c ≤ run.c1 := by
  simp only [runCols, List.mem_map, List.mem_range]
  constructor
  · rintro ⟨k, hk, rfl⟩; omega
  · rintro ⟨h1, h2⟩; exact ⟨(c - run.c0).toNat, by omega, by omega⟩

theorem mem_circlePixels {row col radius : Nat} {rc : Int × Int} :
    rc ∈ circlePixels row col radius ↔ dist2 row col rc.1 rc.2 ≤ (radius : Int) * radius := by
  obtain ⟨r, c⟩ := rc
  simp only [circlePixels, List.mem_flatMap, List.mem_filterMap, List.mem_range]
  constructor
  · rintro ⟨i, hi, j, hj, h⟩
    split at h
    · rename_i hd; simp only [Option.some.injEq, Prod.mk.injEq] at h; obtain ⟨rfl, rfl⟩ := h; exact hd
    · simp at h
  · intro h
    have h1 : (r - row) * (r - row) ≤ (radius : Int) * radius := by
      unfold dist2 at h; nlinarith [mul_self_nonneg (c - col)]
    have h2 : (c - col) * (c - col) ≤ (radius : Int) * radius := by
      unfold dist2 at h; nlinarith [mul_self_nonneg (r - row)]
    have h1a : |r - row| ≤ radius := abs_le_of_sq_le_sq (by nlinarith) (by omega)
    have h2a : |c - col| ≤ radius := abs_le_of_sq_le_sq (by nlinarith) (by omega)
    rw [abs_le] at h1a h2a
    refine ⟨(r - row + radius).toNat, by omega, (c - col + radius).toNat, by omega, ?_⟩
    rw [show (row : Int) - radius + ((r - row + radius).toNat : Int) = r by omega,
      show (col : Int) - radius + ((c - col + radius).toNat : Int) = c by omega, if_pos h]

/-- What an allowed plan is. -/
theorem circlePlanOk_iff {row col radius : Nat} {plan : List Run} : circlePlanOk row col radius plan = true ↔
    (∀ run ∈ plan, run.c0 ≤ run.c1 ∧ ∀ c, run.c0 ≤ c → c ≤ run.c1 → dist2 row col run.row c ≤ (radius : Int) * radius) ∧
    ∀ r c, dist2 row col r c ≤ (radius : Int) * radius → ∃ run ∈ plan, run.row = r ∧ run.c0 ≤ c ∧ c ≤ run.c1 := by
  simp only [circlePlanOk, Bool.and_eq_true, List.all_eq_true, decide_eq_true_eq, List.any_eq_true, mem_runCols]
  constructor
  · rintro ⟨h1, h2⟩
    refine ⟨fun run hr => ⟨(h1 run hr).1, fun c a b => (h1 run hr).2 c ⟨a, b⟩⟩, fun r c h => ?_⟩
    obtain ⟨run, hr, ⟨a, b⟩, d⟩ := h2 (r, c) (mem_circlePixels.mpr h)
    exact ⟨run, hr, a, b, d⟩
  · rintro ⟨h1, h2⟩
    refine ⟨fun run hr => ⟨(h1 run hr).1, fun c h => (h1 run hr).2 c h.1 h.2⟩, fun rc h => ?_⟩
    obtain ⟨run, hr, a, b, d⟩ := h2 rc.1 rc.2 (mem_circlePixels.mp h)
    exact ⟨run, hr, ⟨a, b⟩, d⟩

/-- The plain plan is allowed. -/
theorem circleRows_ok (row col radius : Nat) : circlePlanOk row col radius (circleRows row col radius) = true := by
  rw [circlePlanOk_iff]
  constructor
  · intro run hr
    simp only [circleRows, List.mem_map, List.mem_range] at hr
    obtain ⟨i, hi, rfl⟩ := hr
    simp only
    refine ⟨by omega, fun c h1 h2 => ?_⟩
    have hlim : 0 ≤ (radius : Int) * radius - ((i : Int) - radius) * ((i : Int) - radius) := by nlinarith
    have hsq := halfWidth_sq hlim radius
    generalize halfWidth _ radius = h at h1 h2 hsq
    unfold dist2
    have : (c - col) * (c - col) ≤ (h : Int) * h := by nlinarith
    have e : ((row : Int) + ((i : Int) - radius) - row) = (i : Int) - radius := by ring
    rw [e]; omega
  · intro r c h
    have h1 : (r - row) * (r - row) ≤ (radius : Int) * radius := by
      unfold dist2 at h; nlinarith [mul_self_nonneg (c - col)]
    have h2 : (c - col) * (c - col) ≤ (radius : Int) * radius := by
      unfold dist2 at h; nlinarith [mul_self_nonneg (r - row)]
    have h1a : |r - row| ≤ radius := abs_le_of_sq_le_sq (by nlinarith) (by omega)
    have h2a : |c - col| ≤ radius := abs_le_of_sq_le_sq (by nlinarith) (by omega)
    rw [abs_le] at h1a
    have hk : ((c - col).natAbs : Int) * ((c - col).natAbs : Int) = (c - col) * (c - col) := Int.natAbs_mul_self' _
    have hi : (((r - row + radius).toNat : Nat) : Int) - radius = r - row := by omega
    refine ⟨_, List.mem_map.mpr ⟨(r - row + radius).toNat, List.mem_range.mpr (by omega), rfl⟩, ?_⟩
    simp only [hi]
    have hm := halfWidth_max (lim := (radius : Int) * radius - (r - row) * (r - row)) radius (c - col).natAbs
      (by rw [abs_le] at h2a; omega) (by rw [hk]; unfold dist2 at h; omega)
    refine ⟨by ring, ?_, ?_⟩ <;> omega

/-- Every plan a circle is drawn by is allowed. -/
theorem circlePlan_ok (row col radius : Nat) (choice : RenderChoice) :
    circlePlanOk row col radius (circlePlan row col radius choice) = true := by
  unfold circlePlan; split
  · assumption
  · exact circleRows_ok row col radius

/-- Touched pixels, and they alone, have a colour. -/
theorem circleColor_isSome {row col radius width : Nat} {stroke fill : Pixel} {r c : Int} :
    (circleColor row col radius stroke width fill r c).isSome = true ↔ dist2 row col r c ≤ (radius : Int) * radius := by
  unfold circleColor; simp only
  split
  · rename_i h
    simp only [Option.isSome_some, true_iff]
    have : (0 : Int) ≤ ((radius - width : Nat) : Int) := by omega
    have h2 : ((radius - width : Nat) : Int) ≤ radius := by omega
    nlinarith [h.2]
  · split <;> simp_all

/-- The stores of a job whose pixels are the colours of its run's places. -/
theorem mem_jobStores_colors {run : Run} (h0 : 0 ≤ run.row) (h1 : 0 ≤ run.c0) {f : Int → Option Pixel}
    (hf : ∀ c, run.c0 ≤ c → c ≤ run.c1 → (f c).isSome = true) (e : PixelStore) :
    e ∈ jobStores (run, (runCols run).filterMap f) ↔
      (e.r : Int) = run.row ∧ run.c0 ≤ (e.c : Int) ∧ (e.c : Int) ≤ run.c1 ∧ f e.c = some e.p := by
  have hmap : (runCols run).filterMap f = (runCols run).map fun c => (f c).getD 0 := by
    rw [← List.filterMap_eq_map]
    apply List.filterMap_congr
    intro c hc
    obtain ⟨a, b⟩ := mem_runCols.mp hc
    obtain ⟨x, hx⟩ := Option.isSome_iff_exists.mp (hf c a b)
    simp [hx]
  rw [hmap]
  simp only [jobStores, List.mem_map]
  constructor
  · rintro ⟨⟨q, i⟩, hi, rfl⟩
    rw [List.mk_mem_zipIdx_iff_getElem?] at hi
    simp only [runCols, List.map_map, List.getElem?_map, Option.map_eq_some_iff, Function.comp] at hi
    obtain ⟨k, hk, hq⟩ := hi
    obtain ⟨hlt, hke⟩ := List.getElem?_eq_some_iff.mp hk
    simp only [List.getElem_range] at hke
    subst hke
    simp only [List.length_range] at hlt
    have hc : ((run.c0.toNat + i : Nat) : Int) = run.c0 + i := by omega
    refine ⟨by simp only; omega, by simp only; omega, by simp only; omega, ?_⟩
    simp only [hc]
    obtain ⟨x, hx⟩ := Option.isSome_iff_exists.mp (hf (run.c0 + i) (by omega) (by omega))
    rw [hx] at hq ⊢
    simpa using hq
  · rintro ⟨g1, g2, g3, g4⟩
    refine ⟨(e.p, ((e.c : Int) - run.c0).toNat), ?_, ?_⟩
    · rw [List.mk_mem_zipIdx_iff_getElem?]
      simp only [runCols, List.map_map, List.getElem?_map, Option.map_eq_some_iff]
      refine ⟨((e.c : Int) - run.c0).toNat, ?_, ?_⟩
      · rw [List.getElem?_range]; omega
      · simp only [Function.comp]
        rw [show run.c0 + ((((e.c : Int) - run.c0).toNat : Nat) : Int) = e.c by omega, g4]; rfl
    · cases e; simp only [PixelStore.mk.injEq, and_true] at *; omega

theorem runCols_length (run : Run) : (runCols run).length = (run.c1 - run.c0 + 1).toNat := by simp [runCols]

theorem filterMap_length_of_isSome {α β : Type} (f : α → Option β) (l : List α) (h : ∀ a ∈ l, (f a).isSome = true) :
    (l.filterMap f).length = l.length := by
  induction l with
  | nil => rfl
  | cons a rest ih =>
    obtain ⟨x, hx⟩ := Option.isSome_iff_exists.mp (h a (by simp))
    simp [hx, ih (fun b hb => h b (by simp [hb]))]

/-! ### Texts (R246) -/

theorem textOrderOk_mem {cells : List (List (Int × Int))} {pts : List (Int × Int)} (h : textOrderOk cells pts = true) :
    pts.Perm cells.flatten := by
  induction cells generalizing pts with
  | nil => simp only [textOrderOk, List.isEmpty_iff] at h; subst h; simp
  | cons cell rest ih =>
    simp only [textOrderOk, Bool.and_eq_true, List.isPerm_iff] at h
    rw [List.flatten_cons]
    have := h.1.append (ih h.2)
    rwa [List.take_append_drop] at this

/-- Every order a text is drawn in is one of its foreground pixels, each as often. -/
theorem textPoints_perm (cells : List (List (Int × Int))) (choice : RenderChoice) :
    (textPoints cells choice).Perm cells.flatten := by
  unfold textPoints; simp only
  split
  · rename_i h
    simp only [Bool.and_eq_true] at h
    exact textOrderOk_mem h.2
  · exact List.Perm.refl _

/-- The runs of a text before clipping are its foreground pixels, each as often. -/
theorem mem_textPlan {cells : List (List (Int × Int))} {choice : RenderChoice} {run : Run} :
    run ∈ (textPoints cells choice).map pointRun ↔ run.c1 = run.c0 ∧ (run.row, run.c0) ∈ cells.flatten := by
  simp only [List.mem_map, (textPoints_perm cells choice).mem_iff]
  constructor
  · rintro ⟨rc, h, rfl⟩; exact ⟨rfl, h⟩
  · rintro ⟨h1, h2⟩
    refine ⟨_, h2, ?_⟩
    cases run
    simp_all [pointRun]

theorem textPlan_length (cells : List (List (Int × Int))) (choice : RenderChoice) :
    ((textPoints cells choice).map pointRun).length = cells.flatten.length := by
  rw [List.length_map, (textPoints_perm cells choice).length_eq]

/-- A text has no more windows than foreground pixels. -/
theorem textJobs_length_le (p : Params) (choice : RenderChoice) (panel : Option (Nat × Nat)) (text : List Char)
    (row col : Nat) (align : Alignment) (color : Pixel) : (textJobs p choice panel text row col align color).length ≤
      (textCells p choice text row col align).flatten.length := by
  rw [textJobs, List.length_map, ← textPlan_length _ choice]
  exact clipPlan_length_le _ _ _

end Sys2Proof.Machine
end

