-- ==== Sys2Proof/Laws/Wire.lean ====
section
/-! SUPPORT. The shapes a primitive can leave on the wire (R101, R102, R145, R146), and from them: how each shape scans
under the discipline of R149, and that command frames move no pixel. -/

namespace Sys2Proof.Machine

/-! ### Shapes -/

/-- How a SEND_COMMAND can end: its status, its events, and the level of DC it leaves. -/
inductive CommandEnd (opcode : Byte) (args : List Byte) : Status → List Event → Bool → Prop where
  | whole : CommandEnd opcode args .ok (commandFrame opcode args) true
  | opcodeFailed : CommandEnd opcode args .failed opcodeFailedFrame false
  | argsFailed (k : Nat) (h : k < args.length) : CommandEnd opcode args .failed (argsFailedFrame opcode args k) true
  | opcodeStalled : CommandEnd opcode args .stuck [.pin .csN false, .pin .dc false] false
  | argsStalled (h : args ≠ []) :
    CommandEnd opcode args .stuck [.pin .csN false, .pin .dc false, .byte false opcode, .pin .dc true] true

/-- How a SEND_PIXELS can end. -/
inductive PixelsEnd (bytes : List Byte) : Status → List Event → Prop where
  | whole : PixelsEnd bytes .ok (dataFrame bytes)
  | failed (k : Nat) (h : k < bytes.length) : PixelsEnd bytes .failed (dataFailedFrame bytes k)
  | stalled (h : bytes ≠ []) : PixelsEnd bytes .stuck [.pin .csN false, .pin .dc true]

theorem deliveredOnFail_lt {k len : Nat} (h : 0 < len) : deliveredOnFail k len < len := by
  unfold deliveredOnFail; omega

/-- Every SEND_COMMAND ends in one of these ways, and leaves chip-select low only when stuck. -/
theorem sendCommand_ends (opcode : Byte) (args : List Byte) (s : State) :
    ∃ evs, CommandEnd opcode args (sendCommand opcode args s).2 evs (sendCommand opcode args s).1.dc ∧
      (sendCommand opcode args s).1.tr = s.tr ++ evs ∧
      (sendCommand opcode args s).1.csN = decide ((sendCommand opcode args s).2 ≠ .stuck) := by
  rcases answer_cases (s.answerAt s.spiDrawn) with h | ⟨k, h⟩ | h
  · cases args with
    | nil => rw [sendCommand_nil_ok h]; exact ⟨_, .whole, rfl, rfl⟩
    | cons a as =>
      rcases answer_cases (s.answerAt (s.spiDrawn + 1)) with h1 | ⟨k, h1⟩ | h1
      · rw [sendCommand_cons_ok h h1]; exact ⟨_, .whole, rfl, rfl⟩
      · rw [sendCommand_cons_failsArgs h h1]
        exact ⟨_, .argsFailed _ (deliveredOnFail_lt (by simp)), rfl, rfl⟩
      · have hs : s.stallsAt 1 := ⟨fun j hj => by have : j = 0 := by omega
                                                  subst this; simpa using h, h1⟩
        rw [sendCommand_stallsArgs hs (by simp)]; exact ⟨_, .argsStalled (by simp), rfl, rfl⟩
  · rw [sendCommand_failsOpcode h]; exact ⟨_, .opcodeFailed, rfl, rfl⟩
  · rw [sendCommand_stallsOpcode h]; exact ⟨_, .opcodeStalled, rfl, rfl⟩

/-- Every SEND_PIXELS ends in one of these ways. -/
theorem sendPixels_ends (bytes : List Byte) (s : State) :
    ∃ evs, PixelsEnd bytes (sendPixels bytes s).2 evs ∧ (sendPixels bytes s).1.tr = s.tr ++ evs ∧
      (sendPixels bytes s).1.csN = decide ((sendPixels bytes s).2 ≠ .stuck) ∧ (sendPixels bytes s).1.dc = true := by
  cases bytes with
  | nil =>
    rw [sendPixels_ok (bytes := []) (by intro j hj; simp [transfers] at hj)]; exact ⟨_, .whole, rfl, rfl, rfl⟩
  | cons a as =>
    rcases answer_cases (s.answerAt s.spiDrawn) with h | ⟨k, h⟩ | h
    · rw [sendPixels_cons_ok h]; exact ⟨_, .whole, rfl, rfl, rfl⟩
    · rw [sendPixels_fails h (by simp)]; exact ⟨_, .failed _ (deliveredOnFail_lt (by simp)), rfl, rfl, rfl⟩
    · rw [sendPixels_stalls h (by simp)]; exact ⟨_, .stalled (by simp), rfl, rfl, rfl⟩

/-! ### Command frames move no pixel (R79) -/

theorem CommandEnd.px {opcode : Byte} {args : List Byte} {st : Status} {evs : List Event} {dc : Bool}
    (h : CommandEnd opcode args st evs dc) (p : Params) (rx : Rx) (hc : p.opc.cmd? opcode ≠ some .ramwr ∨ args = []) :
    (rx.run p evs).px = rx.px := by
  cases h with
  | whole => exact Rx.frame_px p rx opcode args [.pin .csN true] hc (by simp)
  | opcodeFailed => exact Rx.quiet_px p rx _ (by simp [opcodeFailedFrame])
  | argsFailed k hk =>
    refine Rx.frame_px p rx opcode (args.take k) [.xferFail, .pin .csN true] ?_ (by simp)
    exact hc.imp id fun h => by simp [h]
  | opcodeStalled => exact Rx.quiet_px p rx _ (by simp)
  | argsStalled ha => exact Rx.quiet_px p rx _ (by simp)

/-- A SEND_COMMAND that sends no memory-write with arguments moves no pixel. -/
theorem sendCommand_px (opcode : Byte) (args : List Byte) (s : State)
    (hc : s.cfg.opc.cmd? opcode ≠ some .ramwr ∨ args = []) : (sendCommand opcode args s).1.rx.px = s.rx.px := by
  obtain ⟨evs, h1, h2, -⟩ := sendCommand_ends opcode args s
  have hk := sendCommand_kept opcode args s
  unfold Kept at hk
  rw [State.rx_append h2 (by rw [hk]), h1.px s.cfg s.rx hc]

/-- A table in which a memory-write has no arguments, as every table of the block. -/
def NoData (table : List (Cmd × List Byte)) : Prop := ∀ ca ∈ table, ca.1 = .ramwr → ca.2 = []

theorem sendCommands_px (table : List (Cmd × List Byte)) (hn : NoData table) (s : State) (hd : s.cfg.opc.distinct = true) :
    (sendCommands table s).1.rx.px = s.rx.px := by
  induction table generalizing s with
  | nil => rfl
  | cons ca rest ih =>
    have h1 := sendCommand_px (s.cfg.opc.byte ca.1) ca.2 s (by
      rw [Opcodes.cmd?_byte hd]
      by_cases h : ca.1 = .ramwr
      · exact .inr (hn ca (by simp) h)
      · exact .inl (by simpa using h))
    have hk := sendCommand_kept (s.cfg.opc.byte ca.1) ca.2 s
    rw [sendCommands]
    generalize sendCommand (s.cfg.opc.byte ca.1) ca.2 s = q at h1 hk
    obtain ⟨t, st⟩ := q
    cases st with
    | failed => exact h1
    | stuck => exact h1
    | ok =>
      have hcfg : t.cfg = s.cfg := by unfold Kept at hk; simp only at hk; rw [hk]
      rw [andThen_ok, ih (fun x hx => hn x (by simp [hx])) t (by rw [hcfg]; exact hd)]
      exact h1

theorem windowTable_noData (r0 r1 c0 c1 : Half) : NoData (windowTable r0 r1 c0 c1) := by simp [NoData, windowTable]

theorem windowBody_px (r0 r1 c0 c1 : Half) (s : State) (hd : s.cfg.opc.distinct = true) :
    (windowBody r0 r1 c0 c1 s).1.rx.px = s.rx.px := sendCommands_px _ (windowTable_noData _ _ _ _) s hd

/-- The host's note tells the receiver nothing. -/
@[simp] theorem noted_rx (o : Half) (r : State × Status) : (noted o r).1.rx = r.1.rx := by
  obtain ⟨t, st⟩ := r
  cases st <;> rfl

theorem initTable_noData (p : Params) (m : Byte) : NoData (p.initTable m) := by simp [NoData, Params.initTable]

theorem runInitTable_px (o : Half) (table : List (Cmd × List Byte)) (hn : NoData table) (k : Nat) (s : State)
    (hd : s.cfg.opc.distinct = true) : (runInitTable o k table s).1.rx.px = s.rx.px := by
  induction table generalizing k s with
  | nil => rfl
  | cons ca rest ih =>
    have h1 := sendCommand_px (s.cfg.opc.byte ca.1) ca.2 s (by
      rw [Opcodes.cmd?_byte hd]
      by_cases h : ca.1 = .ramwr
      · exact .inr (hn ca (by simp) h)
      · exact .inl (by simpa using h))
    have hk := sendCommand_kept (s.cfg.opc.byte ca.1) ca.2 s
    rw [runInitTable]
    generalize sendCommand (s.cfg.opc.byte ca.1) ca.2 s = q at h1 hk
    obtain ⟨t, st⟩ := q
    cases st with
    | failed => exact h1
    | stuck => exact h1
    | ok =>
      have hcfg : t.cfg = s.cfg := by unfold Kept at hk; simp only at hk; rw [hk]
      rw [andThen_ok, ih (fun x hx => hn x (by simp [hx])) (k + 1) (commandDone o k t) (by rw [commandDone_cfg, hcfg]; exact hd)]
      exact h1

/-! ### Pixel data stores at the counter (R79) -/

/-- A SEND_PIXELS, whatever the answers and whatever the receiver's state. -/
theorem sendPixels_stores (bytes : List Byte) (s : State) :
    ∃ stores, (sendPixels bytes s).1.rx.px = s.rx.px ++ stores ∧
      ∀ e ∈ stores, e.c < 65536 ∧ (e.r, e.c) ∈ s.rx.nextAddrs ((bytes.length + s.rx.halves) / 2) := by
  obtain ⟨evs, h1, h2, -⟩ := sendPixels_ends bytes s
  have hk := sendPixels_kept bytes s
  unfold Kept at hk
  rw [State.rx_append h2 (by rw [hk])]
  have key : ∀ (bs : List Byte) (tail : List Event), bs.length ≤ bytes.length → (∀ x, Event.byte true x ∉ tail) →
      ∃ stores, (s.rx.run s.cfg ([.pin .csN false, .pin .dc true] ++ bs.map (.byte true) ++ tail)).px = s.rx.px ++ stores ∧
        ∀ e ∈ stores, e.c < 65536 ∧ (e.r, e.c) ∈ s.rx.nextAddrs ((bytes.length + s.rx.halves) / 2) := by
    intro bs tail hl ht
    simp only [List.cons_append, List.nil_append, Rx.run_cons, Rx.run_append, Rx.event_select, Rx.event_dc]
    rw [Rx.quiet_px _ _ tail ht]
    have hsane : ({ s.rx with selected := true } : Rx).Sane := ⟨s.rx_sane.shut, s.rx_sane.column, s.rx_sane.stores, s.rx_sane.mark⟩
    obtain ⟨stores, g1, g2⟩ := Rx.bytes_stores s.cfg hsane bs
    refine ⟨stores, g1, fun e he => ?_⟩
    have := g2 e he
    rw [show ({ s.rx with selected := true } : Rx).nextAddrs _ = s.rx.nextAddrs _ from Rx.nextAddrs_congr rfl rfl rfl _,
      show ({ s.rx with selected := true } : Rx).halves = s.rx.halves from rfl] at this
    exact ⟨this.1, s.rx.nextAddrs_mono (by omega) _ this.2⟩
  generalize (sendPixels bytes s).2 = st at h1
  cases h1 with
  | whole => exact key bytes [.pin .csN true] le_rfl (by simp)
  | failed k hk => exact key (bytes.take k) [.xferFail, .pin .csN true] (by simp) (by simp)
  | stalled hb => exact ⟨[], by simp, by simp⟩

/-! ### The discipline of the wire (R149, R170) -/

theorem FrameScan.run_nil (p : Params) (f : FrameScan) : f.run p [] = some f := rfl
theorem FrameScan.run_cons (p : Params) (f : FrameScan) (e : Event) (evs : List Event) :
    f.run p (e :: evs) = (f.event p e).bind fun g => g.run p evs := rfl
theorem FrameScan.run_append (p : Params) (f : FrameScan) (e1 e2 : List Event) :
    f.run p (e1 ++ e2) = (f.run p e1).bind fun g => g.run p e2 := by
  simp [FrameScan.run, List.foldlM_append]

/-- Bytes with DC = 1 inside a frame are only counted. -/
theorem FrameScan.run_bytes (p : Params) {f : FrameScan} (h1 : f.inFrame = true) (h2 : f.failed = false)
    (h3 : f.level = some true) (bs : List Byte) : f.run p (bs.map (.byte true)) = some { f with bytes := f.bytes + bs.length } := by
  induction bs generalizing f with
  | nil => rfl
  | cons b rest ih =>
    rw [List.map_cons, FrameScan.run_cons]
    simp only [FrameScan.event, h1, h2, h3]
    simp only [Bool.not_false, Bool.and_self, beq_self_eq_true, if_true, Option.bind_some]
    rw [ih (by simp) (by simp) (by simp)]
    simp [Nat.add_assoc, Nat.add_comm]

/-- A command frame of one of the seven commands with its argument count, however it ends. -/
theorem CommandEnd.scan {opcode : Byte} {args : List Byte} {st : Status} {evs : List Event} {dc : Bool}
    (h : CommandEnd opcode args st evs dc) {p : Params} {c : Cmd} (hc : p.opc.cmd? opcode = some c)
    (hl : args.length = c.argCount) {f : FrameScan} (hf : f.inFrame = false) :
    ∃ g, f.run p evs = some g ∧ g.inFrame = decide (st = .stuck) ∧ g.level = some dc := by
  cases h with
  | whole =>
    simp only [commandFrame, List.cons_append, List.nil_append, FrameScan.run_cons, FrameScan.event, hf, hc]
    simp only [Bool.false_eq_true, if_false, Option.bind_some, Bool.not_false, Bool.and_self, if_true, beq_self_eq_true,
      Option.isSome_some, FrameScan.run_append]
    rw [FrameScan.run_bytes p rfl rfl rfl]
    simp [FrameScan.run_cons, FrameScan.run_nil, FrameScan.event, FrameScan.mayEnd, hc, hl]
    omega
  | opcodeFailed =>
    refine ⟨{ inFrame := false, level := some false, bytes := 0, cmd := none, failed := true }, ?_, rfl, rfl⟩
    simp [opcodeFailedFrame, FrameScan.run_cons, FrameScan.run_nil, FrameScan.event, FrameScan.mayEnd, hf]
  | argsFailed k hk =>
    simp only [argsFailedFrame, List.cons_append, List.nil_append, FrameScan.run_cons, FrameScan.event, hf, hc]
    simp only [Bool.false_eq_true, if_false, Option.bind_some, Bool.not_false, Bool.and_self, if_true, beq_self_eq_true,
      Option.isSome_some, FrameScan.run_append]
    rw [FrameScan.run_bytes p rfl rfl rfl]
    simp [FrameScan.run_cons, FrameScan.run_nil, FrameScan.event, FrameScan.mayEnd]
  | opcodeStalled =>
    refine ⟨{ inFrame := true, level := some false, bytes := 0, cmd := none, failed := false }, ?_, rfl, rfl⟩
    simp [FrameScan.run_cons, FrameScan.run_nil, FrameScan.event, hf]
  | argsStalled ha =>
    refine ⟨{ inFrame := true, level := some true, bytes := 1, cmd := some opcode, failed := false }, ?_, rfl, rfl⟩
    simp [FrameScan.run_cons, FrameScan.run_nil, FrameScan.event, hf, hc]

/-- A data frame, however it ends. -/
theorem PixelsEnd.scan {bytes : List Byte} {st : Status} {evs : List Event} (h : PixelsEnd bytes st evs) (p : Params)
    {f : FrameScan} (hf : f.inFrame = false) :
    ∃ g, f.run p evs = some g ∧ g.inFrame = decide (st = .stuck) ∧ g.level = some true := by
  cases h with
  | whole =>
    simp only [dataFrame, List.cons_append, List.nil_append, FrameScan.run_cons, FrameScan.event, hf]
    simp only [Bool.false_eq_true, if_false, Option.bind_some, Bool.not_false, Bool.and_self, if_true, FrameScan.run_append]
    rw [FrameScan.run_bytes p rfl rfl rfl]
    simp [FrameScan.run_cons, FrameScan.run_nil, FrameScan.event, FrameScan.mayEnd]
  | failed k hk =>
    simp only [dataFailedFrame, List.cons_append, List.nil_append, FrameScan.run_cons, FrameScan.event, hf]
    simp only [Bool.false_eq_true, if_false, Option.bind_some, Bool.not_false, Bool.and_self, if_true, FrameScan.run_append]
    rw [FrameScan.run_bytes p rfl rfl rfl]
    simp [FrameScan.run_cons, FrameScan.run_nil, FrameScan.event, FrameScan.mayEnd]
  | stalled hb =>
    refine ⟨{ inFrame := true, level := some true, bytes := 0, cmd := none, failed := false }, ?_, rfl, rfl⟩
    simp [FrameScan.run_cons, FrameScan.run_nil, FrameScan.event, hf]

/-- `WireOk` sees four fields. -/
theorem State.WireOk.of_eq {s t : State} (h : s.WireOk) (h1 : t.cfg = s.cfg) (h2 : t.tr = s.tr) (h3 : t.csN = s.csN)
    (h4 : t.dc = s.dc) : t.WireOk := by
  unfold State.WireOk at *; rw [h1, h2, h3, h4]; exact h

/-- A body that kept the discipline, and released chip-select unless stuck. -/
def WireKept (r : State × Status) : Prop := r.1.WireOk ∧ (r.2 ≠ .stuck → r.1.csN = true)

theorem sendCommand_wireKept {s : State} (hw : s.WireOk) (hcs : s.csN = true) {opcode : Byte} {c : Cmd}
    (hc : s.cfg.opc.cmd? opcode = some c) {args : List Byte} (hl : args.length = c.argCount) :
    WireKept (sendCommand opcode args s) := by
  obtain ⟨f, hf1, hf2, -⟩ := hw
  obtain ⟨evs, h1, h2, h3⟩ := sendCommand_ends opcode args s
  have hk := sendCommand_kept opcode args s
  have hcfg : (sendCommand opcode args s).1.cfg = s.cfg := by unfold Kept at hk; rw [hk]
  obtain ⟨g, hg1, hg2, hg3⟩ := h1.scan hc hl (f := f) (by rw [hf2, hcs]; rfl)
  refine ⟨⟨g, ?_, ?_, ?_⟩, fun hne => by rw [h3]; simpa using hne⟩
  · rw [hcfg, h2, FrameScan.run_append, hf1]; exact hg1
  · rw [hg2, h3]; simp
  · intro v hv; rw [hg3] at hv; exact (Option.some.inj hv).symm

theorem sendPixels_wireKept {s : State} (hw : s.WireOk) (hcs : s.csN = true) (bytes : List Byte) :
    WireKept (sendPixels bytes s) := by
  obtain ⟨f, hf1, hf2, -⟩ := hw
  obtain ⟨evs, h1, h2, h3, h4⟩ := sendPixels_ends bytes s
  have hk := sendPixels_kept bytes s
  have hcfg : (sendPixels bytes s).1.cfg = s.cfg := by unfold Kept at hk; rw [hk]
  obtain ⟨g, hg1, hg2, hg3⟩ := h1.scan s.cfg (f := f) (by rw [hf2, hcs]; rfl)
  refine ⟨⟨g, ?_, ?_, ?_⟩, fun hne => by rw [h3]; simpa using hne⟩
  · rw [hcfg, h2, FrameScan.run_append, hf1]; exact hg1
  · rw [hg2, h3]; simp
  · intro v hv; rw [hg3] at hv; rw [h4]; exact (Option.some.inj hv).symm

theorem WireKept.noted {r : State × Status} (h : WireKept r) (o : Half) : WireKept (Machine.noted o r) := by
  obtain ⟨t, st⟩ := r
  cases st <;> exact ⟨h.1.of_eq rfl rfl rfl rfl, h.2⟩

theorem WireKept.andThen {r : State × Status} (h1 : WireKept r) {f : State → State × Status}
    (h2 : r.1.WireOk → r.1.csN = true → WireKept (f r.1)) : WireKept (Machine.andThen r f) := by
  obtain ⟨t, st⟩ := r
  cases st with
  | failed => exact h1
  | stuck => exact h1
  | ok => exact h2 h1.1 (h1.2 (by simp))

/-- A table of commands with their argument counts, as every table of the block. -/
def Counted (table : List (Cmd × List Byte)) : Prop := ∀ ca ∈ table, ca.2.length = ca.1.argCount

theorem windowTable_counted (r0 r1 c0 c1 : Half) : Counted (windowTable r0 r1 c0 c1) := by
  simp [Counted, windowTable, Cmd.argCount]

theorem initTable_counted (p : Params) (m : Byte) : Counted (p.initTable m) := by
  simp [Counted, Params.initTable, Cmd.argCount]

theorem sendCommands_wireKept (table : List (Cmd × List Byte)) (ht : Counted table) {s : State}
    (hd : s.cfg.opc.distinct = true) (hw : s.WireOk) (hcs : s.csN = true) : WireKept (sendCommands table s) := by
  induction table generalizing s with
  | nil => exact ⟨hw, fun _ => hcs⟩
  | cons ca rest ih =>
    refine (sendCommand_wireKept hw hcs (Opcodes.cmd?_byte hd _) (ht ca (by simp))).andThen ?_
    have hk := sendCommand_kept (s.cfg.opc.byte ca.1) ca.2 s
    unfold Kept at hk
    exact fun hw' hcs' => ih (fun x hx => ht x (by simp [hx])) (by rw [hk]; exact hd) hw' hcs'

theorem fillFrames_wireKept (color : Pixel) (counts : List Nat) {s : State} (hw : s.WireOk) (hcs : s.csN = true) :
    WireKept (fillFrames color counts s) := by
  induction counts generalizing s with
  | nil => exact ⟨hw, fun _ => hcs⟩
  | cons k rest ih => exact (sendPixels_wireKept hw hcs _).andThen fun hw' hcs' => ih hw' hcs'

theorem runInitTable_wireKept (o : Half) (k : Nat) (table : List (Cmd × List Byte)) (ht : Counted table) {s : State}
    (hd : s.cfg.opc.distinct = true) (hw : s.WireOk) (hcs : s.csN = true) : WireKept (runInitTable o k table s) := by
  induction table generalizing k s with
  | nil => exact ⟨hw.of_eq rfl rfl rfl rfl, fun _ => hcs⟩
  | cons ca rest ih =>
    refine (sendCommand_wireKept hw hcs (Opcodes.cmd?_byte hd _) (ht ca (by simp))).andThen ?_
    have hk := sendCommand_kept (s.cfg.opc.byte ca.1) ca.2 s
    unfold Kept at hk
    exact fun hw' hcs' => ih (k + 1) (fun x hx => ht x (by simp [hx])) (by rw [commandDone_cfg, hk]; exact hd)
      (hw'.of_eq rfl rfl rfl rfl) hcs'

theorem WireKept.andThenHost {x : Except Refusal (State × Status)} {r : State × Status} (h1 : ∀ q, x = .ok q → WireKept q)
    {f : State → Except Refusal (State × Status)}
    (h2 : ∀ t q, x = .ok (t, .ok) → t.WireOk → t.csN = true → f t = .ok q → WireKept q)
    (h : Machine.andThenHost x f = .ok r) : WireKept r := by
  cases x with
  | error e => simp at h
  | ok q =>
    obtain ⟨t, st⟩ := q
    have hq := h1 _ rfl
    cases st with
    | failed => simp only [andThenHost_failed, Except.ok.injEq] at h; exact h ▸ hq
    | stuck => simp only [andThenHost_stuck, Except.ok.injEq] at h; exact h ▸ hq
    | ok => simp only [andThenHost_ok] at h; exact h2 t r rfl hq.1 (hq.2 (by simp)) h

theorem hostWindow_wireKept {s : State} {r0 r1 c0 c1 : Half} {r : State × Status} (hd : s.cfg.opc.distinct = true)
    (hw : s.WireOk) (hcs : s.csN = true) (h : hostWindow r0 r1 c0 c1 s = .ok r) : WireKept r := by
  obtain ⟨-, -, rfl⟩ := hostWindow_next h
  exact sendCommands_wireKept _ (windowTable_counted _ _ _ _) (s := s.accept 2 r0 r1 c0 c1) hd (hw.of_eq rfl rfl rfl rfl) hcs

theorem hostStream_wireKept {s : State} {a b c2 d : Half} {px : List Pixel} {r : State × Status} (hw : s.WireOk)
    (hcs : s.csN = true) (h : hostStream a b c2 d px s = .ok r) : WireKept r := by
  obtain ⟨-, rfl⟩ := hostStream_next h
  exact sendPixels_wireKept (s := s.accept 3 a b c2 d) (hw.of_eq rfl rfl rfl rfl) hcs _

theorem HostRan.cfg {s : State} {r : State × Status} (h : HostRan s r) : r.1.cfg = s.cfg := by
  have := h.2; unfold KeptHost at this; rw [this]

theorem drawJobs_wireKept {jobs : List (Run × List Pixel)} {s : State} {r : State × Status} (hd : s.cfg.opc.distinct = true)
    (hw : s.WireOk) (hcs : s.csN = true) (h : drawJobs jobs s = .ok r) : WireKept r := by
  induction jobs generalizing s r with
  | nil => simp only [drawJobs, Except.ok.injEq] at h; exact h ▸ ⟨hw, fun _ => hcs⟩
  | cons job rest ih =>
    refine WireKept.andThenHost (fun q hq => WireKept.andThenHost (fun q hq => ?_) (fun t q _ hw' hcs' h' =>
      hostStream_wireKept hw' hcs' h') hq) (fun t q hx hw' hcs' h' => ih ?_ hw' hcs' h') h
    · obtain ⟨_, _, _, -, -, -, hq⟩ := hostRun_next hq; exact hostWindow_wireKept hd hw hcs hq
    · have : HostRan s (t, .ok) := HostRan.andThenHost (fun _ h => hostRun_hostRan h) (fun _ _ h => hostStream_hostRan h) hx
      have := this.cfg; simp only at this; rw [this]; exact hd

end Sys2Proof.Machine
end

