-- ==== Sys2Proof/Laws/Stores.lean ====
section
/-! SUPPORT. Where host operations store, whatever the answers and whatever the receiver's state: only inside the
windows they open. -/

namespace Sys2Proof.Machine

/-! ### A counter inside a window -/

/-- If the counter stands anywhere, it stands in this window, in a memory-write's data phase. -/
def Rx.Within (p : Params) (rx : Rx) (r0 r1 c0 c1 : Half) : Prop :=
  ∀ r c, rx.cur = .pos r c → rx.cmd.bind p.opc.cmd? = some .ramwr ∧ rx.row = .bounds r0 r1 ∧ rx.col = .bounds c0 c1 ∧
    r0.toNat ≤ r ∧ r ≤ r1.toNat ∧ c0.toNat ≤ c ∧ c ≤ c1.toNat

/-- The events of a data frame, whole or cut. -/
def dataEvent : Event → Bool
  | .pin .csN _ => true
  | .pin .dc _ => true
  | .pin .rstN _ => false
  | .byte d _ => d
  | .xferFail => true
  | .wait _ => false

/-- A store is inside a window. -/
def inWindow (r0 r1 c0 c1 : Half) (e : PixelStore) : Prop :=
  r0.toNat ≤ e.r ∧ e.r ≤ r1.toNat ∧ c0.toNat ≤ e.c ∧ e.c ≤ c1.toNat

theorem Rx.store_within {p : Params} {rx : Rx} {r0 r1 c0 c1 : Half} (hr : r0.toNat ≤ r1.toNat) (hc : c0.toNat ≤ c1.toNat)
    (h : rx.Within p r0 r1 c0 c1) (q : Pixel) :
    (rx.store q).Within p r0 r1 c0 c1 ∧
      ∃ stores, (rx.store q).px = rx.px ++ stores ∧ ∀ e ∈ stores, inWindow r0 r1 c0 c1 e := by
  cases hcur : rx.cur with
  | closed =>
    have : rx.store q = rx.setUndef := by unfold Rx.store; rw [hcur]
    rw [this]
    exact ⟨fun r c hc => absurd hc (by simp [Rx.setUndef, hcur]), [], by simp [Rx.setUndef], by simp⟩
  | indeterminate =>
    have : rx.store q = rx.setUndef := by unfold Rx.store; rw [hcur]
    rw [this]
    exact ⟨fun r c hc => absurd hc (by simp [Rx.setUndef, hcur]), [], by simp [Rx.setUndef], by simp⟩
  | pos r c =>
    obtain ⟨h1, h2, h3, h4, h5, h6, h7⟩ := h r c hcur
    unfold Rx.store
    simp only [hcur, h2, h3]
    refine ⟨?_, [{ r := r, c := c, p := q }], rfl, ?_⟩
    · intro r' c' hc'
      simp only [Cursor.pos.injEq] at hc'
      refine ⟨h1, rfl, rfl, ?_⟩
      rw [← hc'.1, ← hc'.2]
      unfold nextAddr; split
      · simp only; omega
      · split <;> simp only <;> omega
    · intro e he
      simp only [List.mem_singleton] at he
      subst he
      exact ⟨h4, h5, h6, h7⟩

/-- A data byte whose command is no memory-write, or none at all: the counter stays where it is. -/
theorem Rx.event_within {p : Params} {rx : Rx} {r0 r1 c0 c1 : Half} (hr : r0.toNat ≤ r1.toNat) (hc : c0.toNat ≤ c1.toNat)
    (h : rx.Within p r0 r1 c0 c1) {e : Event} (he : dataEvent e = true) :
    (rx.event p e).Within p r0 r1 c0 c1 ∧
      ∃ stores, (rx.event p e).px = rx.px ++ stores ∧ ∀ x ∈ stores, inWindow r0 r1 c0 c1 x := by
  cases e with
  | pin q v =>
    cases q with
    | csN => cases v <;> exact ⟨h, [], by simp, by simp⟩
    | dc => cases v <;> exact ⟨h, [], by simp, by simp⟩
    | rstN => simp [dataEvent] at he
  | wait n => simp [dataEvent] at he
  | xferFail =>
    refine ⟨?_, [], by simp [Rx.event, Rx.fail], by simp⟩
    intro r c hcur
    simp only [Rx.event, Rx.fail] at hcur
    split at hcur <;> simp at hcur
  | byte d b =>
    have hd : d = true := by simpa [dataEvent] using he
    subst hd
    simp only [Rx.event]
    split
    · unfold Rx.byte
      split
      · simp only [if_true]
        by_cases hw : rx.cmd.bind p.opc.cmd? = some .ramwr
        · have hdata : rx.data p b = rx.pixelByte p b := by unfold Rx.data; rw [hw]
          rw [hdata]
          unfold Rx.pixelByte
          split
          · split
            · exact ⟨h, [], by simp, by simp⟩
            · exact Rx.store_within (rx := { rx with half := none }) hr hc h _
          · exact ⟨h, [], by simp [Rx.setUndef], by simp⟩
        · obtain ⟨d1, d2, d3, d4, -⟩ := Rx.data_deaf hw b
          refine ⟨fun r c hcur => ?_, [], by simp [d1], by simp⟩
          rw [d4] at hcur
          exact absurd (h r c hcur).1 hw
      · exact ⟨h, [], by simp [Rx.setUndef], by simp⟩
    · exact ⟨h, [], by simp, by simp⟩

theorem Rx.run_within {p : Params} {rx : Rx} {r0 r1 c0 c1 : Half} (hr : r0.toNat ≤ r1.toNat) (hc : c0.toNat ≤ c1.toNat)
    (h : rx.Within p r0 r1 c0 c1) {evs : List Event} (he : ∀ e ∈ evs, dataEvent e = true) :
    (rx.run p evs).Within p r0 r1 c0 c1 ∧
      ∃ stores, (rx.run p evs).px = rx.px ++ stores ∧ ∀ x ∈ stores, inWindow r0 r1 c0 c1 x := by
  induction evs generalizing rx with
  | nil => exact ⟨h, [], by simp, by simp⟩
  | cons e rest ih =>
    obtain ⟨h1, s1, h2, h3⟩ := Rx.event_within hr hc h (he e (by simp))
    obtain ⟨g1, s2, g2, g3⟩ := ih h1 (fun x hx => he x (by simp [hx]))
    refine ⟨g1, s1 ++ s2, by rw [Rx.run_cons, g2, h2, List.append_assoc], ?_⟩
    intro x hx
    rcases List.mem_append.mp hx with hx | hx
    · exact h3 x hx
    · exact g3 x hx

theorem PixelsEnd.dataEvents {bytes : List Byte} {st : Status} {evs : List Event} (h : PixelsEnd bytes st evs) :
    ∀ e ∈ evs, dataEvent e = true := by
  cases h with
  | whole =>
    intro e he
    simp only [dataFrame, List.mem_append, List.mem_cons, List.not_mem_nil, or_false, List.mem_map] at he
    rcases he with ((rfl | rfl) | ⟨b, -, rfl⟩) | rfl <;> rfl
  | failed k hk =>
    intro e he
    simp only [dataFailedFrame, List.mem_append, List.mem_cons, List.not_mem_nil, or_false, List.mem_map] at he
    rcases he with ((rfl | rfl) | ⟨b, -, rfl⟩) | (rfl | rfl) <;> rfl
  | stalled hb =>
    intro e he
    simp only [List.mem_cons, List.not_mem_nil, or_false] at he
    rcases he with rfl | rfl <;> rfl

/-- A SEND_PIXELS with the counter in a window, whatever the answers. -/
theorem sendPixels_within {s : State} {r0 r1 c0 c1 : Half} (hr : r0.toNat ≤ r1.toNat) (hc : c0.toNat ≤ c1.toNat)
    (h : s.rx.Within s.cfg r0 r1 c0 c1) (bytes : List Byte) :
    (sendPixels bytes s).1.rx.Within s.cfg r0 r1 c0 c1 ∧
      ∃ stores, (sendPixels bytes s).1.rx.px = s.rx.px ++ stores ∧ ∀ x ∈ stores, inWindow r0 r1 c0 c1 x := by
  obtain ⟨evs, h1, h2, -⟩ := sendPixels_ends bytes s
  have hk := sendPixels_kept bytes s
  unfold Kept at hk
  rw [State.rx_append h2 (by rw [hk])]
  exact Rx.run_within hr hc h h1.dataEvents

theorem fillFrames_within {s : State} {r0 r1 c0 c1 : Half} (hr : r0.toNat ≤ r1.toNat) (hc : c0.toNat ≤ c1.toNat)
    (h : s.rx.Within s.cfg r0 r1 c0 c1) (color : Pixel) (counts : List Nat) :
    ∃ stores, (fillFrames color counts s).1.rx.px = s.rx.px ++ stores ∧ ∀ x ∈ stores, inWindow r0 r1 c0 c1 x := by
  induction counts generalizing s with
  | nil => exact ⟨[], by simp [fillFrames], by simp⟩
  | cons k rest ih =>
    obtain ⟨h1, s1, h2, h3⟩ := sendPixels_within hr hc h (pixelBytes (List.replicate k color))
    have hk := sendPixels_kept (pixelBytes (List.replicate k color)) s
    rw [fillFrames]
    change ∃ stores, (andThen (sendPixels (pixelBytes (List.replicate k color)) s) _).1.rx.px = _ ∧ _
    generalize sendPixels (pixelBytes (List.replicate k color)) s = q at h1 h2 hk
    obtain ⟨t, st⟩ := q
    cases st with
    | failed => exact ⟨s1, h2, h3⟩
    | stuck => exact ⟨s1, h2, h3⟩
    | ok =>
      have hcfg : t.cfg = s.cfg := by unfold Kept at hk; simp only at hk; rw [hk]
      obtain ⟨s2, g2, g3⟩ := ih (s := t) (by rw [hcfg]; exact h1)
      refine ⟨s1 ++ s2, by rw [andThen_ok, g2]; simp only at h2; rw [h2, List.append_assoc], ?_⟩
      intro x hx
      rcases List.mem_append.mp hx with hx | hx
      · exact h3 x hx
      · exact g3 x hx

/-! ### After a window was set -/

/-- Frames move the reset prefix nowhere. -/
theorem Rx.byte_boot (p : Params) (rx : Rx) (d : Bool) (b : Byte) : (rx.byte p d b).boot = rx.boot := by
  unfold Rx.byte
  split
  · split
    · unfold Rx.data
      split
      · unfold Rx.casetArg; split <;> rfl
      · unfold Rx.rasetArg; split <;> rfl
      · unfold Rx.pixsetArg; split <;> rfl
      · unfold Rx.madctlArg; split <;> rfl
      · unfold Rx.pixelByte
        split
        · split
          · rfl
          · unfold Rx.store; split <;> rfl
        · rfl
      · rfl
      · rfl
      · rfl
    · unfold Rx.command; simp only
      split <;> (try unfold Rx.ramwr) <;> (try split) <;> simp [Rx.setUndef]
  · rfl

theorem Rx.run_boot (p : Params) (rx : Rx) (evs : List Event) (h1 : ∀ v, Event.pin .rstN v ∉ evs)
    (h2 : ∀ n, Event.wait n ∉ evs) : (rx.run p evs).boot = rx.boot := by
  induction evs generalizing rx with
  | nil => rfl
  | cons e rest ih =>
    rw [Rx.run_cons, ih _ (fun v hv => h1 v (by simp [hv])) (fun n hn => h2 n (by simp [hn]))]
    cases e with
    | pin q v =>
      cases q with
      | csN => cases v <;> rfl
      | dc => cases v <;> rfl
      | rstN => exact absurd (by simp) (h1 v)
    | byte d b =>
      simp only [Rx.event]
      split
      · exact Rx.byte_boot p rx d b
      · rfl
    | xferFail => rfl
    | wait n => exact absurd (by simp) (h2 n)

theorem commandFrames_lines (p : Params) (table : List (Cmd × List Byte)) :
    (∀ v, Event.pin .rstN v ∉ commandFrames p table) ∧ ∀ n, Event.wait n ∉ commandFrames p table := by
  constructor <;> intro v hv <;> simp [commandFrames, commandFrame] at hv

/-- A table that ends in `Ok` put its frames on the wire whole. -/
theorem sendCommands_frames (table : List (Cmd × List Byte)) (s : State) (h : (sendCommands table s).2 = .ok) :
    (sendCommands table s).1.tr = s.tr ++ commandFrames s.cfg table := by
  induction table generalizing s with
  | nil => simp [sendCommands, commandFrames]
  | cons ca rest ih =>
    obtain ⟨evs, h1, h2, -⟩ := sendCommand_ends (s.cfg.opc.byte ca.1) ca.2 s
    have hk := sendCommand_kept (s.cfg.opc.byte ca.1) ca.2 s
    rw [sendCommands] at h ⊢
    generalize sendCommand (s.cfg.opc.byte ca.1) ca.2 s = q at h h1 h2 hk
    obtain ⟨t, st⟩ := q
    cases st with
    | failed => simp at h
    | stuck => simp at h
    | ok =>
      rw [andThen_ok] at h ⊢
      have hcfg : t.cfg = s.cfg := by unfold Kept at hk; simp only at hk; rw [hk]
      simp only at h1 h2
      generalize t.dc = v at h1
      cases h1
      rw [ih t h, h2, hcfg]
      simp [commandFrames]

/-- After a window was set the counter stands at its start, or nowhere: before the reset prefix nothing is taken. -/
theorem windowBody_within {s : State} (hd : s.cfg.opc.distinct = true) {r0 r1 c0 c1 : Half} (hr : r0.toNat ≤ r1.toNat)
    (hc : c0.toNat ≤ c1.toNat) (h : (windowBody r0 r1 c0 c1 s).2 = .ok) :
    (windowBody r0 r1 c0 c1 s).1.rx.Within s.cfg r0 r1 c0 c1 := by
  have hk := windowBody_kept r0 r1 c0 c1 s
  unfold Kept at hk
  have hrx : (windowBody r0 r1 c0 c1 s).1.rx = s.rx.run s.cfg (commandFrames s.cfg (windowTable r0 r1 c0 c1)) :=
    State.rx_append (sendCommands_frames _ s h) (by rw [hk])
  by_cases ho : s.rx.boot = .open
  · rw [hrx, Rx.run_window hd ho hr hc]
    intro r c hcur
    simp only [Rx.opened, Cursor.pos.injEq] at hcur
    obtain ⟨rfl, rfl⟩ := hcur
    exact ⟨by simp [Rx.opened, Opcodes.cmd?_byte hd], rfl, rfl, le_rfl, hr, le_rfl, hc⟩
  · intro r c hcur
    have hb : (windowBody r0 r1 c0 c1 s).1.rx.boot = s.rx.boot := by
      rw [hrx]
      obtain ⟨l1, l2⟩ := commandFrames_lines s.cfg (windowTable r0 r1 c0 c1)
      exact Rx.run_boot _ _ _ l1 l2
    have := ((windowBody r0 r1 c0 c1 s).1.rx_sane.shut (by rw [hb]; exact ho)).2
    rw [this] at hcur; simp at hcur

/-! ### Host operations -/

/-- A body that stored only inside a window. -/
def StoredIn (s : State) (r : State × Status) (P : PixelStore → Prop) : Prop :=
  ∃ stores, r.1.rx.px = s.rx.px ++ stores ∧ ∀ e ∈ stores, P e

theorem StoredIn.mono {s : State} {r : State × Status} {P Q : PixelStore → Prop} (h : StoredIn s r P)
    (hpq : ∀ e, P e → Q e) : StoredIn s r Q := by
  obtain ⟨stores, h1, h2⟩ := h
  exact ⟨stores, h1, fun e he => hpq e (h2 e he)⟩

/-- CLEAR's body stores on the screen only. -/
theorem clearBody_stored {s : State} (hd : s.cfg.opc.distinct = true) (color : Pixel) (nr nc : Nat) (op : BitVec 4)
    (a b c2 d : Half) :
    StoredIn s (clearBody color nr nc (s.accept op a b c2 d))
      (inWindow 0#16 (BitVec.ofNat 16 (nr - 1)) 0#16 (BitVec.ofNat 16 (nc - 1))) := by
  have hp := windowBody_px 0#16 (BitVec.ofNat 16 (nr - 1)) 0#16 (BitVec.ofNat 16 (nc - 1)) (s.accept op a b c2 d) hd
  have hw := windowBody_within (s := s.accept op a b c2 d) hd (r0 := 0#16) (r1 := BitVec.ofNat 16 (nr - 1)) (c0 := 0#16)
    (c1 := BitVec.ofNat 16 (nc - 1)) (by simp) (by simp)
  have hk := windowBody_kept 0#16 (BitVec.ofNat 16 (nr - 1)) 0#16 (BitVec.ofNat 16 (nc - 1)) (s.accept op a b c2 d)
  unfold clearBody
  change StoredIn s (andThen (windowBody 0#16 (BitVec.ofNat 16 (nr - 1)) 0#16 (BitVec.ofNat 16 (nc - 1)) _) _) _
  generalize windowBody 0#16 (BitVec.ofNat 16 (nr - 1)) 0#16 (BitVec.ofNat 16 (nc - 1)) (s.accept op a b c2 d) = q at hp hw hk
  obtain ⟨t, st⟩ := q
  cases st with
  | failed => exact ⟨[], by rw [List.append_nil]; exact hp, by simp⟩
  | stuck => exact ⟨[], by rw [List.append_nil]; exact hp, by simp⟩
  | ok =>
    have hcfg : t.cfg = s.cfg := by unfold Kept at hk; simp only at hk; rw [hk]; rfl
    have hw' := hw rfl
    obtain ⟨stores, h1, h2⟩ := fillFrames_within (s := t) (r0 := 0#16) (r1 := BitVec.ofNat 16 (nr - 1)) (c0 := 0#16)
      (c1 := BitVec.ofNat 16 (nc - 1)) (by simp) (by simp) (by rw [hcfg]; exact hw') color
      (clearFrames (s.accept op a b c2 d).cfg.clearChunk (nr * nc) (nr * nc))
    exact ⟨stores, by rw [andThen_ok, h1]; exact congrArg (· ++ stores) hp, h2⟩

/-- A window and one stream store in that window only. -/
theorem windowStream_stored {s : State} (hd : s.cfg.opc.distinct = true) {r0 r1 c0 c1 : Half} {px : List Pixel}
    {r : State × Status} (h : andThenHost (hostWindow r0 r1 c0 c1 s) (hostStream 0 0 0 0 px) = .ok r) :
    StoredIn s r (inWindow r0 r1 c0 c1) := by
  cases hx : hostWindow r0 r1 c0 c1 s with
  | error e => rw [hx] at h; simp at h
  | ok q =>
    rw [hx] at h
    obtain ⟨hready, ⟨nr, nc, hdm, hb⟩, rfl⟩ := hostWindow_next hx
    obtain ⟨b1, b2, b3, b4⟩ := boundsOk_iff.mp hb
    have hp := windowBody_px r0 r1 c0 c1 (s.accept 2 r0 r1 c0 c1) hd
    have hw := windowBody_within (s := s.accept 2 r0 r1 c0 c1) hd b1 b3
    have hk := windowBody_kept r0 r1 c0 c1 (s.accept 2 r0 r1 c0 c1)
    generalize windowBody r0 r1 c0 c1 (s.accept 2 r0 r1 c0 c1) = q at h hp hw hk
    obtain ⟨t, st⟩ := q
    cases st with
    | failed => simp only [andThenHost_failed, Except.ok.injEq] at h; exact h ▸ ⟨[], by rw [List.append_nil]; exact hp, by simp⟩
    | stuck => simp only [andThenHost_stuck, Except.ok.injEq] at h; exact h ▸ ⟨[], by rw [List.append_nil]; exact hp, by simp⟩
    | ok =>
      simp only [andThenHost_ok] at h
      obtain ⟨-, rfl⟩ := hostStream_next h
      have hcfg : t.cfg = s.cfg := by unfold Kept at hk; simp only at hk; rw [hk]; rfl
      have hw' := hw rfl
      obtain ⟨-, stores, h1, h2⟩ := sendPixels_within (s := t.accept 3 0 0 0 0) b1 b3
        (by show t.rx.Within t.cfg r0 r1 c0 c1; rw [hcfg]; exact hw') (pixelBytes px)
      exact ⟨stores, h1.trans (congrArg (· ++ stores) hp), h2⟩

/-- Jobs store in their runs only. -/
theorem drawJobs_stored (jobs : List (Run × List Pixel)) {s : State} {r : State × Status} (hd : s.cfg.opc.distinct = true)
    (h : drawJobs jobs s = .ok r) :
    StoredIn s r fun e => e.c < 65536 ∧ ∃ j ∈ jobs, (e.r : Int) = j.1.row ∧ j.1.c0 ≤ (e.c : Int) ∧ (e.c : Int) ≤ j.1.c1 := by
  induction jobs generalizing s r with
  | nil => simp only [drawJobs, Except.ok.injEq] at h; exact h ▸ ⟨[], by simp, by simp⟩
  | cons job rest ih =>
    rw [drawJobs] at h
    have hjob : ∀ q, andThenHost (hostRun job.1 s) (hostStream 0 0 0 0 job.2) = .ok q →
        StoredIn s q fun e => e.c < 65536 ∧ (e.r : Int) = job.1.row ∧ job.1.c0 ≤ (e.c : Int) ∧ (e.c : Int) ≤ job.1.c1 := by
      intro q hq
      cases hx : hostRun job.1 s with
      | error e => rw [hx] at hq; simp at hq
      | ok q' =>
        obtain ⟨w, c0, c1, e1, e2, e3, hx'⟩ := hostRun_next hx
        rw [hx, ← hx'] at hq
        refine (windowStream_stored hd hq).mono ?_
        rintro e ⟨i1, i2, i3, i4⟩
        have := toBound?_some e1
        have := toBound?_some e2
        have := toBound?_some e3
        have := c1.isLt
        refine ⟨by omega, by omega, by omega, by omega⟩
    cases hx : andThenHost (hostRun job.1 s) (hostStream 0 0 0 0 job.2) with
    | error e => rw [hx] at h; simp at h
    | ok q =>
      rw [hx] at h
      have hq := hjob q hx
      have hhost : HostRan s q := HostRan.andThenHost (fun _ h => hostRun_hostRan h) (fun _ _ h => hostStream_hostRan h) hx
      obtain ⟨t, st⟩ := q
      have hq' : StoredIn s (t, st) fun e => e.c < 65536 ∧
          ∃ j ∈ job :: rest, (e.r : Int) = j.1.row ∧ j.1.c0 ≤ (e.c : Int) ∧ (e.c : Int) ≤ j.1.c1 :=
        hq.mono fun e he => ⟨he.1, job, by simp, he.2⟩
      cases st with
      | failed => simp only [andThenHost_failed, Except.ok.injEq] at h; exact h ▸ hq'
      | stuck => simp only [andThenHost_stuck, Except.ok.injEq] at h; exact h ▸ hq'
      | ok =>
        simp only [andThenHost_ok] at h
        have hcfg := hhost.cfg
        simp only at hcfg
        obtain ⟨s2, g1, g2⟩ := ih (by rw [hcfg]; exact hd) h
        obtain ⟨s1, f1, f2⟩ := hq'
        simp only at f1
        refine ⟨s1 ++ s2, by rw [g1, f1, List.append_assoc], ?_⟩
        intro e he
        rcases List.mem_append.mp he with he | he
        · exact f2 e he
        · obtain ⟨a, j, hj, b⟩ := g2 e he
          exact ⟨a, j, by simp [hj], b⟩

/-- Addresses outside what was stored keep their content. -/
theorem StoredIn.stored {s t : State} {stores : List PixelStore} (h : t.rx.px = s.rx.px ++ stores) {r c : Nat}
    (hc : ∀ e ∈ stores, e.c < 65536) (hn : ∀ e ∈ stores, ¬ (r = e.r ∧ c = e.c)) : t.stored r c = s.stored r c := by
  simp only [State.stored, State.memory, h]
  exact memoryOf_read_other _ _ hc hn

end Sys2Proof.Machine
end

