-- ==== Sys2Proof/Laws/TwoRuns.lean ====
section
/-! SUPPORT. Two runs side by side: states that agree on what an operation's outcome may depend on (10_state.md R34,
R39, 60_exceptions.md R268) go through it with the same events, the same status and the same values. -/

namespace Sys2Proof.Machine

variable {seen : Prop}

/-- Two states that agree on the configuration, the SPI master and its coming answers, on what the host knows, and, if
these are `seen`, on STATE and ORIENT. -/
structure Alike (seen : Prop) (s s' : State) : Prop where
  ctrl : seen → s'.ctrl = s.ctrl
  orient : seen → s'.orient = s.orient
  known : s'.hostOrient = s.hostOrient
  cfg : s'.cfg = s.cfg
  spi : s'.spi = s.spi
  answers : ∀ k, s'.answerAt (s'.spiDrawn + k) = s.answerAt (s.spiDrawn + k)

/-- Two results, from `s` and from `s'`, with the same new events and the same status, and alike again. -/
def Agree (seen : Prop) (s s' : State) (r r' : State × Status) : Prop :=
  ∃ e, r.1.tr = s.tr ++ e ∧ r'.1.tr = s'.tr ++ e ∧ r.1.completions = s.completions ∧
    r'.1.completions = s'.completions ∧ r'.2 = r.2 ∧ Alike seen r.1 r'.1

/-- Two outcomes of a host operation: refused alike, or results that agree. -/
def AgreeHost (seen : Prop) (s s' : State) : Except Refusal (State × Status) → Except Refusal (State × Status) → Prop
  | .error e, .error e' => e' = e
  | .ok r, .ok r' => Agree seen s s' r r'
  | _, _ => False

/-- What two outcomes that agree are. -/
theorem AgreeHost.cases {s s' : State} {r r' : Except Refusal (State × Status)} (h : AgreeHost seen s s' r r') :
    (∃ e, r = .error e ∧ r' = .error e) ∨
      ∃ x x' st, r = .ok (x, st) ∧ r' = .ok (x', st) ∧ Agree seen s s' (x, st) (x', st) := by
  cases r with
  | error e =>
    cases r' with
    | error e' => obtain rfl : e' = e := h; exact .inl ⟨e', rfl, rfl⟩
    | ok q' => exact False.elim h
  | ok q =>
    cases r' with
    | error e' => exact False.elim h
    | ok q' =>
      obtain ⟨x, st⟩ := q
      obtain ⟨x', st'⟩ := q'
      have hst : st' = st := h.choose_spec.2.2.2.2.1
      subst hst
      exact .inr ⟨x, x', st', rfl, rfl, h⟩

theorem Alike.dims (h : Alike True s s') : s'.dims? = s.dims? := by simp [State.dims?, h.orient trivial, h.cfg]

theorem Alike.panel (h : Alike seen s s') : s'.panel? = s.panel? := by simp only [State.panel?, h.known, h.cfg]

theorem Agree.same (h : Alike seen s s') (st : Status) : Agree seen s s' (s, st) (s', st) :=
  ⟨[], by simp, by simp, rfl, rfl, rfl, h⟩

/-- Results that agree from states reached by the same events agree from the states before. -/
theorem Agree.after {s s' x x' : State} {r r' : State × Status} (e : List Event) (hx : x.tr = s.tr ++ e)
    (hx' : x'.tr = s'.tr ++ e) (hc : x.completions = s.completions) (hc' : x'.completions = s'.completions)
    (h : Agree seen x x' r r') : Agree seen s s' r r' := by
  obtain ⟨f, h1, h2, h3, h4, h5, h6⟩ := h
  exact ⟨e ++ f, by simp [h1, hx], by simp [h2, hx'], h3.trans hc, h4.trans hc', h5, h6⟩

theorem Agree.andThen {s s' : State} {r r' : State × Status} {f f' : State → State × Status} (h : Agree seen s s' r r')
    (hf : ∀ x x', Alike seen x x' → Agree seen x x' (f x) (f' x')) :
    Agree seen s s' (Machine.andThen r f) (Machine.andThen r' f') := by
  obtain ⟨x, st⟩ := r
  obtain ⟨x', st'⟩ := r'
  obtain ⟨e, h1, h2, h3, h4, h5, h6⟩ := h
  obtain rfl : st' = st := h5
  cases st' with
  | ok => exact Agree.after e h1 h2 h3 h4 (hf x x' h6)
  | failed => exact ⟨e, h1, h2, h3, h4, rfl, h6⟩
  | stuck => exact ⟨e, h1, h2, h3, h4, rfl, h6⟩

theorem Agree.noted {r r' : State × Status} (o : Half) (h : Agree seen s s' r r') :
    Agree seen s s' (Machine.noted o r) (Machine.noted o r') :=
  h.andThen fun _ _ hx => ⟨[], by simp, by simp, rfl, rfl, rfl, hx.ctrl, hx.orient, rfl, hx.cfg, hx.spi, hx.answers⟩

theorem Alike.drive (h : Alike seen s s') (p : Pin) (v : Bool) : Alike seen (s.drive p v) (s'.drive p v) := by
  obtain ⟨h1, h2, h3, h4, h5, h6⟩ := h
  cases p <;> exact ⟨h1, h2, h3, h4, h5, h6⟩

theorem Agree.xfer (h : Alike seen s s') (hd : s'.dc = s.dc) (bs : List Byte) :
    Agree seen s s' (Machine.xfer bs s) (Machine.xfer bs s') := by
  obtain ⟨h1, h2, h6, h3, h4, h5⟩ := h
  have h0 : s'.answerAt s'.spiDrawn = s.answerAt s.spiDrawn := h5 0
  have hn : ∀ k, s'.answerAt (s'.spiDrawn + 1 + k) = s.answerAt (s.spiDrawn + 1 + k) := fun k => by
    simpa only [Nat.add_assoc] using h5 (1 + k)
  unfold Machine.xfer
  simp only [h0]
  cases s.answerAt s.spiDrawn with
  | ok => exact ⟨bs.map (.byte s.dc), rfl, by simp [State.emit, hd], rfl, rfl, rfl, h1, h2, h6, h3, h4, hn⟩
  | fail k =>
    exact ⟨(bs.take (deliveredOnFail k bs.length)).map (.byte s.dc) ++ [.xferFail], rfl, by simp [State.emit, hd], rfl,
      rfl, rfl, h1, h2, h6, h3, h4, hn⟩
  | stall => exact ⟨[], by simp, by simp, rfl, rfl, rfl, h1, h2, h6, h3, rfl, hn⟩

theorem Agree.xferIfAny (h : Alike seen s s') (hd : s'.dc = s.dc) (bs : List Byte) :
    Agree seen s s' (Machine.xferIfAny bs s) (Machine.xferIfAny bs s') := by
  cases bs with
  | nil => exact Agree.same h .ok
  | cons b bs => exact Agree.xfer h hd (b :: bs)

theorem Agree.release {r r' : State × Status} (h : Agree seen s s' r r') :
    Agree seen s s' (Machine.release r) (Machine.release r') := by
  obtain ⟨x, st⟩ := r
  obtain ⟨x', st'⟩ := r'
  obtain ⟨e, h1, h2, h3, h4, h5, h6⟩ := h
  obtain rfl : st' = st := h5
  have hp : (x.drive .csN true).tr = s.tr ++ (e ++ [.pin .csN true]) := by
    simp [State.drive, State.setPin, State.emit, show x.tr = s.tr ++ e from h1]
  have hp' : (x'.drive .csN true).tr = s'.tr ++ (e ++ [.pin .csN true]) := by
    simp [State.drive, State.setPin, State.emit, show x'.tr = s'.tr ++ e from h2]
  cases st' with
  | ok => exact ⟨_, hp, hp', h3, h4, rfl, h6.drive .csN true⟩
  | failed => exact ⟨_, hp, hp', h3, h4, rfl, h6.drive .csN true⟩
  | stuck => exact ⟨e, h1, h2, h3, h4, rfl, h6⟩

theorem Agree.sendCommand (h : Alike seen s s') (opcode : Byte) (args : List Byte) :
    Agree seen s s' (Machine.sendCommand opcode args s) (Machine.sendCommand opcode args s') := by
  have hx : ∀ x x', Alike seen x x' → Agree seen x x' (Machine.xferIfAny args (x.drive .dc true))
      (Machine.xferIfAny args (x'.drive .dc true)) := fun x x' hx =>
    Agree.after (x := x.drive .dc true) (x' := x'.drive .dc true) [.pin .dc true] rfl rfl rfl rfl
      (Agree.xferIfAny (hx.drive .dc true) rfl args)
  exact Agree.release (Agree.andThen (Agree.after (x := (s.drive .csN false).drive .dc false)
    (x' := (s'.drive .csN false).drive .dc false) [.pin .csN false, .pin .dc false]
    (by simp [State.drive, State.setPin, State.emit]) (by simp [State.drive, State.setPin, State.emit]) rfl rfl
    (Agree.xfer ((h.drive .csN false).drive .dc false) rfl [opcode])) hx)

theorem Agree.sendPixels (h : Alike seen s s') (bytes : List Byte) :
    Agree seen s s' (Machine.sendPixels bytes s) (Machine.sendPixels bytes s') :=
  Agree.release (Agree.after (x := (s.drive .csN false).drive .dc true)
    (x' := (s'.drive .csN false).drive .dc true) [.pin .csN false, .pin .dc true]
    (by simp [State.drive, State.setPin, State.emit]) (by simp [State.drive, State.setPin, State.emit]) rfl rfl
    (Agree.xferIfAny ((h.drive .csN false).drive .dc true) rfl bytes))

theorem Agree.sendCommands (table : List (Cmd × List Byte)) (h : Alike seen s s') :
    Agree seen s s' (Machine.sendCommands table s) (Machine.sendCommands table s') := by
  induction table generalizing s s' with
  | nil => exact Agree.same h .ok
  | cons ca rest ih =>
    refine Agree.andThen ?_ fun x x' hx => ih hx
    rw [h.cfg]
    exact Agree.sendCommand h _ _

theorem Agree.fillFrames (color : Pixel) (counts : List Nat) (h : Alike seen s s') :
    Agree seen s s' (Machine.fillFrames color counts s) (Machine.fillFrames color counts s') := by
  induction counts generalizing s s' with
  | nil => exact Agree.same h .ok
  | cons k rest ih => exact Agree.andThen (Agree.sendPixels h _) fun x x' hx => ih hx

theorem Agree.runInitTable (o : Half) (k : Nat) (table : List (Cmd × List Byte)) (h : Alike seen s s') :
    Agree seen s s' (Machine.runInitTable o k table s) (Machine.runInitTable o k table s') := by
  induction table generalizing s s' k with
  | nil => exact ⟨[], by simp [Machine.runInitTable], by simp [Machine.runInitTable], rfl, rfl, rfl, fun _ => rfl, h.orient,
      h.known, h.cfg, h.spi, h.answers⟩
  | cons ca rest ih =>
    unfold Machine.runInitTable
    rw [h.cfg]
    refine Agree.andThen (Agree.sendCommand h _ _) fun x x' hx => ?_
    refine Agree.after (x := commandDone o k x) (x' := commandDone o k x') [] (by simp [commandDone])
      (by simp [commandDone]) rfl rfl (ih (k + 1) ⟨hx.ctrl, fun e => ?_, hx.known, hx.cfg, hx.spi,
        hx.answers⟩)
    simp [commandDone, hx.orient e]

theorem Alike.accept (h : Alike seen s s') (op : BitVec 4) (a b c2 d : Half) :
    Alike seen (s.accept op a b c2 d) (s'.accept op a b c2 d) := ⟨h.ctrl, h.orient, h.known, h.cfg, h.spi, h.answers⟩

/-- Acceptance puts nothing on the wire. -/
theorem Agree.accepted {op : BitVec 4} {a b c2 d : Half} {r r' : State × Status}
    (h : Agree seen (s.accept op a b c2 d) (s'.accept op a b c2 d) r r') : Agree seen s s' r r' := h

theorem AgreeHost.whenReady {k k' : State → Except Refusal (State × Status)} (h : Alike True s s')
    (hk : AgreeHost True s s' (k s) (k' s')) : AgreeHost True s s' (Machine.whenReady s k) (Machine.whenReady s' k') := by
  unfold Machine.whenReady
  rw [h.ctrl trivial]
  cases s.ctrl <;> first | exact hk | exact rfl

theorem AgreeHost.hostWindow (h : Alike True s s') (r0 r1 c0 c1 : Half) :
    AgreeHost True s s' (Machine.hostWindow r0 r1 c0 c1 s) (Machine.hostWindow r0 r1 c0 c1 s') := by
  refine AgreeHost.whenReady h ?_
  rw [h.dims]
  cases s.dims? with
  | none => exact rfl
  | some d =>
    obtain ⟨nr, nc⟩ := d
    by_cases hb : boundsOk nr nc r0 r1 c0 c1 = true
    · simp only [hb, if_true]
      exact Agree.after (x := s.accept 0x2#4 r0 r1 c0 c1) (x' := s'.accept 0x2#4 r0 r1 c0 c1) [] (by simp [State.accept])
        (by simp [State.accept]) rfl rfl (Agree.sendCommands _ ⟨h.ctrl, h.orient, h.known, h.cfg, h.spi, h.answers⟩)
    · simp only [hb]
      exact rfl

theorem AgreeHost.hostStream (h : Alike True s s') (a b c2 d : Half) (px : List Pixel) :
    AgreeHost True s s' (Machine.hostStream a b c2 d px s) (Machine.hostStream a b c2 d px s') :=
  AgreeHost.whenReady h (Agree.after (x := s.accept 0x3#4 a b c2 d) (x' := s'.accept 0x3#4 a b c2 d) []
    (by simp [State.accept]) (by simp [State.accept]) rfl rfl
    (Agree.sendPixels (s := s.accept 0x3#4 a b c2 d) (s' := s'.accept 0x3#4 a b c2 d)
      ⟨h.ctrl, h.orient, h.known, h.cfg, h.spi, h.answers⟩ _))

theorem AgreeHost.andThenHost {r r' : Except Refusal (State × Status)}
    {f f' : State → Except Refusal (State × Status)} (h : AgreeHost True s s' r r')
    (hf : ∀ x x', Alike True x x' → AgreeHost True x x' (f x) (f' x')) :
    AgreeHost True s s' (Machine.andThenHost r f) (Machine.andThenHost r' f') := by
  obtain ⟨e, rfl, rfl⟩ | ⟨x, x', st, rfl, rfl, e, h1, h2, h3, h4, h5, h6⟩ := h.cases
  · exact rfl
  · cases st with
    | ok =>
      have hg := hf x x' h6
      simp only [Machine.andThenHost]
      revert hg
      cases f x <;> cases f' x' <;> intro hg
      · exact hg
      · exact hg
      · exact hg
      · exact Agree.after e h1 h2 h3 h4 hg
    | failed => exact ⟨e, h1, h2, h3, h4, rfl, h6⟩
    | stuck => exact ⟨e, h1, h2, h3, h4, rfl, h6⟩

theorem AgreeHost.drawJobs (jobs : List (Run × List Pixel)) (h : Alike True s s') :
    AgreeHost True s s' (Machine.drawJobs jobs s) (Machine.drawJobs jobs s') := by
  induction jobs generalizing s s' with
  | nil => exact Agree.same h .ok
  | cons job rest ih =>
    refine AgreeHost.andThenHost (AgreeHost.andThenHost ?_ fun x x' hx => AgreeHost.hostStream hx _ _ _ _ _)
      fun x x' hx => ih hx
    unfold hostRun
    cases toBound? job.1.row with
    | none => exact AgreeHost.whenReady h rfl
    | some r =>
      cases toBound? job.1.c0 with
      | none => exact AgreeHost.whenReady h rfl
      | some c0 =>
        cases toBound? job.1.c1 with
        | none => exact AgreeHost.whenReady h rfl
        | some c1 => exact AgreeHost.hostWindow h _ _ _ _

/-- Two outcomes of a host operation that agree if neither is a refusal. -/
def AgreeAdmitted (seen : Prop) (s s' : State) (r r' : Except Refusal (State × Status)) : Prop :=
  ∀ q q', r = .ok q → r' = .ok q' → Agree seen s s' q q'

theorem AgreeAdmitted.andThenHost {r r' : Except Refusal (State × Status)}
    {f f' : State → Except Refusal (State × Status)} (h : AgreeAdmitted seen s s' r r')
    (hf : ∀ x x', Alike seen x x' → AgreeAdmitted seen x x' (f x) (f' x')) :
    AgreeAdmitted seen s s' (Machine.andThenHost r f) (Machine.andThenHost r' f') := by
  intro q q' hq hq'
  cases r with
  | error e => cases hq
  | ok y =>
    cases r' with
    | error e => cases hq'
    | ok y' =>
      obtain ⟨x, st⟩ := y
      obtain ⟨x', st'⟩ := y'
      obtain ⟨e, h1, h2, h3, h4, h5, h6⟩ := h _ _ rfl rfl
      replace h5 : st' = st := h5
      subst h5
      cases st' with
      | ok => exact Agree.after e h1 h2 h3 h4 (hf x x' h6 q q' hq hq')
      | failed => cases hq; cases hq'; exact ⟨e, h1, h2, h3, h4, rfl, h6⟩
      | stuck => cases hq; cases hq'; exact ⟨e, h1, h2, h3, h4, rfl, h6⟩

/-- Jobs put the same on the wire from two states that admit them, whatever STATE and ORIENT are: these decide what is
admitted and nothing else (R275 (c)). -/
theorem AgreeAdmitted.drawJobs (jobs : List (Run × List Pixel)) (h : Alike seen s s') :
    AgreeAdmitted seen s s' (Machine.drawJobs jobs s) (Machine.drawJobs jobs s') := by
  induction jobs generalizing s s' with
  | nil => intro q q' hq hq'; cases hq; cases hq'; exact Agree.same h .ok
  | cons job rest ih =>
    refine AgreeAdmitted.andThenHost (AgreeAdmitted.andThenHost ?_ ?_) fun x x' hx => ih hx
    · intro q q' hq hq'
      obtain ⟨w, c0, c1, e1, e2, e3, hq⟩ := hostRun_next hq
      obtain ⟨w', c0', c1', e1', e2', e3', hq'⟩ := hostRun_next hq'
      obtain rfl : w = w' := Option.some.inj (e1.symm.trans e1')
      obtain rfl : c0 = c0' := Option.some.inj (e2.symm.trans e2')
      obtain rfl : c1 = c1' := Option.some.inj (e3.symm.trans e3')
      obtain ⟨-, -, rfl⟩ := hostWindow_next hq
      obtain ⟨-, -, rfl⟩ := hostWindow_next hq'
      exact Agree.accepted (Agree.sendCommands _ (h.accept 2 w w c0 c1))
    · intro x x' hx q q' hq hq'
      obtain ⟨-, rfl⟩ := hostStream_next hq
      obtain ⟨-, rfl⟩ := hostStream_next hq'
      exact Agree.accepted (Agree.sendPixels (hx.accept 3 0 0 0 0) _)

theorem Alike.resetPulse (h : Alike True s s') : Alike True (Machine.resetPulse s) (Machine.resetPulse s') :=
  ⟨fun _ => rfl, h.orient, h.known, h.cfg, h.spi, h.answers⟩

theorem Agree.resetPulse (h : Alike True s s') {r r' : State × Status}
    (hr : Agree True (Machine.resetPulse s) (Machine.resetPulse s') r r') : Agree True s s' r r' := by
  refine Agree.after (x := Machine.resetPulse s) (x' := Machine.resetPulse s') (resetFrame s.cfg) ?_ ?_ rfl rfl hr
  · simp [Machine.resetPulse, State.drive, State.wait, State.emit, State.setPin, resetFrame]
  · simp [Machine.resetPulse, State.drive, State.wait, State.emit, State.setPin, resetFrame, h.cfg]

theorem AgreeHost.whenOrient {o : Half} {k k' : Byte → State → Except Refusal (State × Status)} (h : Alike True s s')
    (hk : ∀ m, AgreeHost True s s' (k m s) (k' m s')) :
    AgreeHost True s s' (Machine.whenOrient o s k) (Machine.whenOrient o s' k') := by
  unfold Machine.whenOrient
  rw [h.cfg]
  cases s.cfg.madctlOf? o with
  | none => exact rfl
  | some m => exact hk m

theorem AgreeHost.hostInit (h : Alike True s s') (o b c2 d : Half) :
    AgreeHost True s s' (Machine.hostInit o b c2 d s) (Machine.hostInit o b c2 d s') := by
  unfold Machine.hostInit Machine.whenUnpowered
  rw [h.ctrl trivial]
  cases s.ctrl with
  | unpowered =>
    refine AgreeHost.whenOrient h fun m => ?_
    have ha := h.accept 0x0#4 o b c2 d
    rw [h.cfg]
    exact Agree.accepted (Agree.resetPulse ha (Agree.noted o (Agree.runInitTable o 0 _ ha.resetPulse)))
  | resetting => exact rfl
  | initializing => exact rfl
  | ready => exact rfl

theorem Agree.orientationBody (h : Alike True s s') (o : Half) (m : Byte) :
    Agree True s s' (Machine.orientationBody o m s) (Machine.orientationBody o m s') := by
  unfold Machine.orientationBody
  rw [h.cfg]
  exact Agree.andThen (Agree.sendCommand h _ _) fun x x' hx =>
    ⟨[], by simp, by simp, rfl, rfl, rfl, hx.ctrl, fun _ => rfl, hx.known, hx.cfg, hx.spi, hx.answers⟩

theorem AgreeHost.hostOrientation (h : Alike True s s') (o b c2 d : Half) :
    AgreeHost True s s' (Machine.hostOrientation o b c2 d s) (Machine.hostOrientation o b c2 d s') :=
  AgreeHost.whenReady h (AgreeHost.whenOrient h fun m =>
    Agree.accepted (Agree.noted o (Agree.orientationBody (h.accept 0x1#4 o b c2 d) o m)))

theorem Agree.clearBody (h : Alike True s s') (color : Pixel) (nr nc : Nat) :
    Agree True s s' (Machine.clearBody color nr nc s) (Machine.clearBody color nr nc s') := by
  unfold Machine.clearBody
  rw [h.cfg]
  exact Agree.andThen (Agree.sendCommands _ h) fun x x' hx => Agree.fillFrames _ _ hx

theorem AgreeHost.hostClear (h : Alike True s s') (color : Pixel) (b c2 d : Half) :
    AgreeHost True s s' (Machine.hostClear color b c2 d s) (Machine.hostClear color b c2 d s') := by
  refine AgreeHost.whenReady h ?_
  rw [h.dims]
  cases s.dims? with
  | none => exact rfl
  | some rc => exact Agree.accepted (Agree.clearBody (h.accept 0x4#4 color b c2 d) color rc.1 rc.2)

/-- Two outcomes of an operation: the next states agree, values included. -/
def AgreeOutcome (s s' : State) (o o' : Host.Outcome State Fault Refusal) : Prop :=
  ∀ t, o = .next t → ∃ t' events values, o' = .next t' ∧ t.tr = s.tr ++ events ∧ t'.tr = s'.tr ++ events ∧
    t.completions = s.completions ++ values ∧ t'.completions = s'.completions ++ values ∧
    t'.ctrl = t.ctrl ∧ t'.orient = t.orient ∧ t'.hostOrient = t.hostOrient ∧ t'.spi = t.spi

theorem AgreeOutcome.settle {err : Completion} {r r' : Except Refusal (State × Status)} (h : AgreeHost True s s' r r') :
    AgreeOutcome s s' (Machine.settle err r) (Machine.settle err r') := by
  intro t ht
  obtain ⟨e, rfl, rfl⟩ | ⟨x, x', st, rfl, rfl, e, h1, h2, h3, h4, h5, h6⟩ := h.cases
  · cases ht
  · replace h3 : x.completions = s.completions := h3
    replace h4 : x'.completions = s'.completions := h4
    cases ht
    cases st with
    | ok => exact ⟨_, e, [.ok], rfl, h1, h2, by simp [finish, Status.completion?, State.complete, h3],
        by simp [finish, Status.completion?, State.complete, h4], h6.ctrl trivial, h6.orient trivial, h6.known, h6.spi⟩
    | failed => exact ⟨_, e, [err], rfl, h1, h2, by simp [finish, Status.completion?, State.complete, h3],
        by simp [finish, Status.completion?, State.complete, h4], h6.ctrl trivial, h6.orient trivial, h6.known, h6.spi⟩
    | stuck => exact ⟨_, e, [], rfl, h1, h2, by simp [finish, Status.completion?, h3],
        by simp [finish, Status.completion?, h4], h6.ctrl trivial, h6.orient trivial, h6.known, h6.spi⟩

theorem AgreeOutcome.whenRunning {k k' : State → Host.Outcome State Fault Refusal} (h : Alike True s s')
    (hk : AgreeOutcome s s' (k s) (k' s')) :
    AgreeOutcome s s' (Machine.whenRunning s k) (Machine.whenRunning s' k') := by
  unfold Machine.whenRunning
  rw [h.spi]
  cases s.spi with
  | idle => exact hk
  | stalled => exact fun t ht => by cases ht

theorem AgreeOutcome.operation {err : Completion} {f : State → Except Refusal (State × Status)} (h : Alike True s s')
    (hf : AgreeHost True s s' (f s) (f s')) :
    AgreeOutcome s s' (Machine.whenRunning s fun x => Machine.settle err (f x))
      (Machine.whenRunning s' fun x => Machine.settle err (f x)) :=
  AgreeOutcome.whenRunning h (AgreeOutcome.settle hf)

theorem AgreeOutcome.refused (e e' : Refusal) : AgreeOutcome s s' (.refused e) (.refused e') :=
  fun t ht => by cases ht

end Sys2Proof.Machine
end

