-- ==== Sys2Proof/Tests/Slice0.lean ====
section
/-! SUPPORT. Tests. Expected values come from spec/95_test_vectors.md (the vectors V…, programs P… and properties S…
named at each test) or are worked out by hand from the rule named there, never from the model. After them, one
witness for each statement that has hypotheses: states and operands that meet all of them together, each clause at a
boundary of its range. -/

namespace Sys2Proof.Machine.Tests

open Sys2Proof

/-! ## Small machines -/

/-- A concrete configuration: every open parameter given a value, the panel small (P3: 3 rows, 2 columns). -/
def small : Params where
  spiHz := .mhz2
  spiMode := Config.spiMode
  nColsNative := 2
  nRowsNative := 3
  orientSet := Config.orientSet
  pixfmtArg := 0x55#8
  opc := Config.opcodes
  tRstPulse := 10
  tSettle := 120
  clearChunk := 4
  dcReset := false
  glyphW := 2
  glyphH := 2
  lineHeight := 3
  font := [{ char := 'L', mask := 13 }, { char := ' ', mask := 0 }]

/-- The same with the default dimensions, 320 rows and 240 columns. -/
def wide : Params := { small with nRowsNative := 320, nColsNative := 240 }

/-- The same with a square panel, for drawing. -/
def square : Params := { small with nRowsNative := 6, nColsNative := 6 }

/-- A choice of the renderer that leaves everything plain and clips nothing. -/
def plain : RenderChoice := { plan := [], top := 0, roundUp := [], missing := [], clips := false }

/-- The same of a renderer that clips (N14). -/
def clipping : RenderChoice := { plain with clips := true }

/-- After power-on, with the SPI master's answers given. -/
def cold (p : Params) (answers : List SpiAnswer) : State := { State.resetWith p with spiScript := answers }

/-- Transfers that go well. -/
def oks (n : Nat) : List SpiAnswer := List.replicate n .ok

/-- Transfers that go well, then one that is answered `a`. -/
def oksThen (n : Nat) (a : SpiAnswer) : List SpiAnswer := (oks n).append [a]

/-- The shorthand C[op; a ...] of 95_test_vectors.md. -/
def C (op : Byte) (args : List Byte) : List Event :=
  .pin .csN false :: .pin .dc false :: .byte false op :: .pin .dc true :: (args.map (.byte true) ++ [.pin .csN true])

/-- The shorthand D[b ...] of 95_test_vectors.md. -/
def D (bytes : List Byte) : List Event :=
  .pin .csN false :: .pin .dc true :: (bytes.map (.byte true) ++ [.pin .csN true])

/-- The 26 events of P1. -/
def initTrace : List Event :=
  List.flatten [[.pin .rstN false, .wait 10, .pin .rstN true, .wait 120], C 0x11 [], C 0x3A [0x55], C 0x36 [0x48], C 0x29 []]

/-- After V20: Ready, Portrait. -/
def ready (p : Params) (answers : List SpiAnswer) : State :=
  { cold p answers with
    ctrl := .ready, initStep := 4, orient := some 0, dc := true, tr := initTrace, renderScript := [plain]
    hostOrient := some 0 }

/-- What a next state holds. -/
def after {α : Type} (o : Host.Outcome State Fault Refusal) (f : State → α) : Option α :=
  match o with
  | .next t => some (f t)
  | .fault _ => none
  | .refused _ => none

/-- The refusal of an outcome. -/
def refusal (o : Host.Outcome State Fault Refusal) : Option Refusal :=
  match o with
  | .next _ => none
  | .fault _ => none
  | .refused e => some e

/-- The events an operation appends, and the completion values after it. -/
def run (s : State) (i : Instr) : Option (List Event × List Completion) :=
  after (exec i s) fun t => (t.tr.drop s.tr.length, t.completions)

/-! ## Well-formed terms, and an ill-formed one for each check -/

theorem test_wf_configuration : small.wf = true ∧ wide.wf = true ∧ square.wf = true := by decide +kernel

theorem test_wf_opcodes_distinct : { small with opc := { Config.opcodes with raset := 0x2A#8 } }.wf = false := by
  decide +kernel

theorem test_wf_configuration_ranges :
    { small with nRowsNative := 0 }.wf = false ∧ { small with nRowsNative := 65537 }.wf = false ∧
      { small with nColsNative := 0 }.wf = false ∧ { small with nColsNative := 65537 }.wf = false ∧
      { small with clearChunk := 0 }.wf = false ∧ { small with orientSet := [] }.wf = false := by decide +kernel

theorem test_wf_orientation_set_size : ∀ p : Params, 65536 < p.orientSet.length → p.wf = false := by
  intro p h
  simp [Params.wf, Nat.not_le.mpr h]

theorem test_wf_madctlDistinct :
    small.madctlDistinct = true ∧
      { small with orientSet := List.replicate 2 { madctl := 0x48, exchanges := false } }.madctlDistinct = false := by
  decide +kernel

theorem test_wf_orientation :
    Instr.wf small (.madctl 3) = true ∧ Instr.wf small (.madctl 4) = false ∧ Instr.wf small (.init 3 0 0 0) = true ∧
      Instr.wf small (.init 4 0 0 0) = false ∧ Instr.wf small (.setOrientation 3 0 0 0) = true ∧
      Instr.wf small (.setOrientation 4 0 0 0) = false := by decide +kernel

theorem test_wf_reversed_bounds :
    Instr.wf small (.raset 4 4) = true ∧ Instr.wf small (.raset 5 4) = false ∧ Instr.wf small (.caset 4 4) = true ∧
      Instr.wf small (.caset 5 4) = false := by decide +kernel

theorem test_wf_unused_fields :
    Instr.wf small (.init 0 1 0 0) = false ∧ Instr.wf small (.init 0 0 1 0) = false ∧
      Instr.wf small (.init 0 0 0 1) = false ∧ Instr.wf small (.setOrientation 0 1 0 0) = false ∧
      Instr.wf small (.setOrientation 0 0 1 0) = false ∧ Instr.wf small (.setOrientation 0 0 0 1) = false ∧
      Instr.wf small (.writePixelStream 1 0 0 0 []) = false ∧ Instr.wf small (.writePixelStream 0 1 0 0 []) = false ∧
      Instr.wf small (.writePixelStream 0 0 1 0 []) = false ∧ Instr.wf small (.writePixelStream 0 0 0 1 []) = false ∧
      Instr.wf small (.clear 7 1 0 0) = false ∧ Instr.wf small (.clear 7 0 1 0) = false ∧
      Instr.wf small (.clear 7 0 0 1) = false ∧ Instr.wf small (.clear 7 0 0 0) = true := by decide +kernel

/-- The 3 by 2 panel: rows 0 to 2 and columns 0 to 1 in Portrait, exchanged in Landscape. -/
theorem test_wf_bounds :
    Instr.wf small (.setAddressWindow 0 2 0 1) = true ∧ Instr.wf small (.setAddressWindow 0 1 0 2) = true ∧
      Instr.wf small (.setAddressWindow 0 2 0 2) = false ∧ Instr.wf small (.setAddressWindow 0 3 0 0) = false ∧
      Instr.wf small (.setAddressWindow 2 1 0 0) = false ∧ Instr.wf small (.setAddressWindow 0 0 1 0) = false ∧
      Instr.wf small (.plot 2 1 7) = true ∧ Instr.wf small (.plot 2 2 7) = false := by decide +kernel

theorem test_wf_command :
    Instr.wf small (.sendCommand 0x11 []) = true ∧ Instr.wf small (.sendCommand 0x12 []) = false ∧
      Instr.wf small (.sendCommand 0x3A []) = false ∧ Instr.wf small (.sendCommand 0x2B [0, 0, 0, 0]) = true ∧
      Instr.wf small (.sendCommand 0x2B [0, 0, 0]) = false ∧ Instr.wf small (.sendCommand 0x2B [0, 0, 0, 0, 0]) = false := by
  decide +kernel

/-! ## Decoding: words written out from the encodings of R105, R106, R107, R108, R110 -/

/-- The 8-bit words of the opcode table's rows; operands in the 16-bit words that follow (log 3). -/
theorem test_decode_table_words :
    decodeTableWord 8 0b00010001 = some .slpout ∧ decodeTableWord 8 0b00111010 = some .pixset ∧
      decodeTableWord 8 0b00110110 = some (.madctl 0) ∧ decodeTableWord 8 0b00101001 = some .dispon ∧
      decodeTableWord 8 0b00101011 = some (.raset 0 0) ∧ decodeTableWord 8 0b00101010 = some (.caset 0 0) ∧
      decodeTableWord 8 0b00101100 = some .ramwr ∧ decodeTableWord 24 0x000336 = some (.madctl 3) ∧
      decodeTableWord 40 0x00EF00052A = some (.caset 5 239) ∧ decodeTableWord 8 0x12 = none := by decide +kernel

/-- V20, V2A, V30a, V33a and V55, the 68 bits in the 72 of nine bytes. -/
theorem test_decode_table_descriptors :
    decodeTableWord 72 0x00000000000000000 = some (.init 0 0 0 0) ∧
      decodeTableWord 72 0x10003000000000000 = some (.setOrientation 3 0 0 0) ∧
      decodeTableWord 72 0x2000A000B00050006 = some (.setAddressWindow 10 11 5 6) ∧
      decodeTableWord 72 0x30000000000000000 = some (.writePixelStream 0 0 0 0 []) ∧
      decodeTableWord 72 0x4001F000000000000 = some (.clear 0x1F 0 0 0) ∧
      decodeTableWord 72 0x50000000000000000 = none := by decide +kernel

/-- Every field of a descriptor bit by bit: op, OPA, OPB, OPC2, OPD with different values, ignored ones kept. -/
theorem test_decode_descriptor_fields :
    decode (.descriptor (0b0010#4 ++ 0xA001#16 ++ 0xB002#16 ++ 0xC003#16 ++ 0xD004#16) []) =
        .ok (.setAddressWindow 0xA001 0xB002 0xC003 0xD004) ∧
      decode (.descriptor 0x4A001B002C003D004#68 []) = .ok (.clear 0xA001 0xB002 0xC003 0xD004) ∧
      decode (.descriptor 0x3A001B002C003D004#68 [0xAAAA, 0x5555]) =
        .ok (.writePixelStream 0xA001 0xB002 0xC003 0xD004 [0xAAAA, 0x5555]) := by decide +kernel

/-- Reserved op codes at both ends of their range, and a payload with an operation that takes none. -/
theorem test_decode_rejects :
    decode (.descriptor 0x50000000000000000#68 []) = .error .reservedOp ∧
      decode (.descriptor 0xF0000000000000000#68 []) = .error .reservedOp ∧
      decode (.descriptor 0x40000000000000000#68 [0]) = .error .strayPayload ∧
      decode (.command 0x00 []) = .error .unknownCommand ∧ decode (.command 0x2B [1]) = .error .argumentCount ∧
      decode (.command 0x11 [1]) = .error .argumentCount := by decide +kernel

/-- V11, V12, V13, V14, V15, V19: the bytes of the frames. -/
theorem test_decode_wire :
    decodeWire small [0x3A, 0x55] = .ok .pixset ∧ decodeWire small [0x36, 0x48] = .ok (.madctl 0) ∧
      decodeWire small [0x36, 0x88] = .ok (.madctl 1) ∧ decodeWire small [0x36, 0x28] = .ok (.madctl 2) ∧
      decodeWire small [0x36, 0xE8] = .ok (.madctl 3) ∧ decodeWire small [0x2B, 0x00, 0x0A, 0x01, 0x2C] = .ok (.raset 10 300) ∧
      decodeWire small [0x2B, 0x00, 0x00, 0x01, 0x3F] = .ok (.raset 0 319) ∧
      decodeWire small [0x2A, 0x00, 0xEF, 0x00, 0xEF] = .ok (.caset 239 239) ∧ decodeWire small [0x11] = .ok .slpout ∧
      decodeWire small [0x29] = .ok .dispon ∧ decodeWire small [0x2C] = .ok .ramwr := by decide +kernel

theorem test_decode_wire_rejects :
    decodeWire small [] = .error .emptyFrame ∧ decodeWire small [0x00] = .error .unknownCommand ∧
      decodeWire small [0x3A, 0x66] = .error .argumentValue ∧ decodeWire small [0x36, 0x00] = .error .argumentValue ∧
      decodeWire small [0x2B, 0x00, 0x0A, 0x01] = .error .argumentCount ∧
      decodeWire small [0x2C, 0x00] = .error .argumentCount := by decide +kernel

/-- V16: pixel serialisation. -/
theorem test_pixel_bytes :
    pixelBytes [0xF800, 0x07E0, 0x001F, 0x1234, 0x0000, 0xFFFF] =
      [0xF8, 0x00, 0x07, 0xE0, 0x00, 0x1F, 0x12, 0x34, 0x00, 0x00, 0xFF, 0xFF] := by decide +kernel

/-- V17: the colour fields. -/
theorem test_rgb_fields :
    rgbFields 0xF800 = (31, 0, 0) ∧ rgbFields 0x07E0 = (0, 63, 0) ∧ rgbFields 0x001F = (0, 0, 31) ∧
      rgbFields 0x0821 = (1, 1, 1) := by decide +kernel

/-- V18: be16 and back. -/
theorem test_be16 :
    be16 255 = [0x00, 0xFF] ∧ be16 256 = [0x01, 0x00] ∧ be16 319 = [0x01, 0x3F] ∧ be16 65535 = [0xFF, 0xFF] ∧
      ofBytes 0x01 0x3F = 319 := by decide +kernel

/-- R104: bit 7 first. -/
theorem test_wire_bits : wireBits 0x81 = [true, false, false, false, false, false, false, true] ∧
    wireBits 0xC0 = [true, true, false, false, false, false, false, false] := by decide +kernel

/-- R65, R104: the opcode byte 0x11 of a frame, bits 7 and 4: the clock rises and the bit is captured under DC = 0, then it
falls; SPI_MODE is idle-low, first edge (R9). -/
theorem test_clock_edges :
    let edges := clockEdges small.spiMode (C 0x11 [])
    edges.length = 16 ∧ edges.take 2 = [{ level := true, dc := false, captured := some false },
      { level := false, dc := false, captured := none }] ∧
    edges[6]? = some { level := true, dc := false, captured := some true } ∧ edges.getLast?.map (·.level) = some false := by
  decide +kernel

/-! ## One step each -/

/-- V1, V19. -/
theorem test_slpout : run (cold small (oks 1)) .slpout = some (C 0x11 [], [.ok]) := by decide +kernel

/-- V11; and V5 with one argument: its byte fails. -/
theorem test_pixset : run (cold small (oks 2)) .pixset = some (C 0x3A [0x55], [.ok]) ∧
    run (cold small [.ok, .fail 0]) .pixset =
      some ([.pin .csN false, .pin .dc false, .byte false 0x3A, .pin .dc true, .xferFail, .pin .csN true], [.busError]) := by
  decide +kernel

/-- V12; an index outside the set (R114 (c)). -/
theorem test_madctl : run (cold small (oks 2)) (.madctl 3) = some (C 0x36 [0xE8], [.ok]) ∧
    refusal (exec (.madctl 4) (cold small (oks 2))) = some .orientationOutsideSet := by decide +kernel

/-- V19; V10. -/
theorem test_dispon : run (cold small (oks 1)) .dispon = some (C 0x29 [], [.ok]) ∧
    run (cold small [.stall]) .dispon = some ([.pin .csN false, .pin .dc false], []) := by decide +kernel

/-- V13. -/
theorem test_raset : run (cold small (oks 2)) (.raset 10 300) = some (C 0x2B [0x00, 0x0A, 0x01, 0x2C], [.ok]) := by
  decide +kernel

/-- V15. -/
theorem test_caset : run (cold small (oks 2)) (.caset 239 239) = some (C 0x2A [0x00, 0xEF, 0x00, 0xEF], [.ok]) := by
  decide +kernel

/-- V19. -/
theorem test_ramwr : run (cold small (oks 1)) .ramwr = some (C 0x2C [], [.ok]) := by decide +kernel

/-- V3, V4. -/
theorem test_send_command :
    run (cold small (oks 2)) (.sendCommand 0x2B [0x00, 0x0A, 0x01, 0x2C]) = some (C 0x2B [0x00, 0x0A, 0x01, 0x2C], [.ok]) ∧
    run (cold small [.fail 0]) (.sendCommand 0x2A [0, 5, 0, 6]) =
      some ([.pin .csN false, .pin .dc false, .xferFail, .pin .csN true], [.busError]) := by decide +kernel

/-- V5: the two delivered bytes, then the failure. -/
theorem test_send_command_fails :
    run (cold small [.ok, .fail 2]) (.sendCommand 0x2A [0, 5, 0, 6]) =
      some ([.pin .csN false, .pin .dc false, .byte false 0x2A, .pin .dc true, .byte true 0x00, .byte true 0x05, .xferFail,
        .pin .csN true], [.busError]) := by decide +kernel

/-- V6, V7, V8. -/
theorem test_send_pixels :
    run (cold small [.ok]) (.sendPixels [0xF8, 0x00, 0xF8, 0x00]) = some (D [0xF8, 0x00, 0xF8, 0x00], [.ok]) ∧
    run (cold small []) (.sendPixels []) = some ([.pin .csN false, .pin .dc true, .pin .csN true], [.ok]) ∧
    run (cold small [.fail 3]) (.sendPixels [1, 2, 3, 4]) =
      some ([.pin .csN false, .pin .dc true, .byte true 1, .byte true 2, .byte true 3, .xferFail, .pin .csN true],
        [.busError]) := by decide +kernel

/-- V9: stuck, chip-select low, no completion value; then no step (R146). -/
theorem test_send_pixels_stalls :
    after (exec (.sendPixels [1, 2]) (cold small [.stall])) (fun t => (t.tr, t.completions, t.csN, t.dc, t.spi)) =
      some ([.pin .csN false, .pin .dc true], [], false, true, .stalled) := by decide +kernel

/-- V20. -/
theorem test_init :
    run (cold small (oks 6)) (.init 0 0 0 0) = some (initTrace, [.ok]) ∧
      after (exec (.init 0 0 0 0) (cold small (oks 6))) (fun t => (t.ctrl, t.initStep, t.orient, t.csN, t.dc, t.rstN)) =
        some (.ready, 4, some 0, true, true, true) := by decide +kernel

/-- V26: the last command fails, ORIENT is already written. P4 (V23): the pixel-format argument fails. -/
theorem test_init_fails :
    after (exec (.init 0 0 0 0) (cold small (oksThen 5 (.fail 0)))) (fun t => (t.ctrl, t.initStep, t.orient, t.dc)) =
      some (.initializing, 3, some 0, false) ∧
    (run (cold small (oksThen 5 (.fail 0))) (.init 0 0 0 0)).map (fun x => (x.1.length, x.2)) =
      some (25, [.displayInitError]) ∧
    after (exec (.init 3 0 0 0) (cold small [.ok, .ok, .fail 0])) (fun t => (t.ctrl, t.initStep, t.orient, t.dc)) =
      some (.initializing, 1, none, true) ∧
    (run (cold small [.ok, .ok, .fail 0]) (.init 3 0 0 0)).map (fun x => (x.1.length, x.2)) =
      some (15, [.displayInitError]) := by decide +kernel

/-- V2A; V2B: ORIENT unchanged. -/
theorem test_set_orientation :
    run (ready wide (oks 2)) (.setOrientation 3 0 0 0) = some (C 0x36 [0xE8], [.ok]) ∧
    after (exec (.setOrientation 3 0 0 0) (ready wide (oks 2))) (fun t => (t.orient, t.dims?)) =
      some (some 3, some (240, 320)) ∧
    run (ready wide [.ok, .fail 0]) (.setOrientation 2 0 0 0) =
      some ([.pin .csN false, .pin .dc false, .byte false 0x36, .pin .dc true, .xferFail, .pin .csN true],
        [.displayIoError]) ∧
    after (exec (.setOrientation 2 0 0 0) (ready wide [.ok, .fail 0])) (fun t => t.orient) = some (some 0) := by
  decide +kernel

/-- V30a, V30i. -/
theorem test_set_address_window :
    run (ready wide (oks 5)) (.setAddressWindow 10 11 5 6) =
      some (List.flatten [C 0x2B [0x00, 0x0A, 0x00, 0x0B], C 0x2A [0x00, 0x05, 0x00, 0x06], C 0x2C []], [.ok]) ∧
    run (ready wide [.ok, .ok, .ok, .fail 1]) (.setAddressWindow 10 11 5 6) =
      some (List.flatten [C 0x2B [0x00, 0x0A, 0x00, 0x0B], [.pin .csN false, .pin .dc false, .byte false 0x2A, .pin .dc true,
        .byte true 0x00, .xferFail, .pin .csN true]], [.displayIoError]) := by decide +kernel

/-- V30c admitted; V30d, V30e, V30f, V30g refused. -/
theorem test_set_address_window_bounds :
    (run (ready wide (oks 5)) (.setAddressWindow 319 319 239 239)).isSome = true ∧
      refusal (exec (.setAddressWindow 0 320 0 0) (ready wide [])) = some .windowOutOfBounds ∧
      refusal (exec (.setAddressWindow 5 4 0 0) (ready wide [])) = some .windowOutOfBounds ∧
      refusal (exec (.setAddressWindow 0 0 0 240) (ready wide [])) = some .windowOutOfBounds ∧
      refusal (exec (.setAddressWindow 0 239 0 319) (ready wide [])) = some .windowOutOfBounds := by decide +kernel

/-- V31a, V31b. -/
theorem test_write_pixel_stream :
    run (ready wide [.ok]) (.writePixelStream 0 0 0 0 [0xF800, 0x07E0]) = some (D [0xF8, 0x00, 0x07, 0xE0], [.ok]) ∧
      run (ready wide []) (.writePixelStream 0 0 0 0 []) = some (D [], [.ok]) := by decide +kernel

/-- V31c. -/
theorem test_write_pixel_stream_fails :
    run (ready wide [.fail 3]) (.writePixelStream 0 0 0 0 [0x1234, 0x5678]) =
      some ([.pin .csN false, .pin .dc true, .byte true 0x12, .byte true 0x34, .byte true 0x56, .xferFail, .pin .csN true],
        [.displayIoError]) := by decide +kernel

/-- V33h. -/
theorem test_clear :
    run (ready small (oks 7)) (.clear 0xFFFF 0 0 0) =
      some (List.flatten [C 0x2B [0, 0, 0, 2], C 0x2A [0, 0, 0, 1], C 0x2C [],
        D [0xFF, 0xFF, 0xFF, 0xFF, 0xFF, 0xFF, 0xFF, 0xFF], D [0xFF, 0xFF, 0xFF, 0xFF]], [.ok]) ∧
    after (exec (.clear 0xFFFF 0 0 0) (ready small (oks 7)))
        (fun t => (t.rx.px.map fun e => (e.r, e.c), t.rx.close.verdicts.map WindowEntry.verdict, t.rx.close.undef)) =
      some ([(0, 0), (0, 1), (1, 0), (1, 1), (2, 0), (2, 1)], [.exact], false) := by decide +kernel

/-- V33g. -/
theorem test_clear_fails :
    run (ready small [.fail 0]) (.clear 7 0 0 0) =
      some ([.pin .csN false, .pin .dc false, .xferFail, .pin .csN true], [.displayIoError]) := by decide +kernel

/-- V45. -/
theorem test_plot :
    run (ready wide (oks 6)) (.plot 100 150 0xFFFF) =
      some (List.flatten [C 0x2B [0x00, 0x64, 0x00, 0x64], C 0x2A [0x00, 0x96, 0x00, 0x96], C 0x2C [], D [0xFF, 0xFF]],
        [.ok]) := by
  decide +kernel

/-- V42 about (2, 2): five pixels filled, eight stroked, nothing else; every window exactly filled (R250). -/
theorem test_draw_circle :
    after (exec (.drawCircle 2 2 2 0xAAAA 1 0x5555) (ready square (oks 30))) (fun t =>
        (t.rx.px.map fun e => (e.r, e.c, e.p))) =
      some [(0, 2, 0xAAAA), (1, 1, 0xAAAA), (1, 2, 0x5555), (1, 3, 0xAAAA), (2, 0, 0xAAAA), (2, 1, 0x5555),
        (2, 2, 0x5555), (2, 3, 0x5555), (2, 4, 0xAAAA), (3, 1, 0xAAAA), (3, 2, 0x5555), (3, 3, 0xAAAA), (4, 2, 0xAAAA)] ∧
    after (exec (.drawCircle 2 2 2 0xAAAA 1 0x5555) (ready square (oks 30))) (fun t =>
        (t.rx.close.verdicts.map WindowEntry.verdict, t.completions)) =
      some ([.exact, .exact, .exact, .exact, .exact], [.ok]) := by decide +kernel

/-- A plan the rules allow (R243): V40 in another order, its rows cut. -/
theorem test_draw_circle_choice :
    after (exec (.drawCircle 1 1 1 7 0 9) { ready square (oks 24) with renderScript :=
        [{ plain with plan := [{ row := 2, c0 := 1, c1 := 1 }, { row := 1, c0 := 1, c1 := 2 }, { row := 0, c0 := 1, c1 := 1 },
          { row := 1, c0 := 0, c1 := 0 }] }] }) (fun t => t.rx.px.map fun e => (e.r, e.c, e.p)) =
      some [(2, 1, 9), (1, 1, 9), (1, 2, 9), (0, 1, 9), (1, 0, 9)] := by decide +kernel

/-- A glyph of 2 by 2 with mask 13, bits 0, 2 and 3: its pixels (0, 0), (1, 0) and (1, 1), one PLOT each (R245, R246). -/
theorem test_draw_text :
    after (exec (.drawText ['L'] 1 2 .start 0xFFFF) (ready square (oks 18))) (fun t =>
        (t.rx.px.map fun e => (e.r, e.c), t.completions)) = some ([(1, 2), (2, 2), (2, 3)], [.ok]) := by decide +kernel

/-- R242, R246, N14: over the panel's edge a renderer that clips draws what lies inside: of V40 about the corner (0, 0)
three pixels, of the glyph at the last pixel (5, 5) one. -/
theorem test_draw_clipped :
    after (exec (.drawCircle 0 0 1 7 0 9) { ready square (oks 12) with renderScript := [clipping] }) (fun t =>
        (t.rx.px.map fun e => (e.r, e.c, e.p), t.completions)) = some ([(0, 0, 9), (0, 1, 9), (1, 0, 9)], [.ok]) ∧
    after (exec (.drawText ['L'] 5 5 .start 0xFFFF) { ready square (oks 6) with renderScript := [clipping] }) (fun t =>
        (t.rx.px.map fun e => (e.r, e.c), t.completions)) = some ([(5, 5)], [.ok]) := by decide +kernel

/-- S4, V44: two lines about column 2, of one and two characters of width 2, one line height (3) apart. -/
theorem test_draw_text_lines :
    after (exec (.drawText ['L', '\n', 'L', 'L'] 1 2 .center 0xFFFF) (ready square (oks 54))) (fun t =>
        t.rx.px.map fun e => (e.r, e.c)) =
      some [(1, 1), (2, 1), (2, 2), (4, 0), (5, 0), (5, 1), (4, 2), (5, 2), (5, 3)] := by decide +kernel

/-- Under `wide` the panel's first column past the edge, refused; V27, V28, V29, V55 and
R114 (e) refused. -/
theorem test_refusals :
    refusal (exec (.plot 0 240 7) (ready wide [])) = some .windowOutOfBounds ∧
      refusal (exec (.init 0 0 0 0) (ready small [])) = some .notUnpowered ∧
      refusal (exec (.init 7 0 0 0) (cold small [])) = some .orientationOutsideSet ∧
      refusal (exec (.clear 0 0 0 0) (cold small [])) = some .notReady ∧
      refusal (exec (.sendCommand 0x2C [1]) (cold small [])) = some .commandArgCount ∧
      refusal (exec (.sendCommand 0x2D []) (cold small [])) = some .commandNotInSet ∧
      refusal (step { cold small [] with port := [.descriptor 0x50000000000000000#68 []] }) = some .reservedOp := by
  decide +kernel

/-- The next step takes the word placed in front (the interface's two functions), from reset. -/
theorem test_fetch_word : (State.reset.withFetchWord 8 0x3A).bench = [.command 0x3A []] ∧
    (State.reset.withFetchWord 72 0x10003000000000000).port = [.descriptor 0x10003000000000000#68 []] := by decide +kernel

/-- R275 (a), R140: at the host port a command and a primitive are refused, at the Bus Transport's boundary a descriptor
is; each runs at its own (SLPOUT's opcode is on the wire, INIT ends in Ready, R192). -/
theorem test_boundaries :
    refusal (step { cold small (oks 6) with port := [.command 0x11 []] }) = some .notReachable ∧
      refusal (step { ready small (oks 1) with port := [.call (.sendPixels [1])] }) = some .notReachable ∧
      refusal (step { cold small (oks 6) with bench := [encode (.init 0 0 0 0)] }) = some .notReachable ∧
      after (step { cold small (oks 6) with bench := [.command 0x11 []] }) (fun t => (t.tr, t.bench)) =
        some (C 0x11 [], []) ∧
      after (step { cold small (oks 6) with port := [encode (.init 0 0 0 0)] }) (fun t => (t.ctrl, t.port)) =
        some (.ready, []) := by decide +kernel

/-! ## The receiver -/

/-- After V20: awake, on, formats and orientation byte as sent, no window, nothing stored, nothing undefined. -/
theorem test_receiver_after_init :
    (ready small []).rx = { Rx.start with
      boot := .open, cmd := some 0x29, awake := true, on := true, fmt := some 0x55, madctl := .byte 0x48 } := by
  decide +kernel

/-- The events of a window 10 to 11 by 5 to 6 (V30a). -/
def window : List Event :=
  List.flatten [C 0x2B [0x00, 0x0A, 0x00, 0x0B], C 0x2A [0x00, 0x05, 0x00, 0x06], C 0x2C []]

/-- The receiver at the end of a run of P1, that window and more events. -/
def seen (evs : List Event) : Rx := Rx.observeRun wide (List.flatten [initTrace, window, evs])

/-- V31c, then another stream (V32e). -/
def cutStream : List Event :=
  List.flatten [[.pin .csN false, .pin .dc true, .byte true 0x12, .byte true 0x34, .byte true 0x56, .xferFail,
    .pin .csN true], D [0x99, 0x99]]

/-- V32a, V32c, V32d: exact, short, and over with the fifth pixel at the wrapped address. -/
theorem test_receiver_verdicts :
    (seen (D [0x11, 0x11, 0x22, 0x22, 0x33, 0x33, 0x44, 0x44])).verdicts =
        [{ row := .bounds 10 11, col := .bounds 5 6, cnt := 4, verdict := .exact }] ∧
      (seen (D [0x11, 0x11, 0x22, 0x22, 0x33, 0x33])).verdicts.map WindowEntry.verdict = [.short] ∧
      (seen (D [0x11, 0x11, 0x22, 0x22, 0x33, 0x33, 0x44, 0x44, 0x55, 0x55])).px.map (fun e => (e.r, e.c, e.p)) =
        [(10, 5, 0x1111), (10, 6, 0x2222), (11, 5, 0x3333), (11, 6, 0x4444), (10, 5, 0x5555)] := by decide +kernel

/-- V32e: after the failure the counter is indeterminate and nothing is stored. -/
theorem test_receiver_after_failure :
    (seen cutStream).px.map (fun e => (e.r, e.c, e.p)) = [(10, 5, 0x1234)] ∧
      (seen cutStream).verdicts.map WindowEntry.verdict = [.indeterminate] ∧ (seen cutStream).undef = true := by
  decide +kernel

/-- R83: the last pixel stored at an address is its content; an address never stored to has none. -/
theorem test_pixel_memory :
    PixelMemory.read (memoryOf [{ r := 1, c := 2, p := 7 }, { r := 0, c := 5, p := 8 }, { r := 1, c := 2, p := 9 }]) 1 2 =
        some 9 ∧
      PixelMemory.read (memoryOf [{ r := 1, c := 2, p := 7 }]) 2 1 = none := by decide +kernel

/-- R83, U1: the content after the window of V32a is filled, none after V32c, a pixel short. -/
theorem test_pixel_content :
    { ready wide [] with tr := List.flatten [initTrace, window, D [0x11, 0x11, 0x22, 0x22, 0x33, 0x33, 0x44, 0x44]] }.pixel
        11 5 = some 0x3333 ∧
      { ready wide [] with tr := List.flatten [initTrace, window, D [0x11, 0x11, 0x22, 0x22, 0x33, 0x33]] }.pixel 11 5 =
        none := by decide +kernel

/-- U11, R318: the content of a cleared glass is unknown after SET_ORIENTATION, and known again after the next CLEAR. -/
theorem test_pixel_content_orientation :
    after (execAll [.clear 7 0 0 0, .setOrientation 3 0 0 0] (ready small (oks 20))) (fun t => (t.stored 0 0, t.pixel 0 0)) =
        some (some 7, none) ∧
      after (execAll [.clear 7 0 0 0, .setOrientation 3 0 0 0, .clear 9 0 0 0] (ready small (oks 20)))
        (fun t => (t.pixel 0 0, t.pixel 1 2, t.pixel 2 0)) = some (some 9, some 9, none) := by decide +kernel

/-! ## Witnesses: states and operands that meet a statement's hypotheses together -/

theorem answersOk_oks {s : State} (m n : Nat) (hs : s.spiScript = oks m) (h0 : s.spiDrawn = 0) (h : n ≤ m) :
    s.answersOk n := by
  intro k hk
  simp [State.answerAt, hs, h0, oks, Nat.lt_of_lt_of_le hk h]

theorem answers_then {s : State} (n : Nat) (a : SpiAnswer) (hs : s.spiScript = oksThen n a) (h0 : s.spiDrawn = 0) :
    s.answersOk n ∧ s.answerAt (s.spiDrawn + n) = a := by
  constructor
  · intro k hk
    simp [State.answerAt, hs, h0, oksThen, oks, List.getElem?_append, hk]
  · simp [State.answerAt, hs, h0, oksThen, oks]

/-- A ready machine takes pixels. -/
theorem ready_rxReady (answers : List SpiAnswer) :
    (ready small answers).rxReady ∧ (ready wide answers).rxReady ∧ (ready square answers).rxReady := by
  have h : ∀ p : Params, (ready p answers).rx = Rx.observe p initTrace := fun _ => rfl
  have hr : (Rx.observe small initTrace).boot = .open ∧ (Rx.observe small initTrace).fmt = some 0x55 ∧
      (Rx.observe wide initTrace).boot = .open ∧ (Rx.observe wide initTrace).fmt = some 0x55 ∧
      (Rx.observe square initTrace).boot = .open ∧ (Rx.observe square initTrace).fmt = some 0x55 := by decide
  simp only [State.rxReady, h]
  exact ⟨⟨hr.1, hr.2.1⟩, ⟨hr.2.2.1, hr.2.2.2.1⟩, hr.2.2.2.2⟩

/-- O1: a request of each kind at each boundary. -/
theorem witness_StepRunsDecodedRequest :
    (cold small []).spi = .idle ∧ (cold small []).bench = [] ∧
      (∀ r ∈ [encode (.init 0 0 0 0), .command 0x11 []],
        { cold small [] with port := [r] }.port = r :: [] ∧ { cold small [] with bench := [r] }.bench = r :: []) ∧
      fromHost (encode (.init 0 0 0 0)) = true ∧ decode (encode (.init 0 0 0 0)) = .ok (.init 0 0 0 0) ∧
      fromHost (.command 0x11 []) = false ∧ decode (.command 0x11 []) = .ok .slpout :=
  ⟨rfl, rfl, fun _ _ => ⟨rfl, rfl⟩, by decide⟩

/-- O2. -/
theorem witness_IdleBlockHoldsItsState :
    (cold small []).spi = .idle ∧ (cold small []).bench = [] ∧ (cold small []).port = [] := ⟨rfl, rfl, rfl⟩

/-- O3. -/
theorem witness_StalledBlockTakesNoStep : { cold small [] with spi := .stalled }.spi = .stalled := rfl

/-- O8: the highest op code with a meaning, and the one with a payload. -/
theorem witness_EncodeOfDecodeIsTheDescriptor :
    decode (.descriptor 0x4FFFFFFFFFFFFFFFF#68 []) = .ok (.clear 0xFFFF 0xFFFF 0xFFFF 0xFFFF) ∧
      decode (.descriptor 0x30000000000000001#68 [7]) = .ok (.writePixelStream 0 0 0 1 [7]) := by decide

/-- O9: a command of each format. -/
theorem witness_WireBytesDecodeToTheCommand :
    small.opc.distinct = true ∧ small.madctlDistinct = true ∧ encodeWire small .ramwr = some [0x2C] ∧
      encodeWire small (.madctl 3) = some [0x36, 0xE8] ∧ encodeWire small (.raset 0 65535) = some [0x2B, 0, 0, 0xFF, 0xFF] := by
  decide +kernel

/-- O12: without arguments and with four. -/
theorem witness_SendCommandCompletes :
    ((cold small (oks 1)).spi = .idle ∧ (cold small (oks 1)).cfg.opc.cmd? 0x11 = some .slpout ∧
        ([] : List Byte).length = Cmd.slpout.argCount ∧ (cold small (oks 1)).answersOk 1) ∧
      ((cold small (oks 2)).spi = .idle ∧ (cold small (oks 2)).cfg.opc.cmd? 0x2A = some .caset ∧
        ([1, 2, 3, 4] : List Byte).length = Cmd.caset.argCount ∧ (cold small (oks 2)).answersOk 2) :=
  ⟨⟨rfl, by decide, rfl, answersOk_oks 1 1 rfl rfl (by decide)⟩, rfl, by decide, rfl, answersOk_oks 2 2 rfl rfl (by decide)⟩

/-- O13: no bytes and one. -/
theorem witness_SendPixelsCompletes :
    ((cold small (oks 0)).spi = .idle ∧ (cold small (oks 0)).answersOk 0) ∧
      ((cold small (oks 1)).spi = .idle ∧ (cold small (oks 1)).answersOk 1) :=
  ⟨⟨rfl, answersOk_oks 0 0 rfl rfl (by decide)⟩, rfl, answersOk_oks 1 1 rfl rfl (by decide)⟩

/-- O14: the opcode byte fails; no argument byte delivered, and all but one; no payload byte, and all but one. -/
theorem witness_PrimitiveFailurePath :
    (∀ k, (cold small (oksThen 0 (.fail k))).spi = .idle ∧ (cold small (oksThen 0 (.fail k))).failsAt 0 k) ∧
      small.opc.cmd? 0x2A = some .caset ∧ ([1, 2, 3, 4] : List Byte).length = Cmd.caset.argCount ∧
      (∀ k, k = 0 ∨ k = 3 → k < ([1, 2, 3, 4] : List Byte).length ∧ (cold small (oksThen 1 (.fail k))).failsAt 1 k) :=
  ⟨fun k => ⟨rfl, answers_then 0 (.fail k) rfl rfl⟩, by decide, rfl, fun k hk =>
    ⟨by rcases hk with rfl | rfl <;> decide, answers_then 1 (.fail k) rfl rfl⟩⟩

/-- O15: a stall at the opcode byte or the payload, and at the arguments. -/
theorem witness_StalledPrimitive :
    (cold small (oksThen 0 .stall)).spi = .idle ∧ (cold small (oksThen 0 .stall)).stallsAt 0 ∧
      (cold small (oksThen 1 .stall)).stallsAt 1 ∧ small.opc.cmd? 0x3A = some .pixset ∧
      ([0x55] : List Byte).length = Cmd.pixset.argCount ∧ ([0x55] : List Byte) ≠ [] :=
  ⟨rfl, answers_then 0 .stall rfl rfl, answers_then 1 .stall rfl rfl, by decide, rfl, by decide⟩

/-- O16. -/
theorem witness_CommandsWithoutArgumentsComplete : (cold small (oks 1)).spi = .idle ∧ (cold small (oks 1)).answersOk 1 :=
  ⟨rfl, answersOk_oks 1 1 rfl rfl (by decide)⟩

/-- O17: the first and the last orientation of the set. -/
theorem witness_CommandsWithOneArgumentComplete :
    (cold small (oks 2)).spi = .idle ∧ (cold small (oks 2)).answersOk 2 ∧
      small.orientSet[(0 : Half).toNat]? = some { madctl := 0x48, exchanges := false } ∧
      small.orientSet[(3 : Half).toNat]? = some { madctl := 0xE8, exchanges := true } :=
  ⟨rfl, answersOk_oks 2 2 rfl rfl (by decide), by decide, by decide⟩

/-- O18. -/
theorem witness_WindowCommandsComplete : (cold small (oks 2)).spi = .idle ∧ (cold small (oks 2)).answersOk 2 :=
  ⟨rfl, answersOk_oks 2 2 rfl rfl (by decide)⟩

/-- O19: a command of each format. -/
theorem witness_CommandFrameTellsTheCommand :
    (opLayer .dispon = .wire ∧ ∃ t, exec .dispon (cold small (oks 2)) = .next t) ∧
      (opLayer (.madctl 3) = .wire ∧ ∃ t, exec (.madctl 3) (cold small (oks 2)) = .next t) ∧
      (opLayer (.caset 0 65535) = .wire ∧ ∃ t, exec (.caset 0 65535) (cold small (oks 2)) = .next t) ∧
      small.opc.distinct = true ∧ small.madctlDistinct = true ∧ (cold small (oks 2)).spi = .idle ∧
      (cold small (oks 2)).answersOk 2 :=
  ⟨⟨rfl, _, rfl⟩, ⟨rfl, _, rfl⟩, ⟨rfl, _, rfl⟩, by decide, by decide, rfl, answersOk_oks 2 2 rfl rfl (by decide)⟩

/-- O20: the first and the last orientation of the set. -/
theorem witness_InitCompletes :
    (cold small (oks 6)).spi = .idle ∧ (cold small (oks 6)).ctrl = .unpowered ∧ (cold small (oks 6)).answersOk 6 ∧
      small.orientSet[(0 : Half).toNat]? = some { madctl := 0x48, exchanges := false } ∧
      small.orientSet[(3 : Half).toNat]? = some { madctl := 0xE8, exchanges := true } :=
  ⟨rfl, rfl, answersOk_oks 6 6 rfl rfl (by decide), by decide, by decide⟩

/-- O21: the first and the last orientation of the set. -/
theorem witness_InitTraceFromReset :
    (∀ k < 6, (oks 6)[k]? = some .ok) ∧
      Config.orientSet[(0 : Half).toNat]? = some { madctl := 0x48, exchanges := false } ∧
      Config.orientSet[(3 : Half).toNat]? = some { madctl := 0xE8, exchanges := true } := by decide

/-- O22: a failure at each of the six transfers; then any host operation. -/
theorem witness_InitFailureIsFatal :
    small.orientSet[(0 : Half).toNat]? = some { madctl := 0x48, exchanges := false } ∧
      (∀ j < 6, (cold small (oksThen j (.fail 0))).spi = .idle ∧ (cold small (oksThen j (.fail 0))).ctrl = .unpowered ∧
        (cold small (oksThen j (.fail 0))).failsAt j 0) ∧ opLayer (.clear 0 0 0 0) = .host :=
  ⟨by decide, fun j _ => ⟨rfl, rfl, answers_then j (.fail 0) rfl rfl⟩, rfl⟩

/-- O23: INIT in Ready; the others in Unpowered; a text with a foreground pixel. -/
theorem witness_AdmissionByState :
    ((ready small []).spi = .idle ∧ (ready small []).ctrl ≠ .unpowered) ∧
      ((cold small []).spi = .idle ∧ (cold small []).ctrl ≠ .ready) ∧
      (let s := { cold small [] with renderScript := [plain] }
       s.spi = .idle ∧ s.ctrl ≠ .ready ∧ s.hostKnows ∧
         (textCells s.cfg (s.renderChoiceAt s.renderDrawn) ['L'] 0 0 .start).flatten ≠ []) := by
  refine ⟨⟨rfl, by decide⟩, ⟨rfl, by decide⟩, rfl, by decide, rfl, by decide⟩

/-- O24: the lowest and the highest reserved op code, the first index outside the set, each way a bound is bad, an
unknown opcode, one argument too many and too few. -/
theorem witness_FormsWithoutMeaningAreRefused :
    (cold small []).spi = .idle ∧ (cold small []).bench = [] ∧ 5 ≤ ((0x50000000000000000#68).extractLsb' 64 4).toNat ∧
      5 ≤ ((0xF0000000000000000#68).extractLsb' 64 4).toNat ∧
      { cold small [] with port := [.descriptor 0x50000000000000000#68 []] }.port =
        .descriptor 0x50000000000000000#68 [] :: [] ∧
      small.orientSet.length ≤ (4 : Half).toNat ∧ (cold small []).ctrl = .unpowered ∧ (ready small []).spi = .idle ∧
      (ready small []).ctrl = .ready ∧ (ready small []).dims? = some (3, 2) ∧ (1 : Half).toNat < (2 : Half).toNat ∧
      3 ≤ (3 : Half).toNat ∧ 2 ≤ (2 : Half).toNat ∧ small.opc.cmd? 0x2D = none ∧ small.opc.cmd? 0x3A = some .pixset ∧
      ([] : List Byte).length ≠ Cmd.pixset.argCount ∧ ([1, 2] : List Byte).length ≠ Cmd.pixset.argCount := by
  refine ⟨rfl, rfl, by decide, by decide, rfl, by decide, rfl, rfl, rfl, rfl, by decide, by decide, by decide, by decide,
    by decide, by decide, by decide⟩

/-- O25. -/
theorem witness_SetOrientationCompletes :
    (ready small (oks 2)).spi = .idle ∧ (ready small (oks 2)).ctrl = .ready ∧ (ready small (oks 2)).answersOk 2 ∧
      small.orientSet[(3 : Half).toNat]? = some { madctl := 0xE8, exchanges := true } :=
  ⟨rfl, rfl, answersOk_oks 2 2 rfl rfl (by decide), by decide⟩

/-- O26: both transfers. -/
theorem witness_SetOrientationFailureKeepsOrient :
    small.orientSet[(3 : Half).toNat]? = some { madctl := 0xE8, exchanges := true } ∧
      ∀ j < 2, (ready small (oksThen j (.fail 0))).spi = .idle ∧ (ready small (oksThen j (.fail 0))).ctrl = .ready ∧
        (ready small (oksThen j (.fail 0))).failsAt j 0 :=
  ⟨by decide, fun j _ => ⟨rfl, rfl, answers_then j (.fail 0) rfl rfl⟩⟩

/-- O27: the panel's last pixel. -/
theorem witness_SetAddressWindowCompletes :
    (ready wide (oks 5)).spi = .idle ∧ (ready wide (oks 5)).ctrl = .ready ∧ (ready wide (oks 5)).dims? = some (320, 240) ∧
      (319 : Half).toNat ≤ (319 : Half).toNat ∧ (319 : Half).toNat < 320 ∧ (239 : Half).toNat ≤ (239 : Half).toNat ∧
      (239 : Half).toNat < 240 ∧ (ready wide (oks 5)).answersOk 5 :=
  ⟨rfl, rfl, rfl, by decide, by decide, by decide, by decide, answersOk_oks 5 5 rfl rfl (by decide)⟩

/-- O28: every transfer, no byte and the most bytes delivered. -/
theorem witness_SetAddressWindowFailure :
    boundsOk 3 2 0 2 0 1 = true ∧
      ∀ j < 5, ∀ k, k = 0 ∨ k = 3 → k < 4 ∧ (ready small (oksThen j (.fail k))).spi = .idle ∧
        (ready small (oksThen j (.fail k))).ctrl = .ready ∧ (ready small (oksThen j (.fail k))).dims? = some (3, 2) ∧
        (ready small (oksThen j (.fail k))).failsAt j k :=
  ⟨by decide, fun j _ k hk => ⟨by omega, rfl, rfl, rfl, answers_then j (.fail k) rfl rfl⟩⟩

/-- O29: the empty payload and one pixel. -/
theorem witness_WritePixelStreamCompletes :
    ((ready small []).spi = .idle ∧ (ready small []).ctrl = .ready ∧ (ready small []).answersOk 0) ∧
      ((ready small (oks 1)).spi = .idle ∧ (ready small (oks 1)).ctrl = .ready ∧ (ready small (oks 1)).answersOk 1) :=
  ⟨⟨rfl, rfl, answersOk_oks 0 0 rfl rfl (by decide)⟩, rfl, rfl, answersOk_oks 1 1 rfl rfl (by decide)⟩

/-- O30: before the first byte and before the last. -/
theorem witness_WritePixelStreamFailure :
    ∀ k, k = 0 ∨ k = 3 → k < 2 * ([1, 2] : List Pixel).length ∧ (ready small (oksThen 0 (.fail k))).spi = .idle ∧
      (ready small (oksThen 0 (.fail k))).ctrl = .ready ∧ (ready small (oksThen 0 (.fail k))).failsAt 0 k :=
  fun k hk => ⟨by simp only [List.length_cons, List.length_nil]; omega, rfl, rfl, answers_then 0 (.fail k) rfl rfl⟩

/-- O31: six pixels in chunks of four, and in chunks of three, which divide them. -/
theorem witness_ClearCompletes :
    ((ready small (oks 7)).spi = .idle ∧ (ready small (oks 7)).ctrl = .ready ∧ small.wf = true ∧
        (ready small (oks 7)).dims? = some (3, 2) ∧ (ready small (oks 7)).answersOk 7) ∧
      (let s := ready { small with clearChunk := 3 } (oks 7)
       s.spi = .idle ∧ s.ctrl = .ready ∧ s.cfg.wf = true ∧ s.dims? = some (3, 2) ∧ s.answersOk 7) :=
  ⟨⟨rfl, rfl, by decide, rfl, answersOk_oks 7 7 rfl rfl (by decide)⟩, rfl, rfl, by decide, rfl,
    answersOk_oks 7 7 rfl rfl (by decide)⟩

/-- O32: the last full frame, cut before its first byte and before its last. -/
theorem witness_ClearFailureInAFrame :
    ∀ k, k = 0 ∨ k = 7 → (0 + 1) * small.clearChunk ≤ 3 * 2 ∧ k < 2 * small.clearChunk ∧ small.wf = true ∧
      (ready small (oksThen 5 (.fail k))).spi = .idle ∧ (ready small (oksThen 5 (.fail k))).ctrl = .ready ∧
      (ready small (oksThen 5 (.fail k))).dims? = some (3, 2) ∧ (ready small (oksThen 5 (.fail k))).failsAt (5 + 0) k :=
  fun k hk => ⟨by decide, by simp only [small]; omega, by decide, rfl, rfl, rfl, answers_then 5 (.fail k) rfl rfl⟩

/-- O33: the panel's last pixel. -/
theorem witness_PlotCompletes :
    (ready small (oks 6)).spi = .idle ∧ (ready small (oks 6)).ctrl = .ready ∧ (ready small (oks 6)).dims? = some (3, 2) ∧
      (2 : Half).toNat < 3 ∧ (1 : Half).toNat < 2 ∧ (ready small (oks 6)).answersOk 6 :=
  ⟨rfl, rfl, rfl, by decide, by decide, answersOk_oks 6 6 rfl rfl (by decide)⟩

/-- O34: a circle of radius 2 that touches the panel's first row and column, and one that touches its last; one about
the panel's corner and one wholly outside, clipped. -/
theorem witness_DrawCircleDrawsItsPixels :
    ((ready square (oks 30)).spi = .idle ∧ (ready square (oks 30)).ctrl = .ready ∧ square.wf = true ∧
      (ready square (oks 30)).hostKnows ∧ (ready square (oks 30)).dims? = some (6, 6) ∧ (ready square (oks 30)).rxReady ∧ 2 ≤ 2 ∧ 2 + 2 < 6 ∧ 3 + 2 < 6 ∧
      (ready square (oks 30)).displayDefined = true ∧
      (∀ rc ∈ [(2, 2), (3, 3)], (ready square (oks 30)).answersOk (6 * (circleJobs rc.1 rc.2 2 0xAAAA 1 0x5555
        ((ready square (oks 30)).renderChoiceAt (ready square (oks 30)).renderDrawn) (some (6, 6))).length))) ∧
    (let s := { ready square (oks 30) with renderScript := [clipping] }
     s.hostKnows ∧ s.rxReady ∧ (s.renderChoiceAt s.renderDrawn).clips = true ∧
      (∀ rc ∈ [(0, 5), (9, 2)], s.answersOk (6 * (circleJobs rc.1 rc.2 2 0xAAAA 1 0x5555
        (s.renderChoiceAt s.renderDrawn) (some (6, 6))).length))) := by
  refine ⟨⟨rfl, rfl, by decide, rfl, rfl, (ready_rxReady _).2.2, by decide, by decide, by decide, by decide +kernel, ?_⟩,
    rfl, (ready_rxReady (oks 30)).2.2, rfl, ?_⟩
  all_goals
    intro rc hrc
    refine answersOk_oks 30 _ rfl rfl ?_
    revert rc
    decide +kernel

/-- O35: one glyph in the panel's first rows and columns; and one whose pixels cross its last, clipped. -/
theorem witness_DrawTextDrawsItsPixels :
    (let s := ready square (oks 18)
     s.spi = .idle ∧ s.ctrl = .ready ∧ s.hostKnows ∧ s.cfg.wf = true ∧ s.dims? = some (6, 6) ∧ s.rxReady ∧
      s.displayDefined = true ∧
      (let points := (textCells s.cfg (s.renderChoiceAt s.renderDrawn) ['L'] 0 0 .start).flatten
       (∀ rc ∈ points, 0 ≤ rc.1 ∧ rc.1 < (6 : Nat) ∧ 0 ≤ rc.2 ∧ rc.2 < (6 : Nat)) ∧ s.answersOk (6 * points.length))) ∧
    (let s := { ready square (oks 18) with renderScript := [clipping] }
     s.hostKnows ∧ s.rxReady ∧ (s.renderChoiceAt s.renderDrawn).clips = true ∧
      s.answersOk (6 * (textCells s.cfg (s.renderChoiceAt s.renderDrawn) ['L'] 5 5 .start).flatten.length)) :=
  ⟨⟨rfl, rfl, rfl, by decide, rfl, (ready_rxReady _).2.2, by decide +kernel, by decide,
      answersOk_oks 18 _ rfl rfl (by decide)⟩, rfl, (ready_rxReady (oks 18)).2.2, rfl, answersOk_oks 18 _ rfl rfl (by decide)⟩

/-- O36: lines of even width, for every alignment; and one of odd width where it is not centred. -/
theorem witness_TextLinesAreAlignedEach :
    '\n' ∉ ['L'] ∧ '\n' ∉ ['L', 'L', 'L'] ∧
      (Alignment.center = .center → ['L'].length * small.glyphW % 2 = 0 ∧ ['L', 'L', 'L'].length * small.glyphW % 2 = 0) ∧
      (Alignment.ending = .center → ['L'].length * 3 % 2 = 0 ∧ ['L', 'L', 'L'].length * 3 % 2 = 0) := by decide

/-- O37: no character, and a character without a set bit (V46). -/
theorem witness_EmptyTextIssuesNothing :
    let s := ready small []
    s.spi = .idle ∧ (textCells s.cfg (s.renderChoiceAt s.renderDrawn) [] 0 0 .start).flatten = [] ∧
      (textCells s.cfg (s.renderChoiceAt s.renderDrawn) [' '] 0 0 .start).flatten = [] := ⟨rfl, by decide, by decide⟩

/-- O38: the first row and column past the panel, circles one row or column over each edge, texts likewise. -/
theorem witness_OffPanelDrawingIsRefused :
    (ready square (oks 60)).spi = .idle ∧ (ready square (oks 60)).ctrl = .ready ∧
      (ready square (oks 60)).dims? = some (6, 6) ∧ 6 ≤ (6 : Half).toNat ∧ 1 < 2 ∧ 6 ≤ 4 + 2 ∧
      ((ready square (oks 60)).renderChoiceAt (ready square (oks 60)).renderDrawn).clips = false ∧
      (∀ rc ∈ [(1, 2), (4, 2), (2, 1), (2, 4)], (ready square (oks 60)).answersOk (6 * (circlePlan rc.1 rc.2 2
        ((ready square (oks 60)).renderChoiceAt (ready square (oks 60)).renderDrawn)).length)) ∧
      (∀ rc ∈ [(5, 2), (2, 5)],
        let points := (textCells square ((ready square (oks 60)).renderChoiceAt (ready square (oks 60)).renderDrawn)
          ['L'] rc.1 rc.2 .start).flatten
        (∃ x ∈ points, x.1 < 0 ∨ (6 : Nat) ≤ x.1 ∨ x.2 < 0 ∨ (6 : Nat) ≤ x.2) ∧
          (ready square (oks 60)).answersOk (6 * points.length)) := by
  refine ⟨rfl, rfl, rfl, by decide, by decide, by decide, rfl, fun rc hrc => answersOk_oks 60 _ rfl rfl ?_,
    fun rc hrc => ⟨?_, answersOk_oks 60 _ rfl rfl ?_⟩⟩ <;> revert rc <;> decide +kernel

/-- O39: stuck, completed, failed. -/
theorem witness_OneCompletionValueByContext :
    (∃ t, exec (.sendPixels [1]) (cold small [.stall]) = .next t ∧ t.spi = .stalled) ∧
      (∃ t, exec (.sendPixels [1]) (cold small [.ok]) = .next t ∧ t.completions = [.ok]) ∧
      (∃ t, exec (.init 0 0 0 0) (cold small [.fail 0]) = .next t ∧ t.completions = [.displayInitError]) :=
  ⟨⟨_, rfl, rfl⟩, ⟨_, rfl, rfl⟩, _, rfl, rfl⟩

/-- O40. -/
theorem witness_AbortAtFirstFailure :
    ∃ t, exec (.sendPixels [1]) (cold small [.fail 0]) = .next t ∧
      t.tr = (cold small [.fail 0]).tr ++ [.pin .csN false, .pin .dc true] ++ .xferFail :: [.pin .csN true] := ⟨_, rfl, rfl⟩

/-- O41: a host operation and a pseudo-operation. -/
theorem witness_IoErrorLeavesTheBlockReady :
    (opLayer (.setOrientation 1 0 0 0) = .host ∧ (ready small [.fail 0]).ctrl = .ready ∧
      ∃ t, exec (.setOrientation 1 0 0 0) (ready small [.fail 0]) = .next t ∧
        t.completions = (ready small [.fail 0]).completions ++ [.displayIoError]) ∧
    (opLayer (.plot 0 0 7) = .pseudo ∧
      ∃ t, exec (.plot 0 0 7) (ready small [.fail 0]) = .next t ∧
        t.completions = (ready small [.fail 0]).completions ++ [.displayIoError]) :=
  ⟨⟨rfl, rfl, _, rfl, rfl⟩, rfl, _, rfl, rfl⟩

/-- O42: another level of DC, other latches, another trace, other values handed back before; and another ORIENT under a
drawing request that both states let run. -/
theorem witness_OutcomeDependsOnNoEarlierOperation :
    let s := ready small (oks 5)
    let s' := { s with dc := false, latches := { opc := 4, opa := 1, opb := 2, opc2 := 3, opd := 4 }
                       tr := s.tr ++ D [1], completions := [.displayIoError] }
    (s'.ctrl = s.ctrl ∧ s'.orient = s.orient ∧ s'.hostOrient = s.hostOrient ∧ s'.cfg = s.cfg ∧ s'.spi = s.spi ∧
      (∀ k, s'.answerAt (s'.spiDrawn + k) = s.answerAt (s.spiDrawn + k)) ∧
      s'.renderChoiceAt s'.renderDrawn = s.renderChoiceAt s.renderDrawn ∧
      ∃ t, exec (.setAddressWindow 0 2 0 1) s = .next t) ∧
    ([ready square (oks 18), { ready square (oks 18) with orient := some 3 }].map fun s =>
      (after (exec (.drawCircle 1 1 1 7 0 9) s) fun t => (t.spi, t.completions))) =
        [some (.idle, [.ok]), some (.idle, [.ok])] ∧ isDraw (.drawCircle 1 1 1 7 0 9) = true :=
  ⟨⟨rfl, rfl, rfl, rfl, rfl, fun _ => rfl, rfl, _, rfl⟩, by decide +kernel, rfl⟩

/-- O43: an operation of each of the two layers. -/
theorem witness_TransportFrame :
    (opLayer (.raset 0 1) = .wire ∧ ∃ t, exec (.raset 0 1) (cold small (oks 2)) = .next t) ∧
      (opLayer (.sendCommand 0x2C []) = .transport ∧ ∃ t, exec (.sendCommand 0x2C []) (cold small (oks 2)) = .next t) :=
  ⟨⟨rfl, _, rfl⟩, rfl, _, rfl⟩

/-- O44: each of the three operations. -/
theorem witness_WindowAndStreamFrame :
    (∃ t, exec (.setAddressWindow 0 2 0 1) (ready small (oks 5)) = .next t) ∧
      (∃ t, exec (.writePixelStream 1 2 3 4 [5]) (ready small (oks 1)) = .next t) ∧
      (∃ t, exec (.clear 5 0 0 0) (ready small (oks 7)) = .next t) := ⟨⟨_, rfl⟩, ⟨_, rfl⟩, _, rfl⟩

/-- O45: each clause. -/
theorem witness_SequencerAndRendererFrame :
    (∃ t, exec (.setOrientation 3 0 0 0) (ready small (oks 2)) = .next t) ∧
      (∃ t, exec (.init 3 0 0 0) (cold small (oks 6)) = .next t) ∧
      (opLayer (.plot 2 1 7) = .pseudo ∧ ∃ t, exec (.plot 2 1 7) (ready small (oks 6)) = .next t) :=
  ⟨⟨_, rfl⟩, ⟨_, rfl⟩, rfl, _, rfl⟩

/-- O46: each of the five kinds of operation, the window failing in its second command. -/
theorem witness_CommandsStoreNoPixel :
    small.opc.distinct = true ∧ (∃ t, exec .ramwr (cold small (oks 1)) = .next t) ∧
      (∃ t, exec (.sendCommand 0x2C []) (cold small (oks 1)) = .next t) ∧
      (∃ t, exec (.init 3 0 0 0) (cold small (oks 6)) = .next t) ∧
      (∃ t, exec (.setOrientation 3 0 0 0) (ready small (oks 2)) = .next t) ∧
      (∃ t, exec (.setAddressWindow 0 2 0 1) (ready small [.ok, .ok, .ok, .fail 1]) = .next t) :=
  ⟨by decide, ⟨_, rfl⟩, ⟨_, rfl⟩, ⟨_, rfl⟩, ⟨_, rfl⟩, _, rfl⟩

/-- A machine whose window is the whole 3 by 2 panel, nothing stored yet. -/
def opened : State :=
  { ready small (oks 1) with tr := List.flatten [initTrace, C 0x2B [0, 0, 0, 2], C 0x2A [0, 0, 0, 1], C 0x2C []] }

/-- O47: the address after the last one stored to, two pixels and three bytes from the window's origin. -/
theorem witness_StreamStoresAtTheCounter :
    (∃ t, exec (.writePixelStream 0 0 0 0 [5, 6]) opened = .next t) ∧ (∃ t, exec (.sendPixels [0, 5, 0]) opened = .next t) ∧
      (0, 1) ∈ opened.rx.nextAddrs ([5, 6] : List Pixel).length ∧ (1, 0) ∉ opened.rx.nextAddrs ([5, 6] : List Pixel).length ∧
      (1, 0) ∉ opened.rx.nextAddrs ((([0, 5, 0] : List Byte).length + 1) / 2) :=
  ⟨⟨_, rfl⟩, ⟨_, rfl⟩, by decide, by decide, by decide⟩

/-- O48: each operation, with an address next to what it stores. -/
theorem witness_DrawingStoresOnlyItsPixels :
    small.wf = true ∧ square.opc.distinct = true ∧ (ready small (oks 7)).dims? = some (3, 2) ∧
      (∃ t, exec (.clear 5 0 0 0) (ready small (oks 7)) = .next t) ∧ (3 ≤ 3 ∨ 2 ≤ 0) ∧
      (∃ t, exec (.plot 2 1 7) (ready small (oks 6)) = .next t) ∧ (2, 0) ≠ ((2 : Half).toNat, (1 : Half).toNat) ∧
      (after (exec (.drawCircle 1 1 1 7 0 9) (ready square (oks 18))) fun t => t.spi) = some .idle ∧
      ((1 : Nat) : Int) ^ 2 < (((0 : Nat) : Int) - (1 : Nat)) ^ 2 + (((0 : Nat) : Int) - (1 : Nat)) ^ 2 ∧
      (after (exec (.drawText ['L'] 0 0 .start 7) (ready square (oks 18))) fun t => t.spi) = some .idle ∧
      ((0 : Int), (1 : Int)) ∉ (textCells square ((ready square (oks 18)).renderChoiceAt (ready square (oks 18)).renderDrawn)
        ['L'] 0 0 .start).flatten := by
  refine ⟨by decide, by decide, rfl, ⟨_, rfl⟩, by decide, ⟨_, rfl⟩, by decide, by decide +kernel, by decide,
    by decide +kernel, by decide⟩

/-- O49. -/
theorem witness_InputsAndHistoryAreKept : ∃ t, exec (.clear 5 0 0 0) (ready small (oks 7)) = .next t := ⟨_, rfl⟩

/-- O50: a reachable state that meets the invariant and takes a step; so does the reset state. -/
theorem witness_StepKeepsInvariant :
    let s := { ready small (oks 2) with port := [encode (.setOrientation 3 0 0 0)] }
    s.Inv ∧ ∃ t, step s = .next t := by
  refine ⟨?_, _, rfl⟩
  constructor
  · exact fun _ => rfl
  · exact fun h => by cases h
  · rfl
  · decide
  · decide
  · decide
  · exact fun h => by cases h
  · decide
  · intro o ho
    cases ho
    decide +kernel
  · decide
  · rfl

/-- O51: the same state keeps the wire's discipline. -/
theorem witness_StepKeepsWireDiscipline :
    let s := { ready small (oks 2) with port := [encode (.setOrientation 3 0 0 0)] }
    s.cfg.opc.distinct = true ∧ (s.spi = .idle → s.csN = true) ∧ s.WireOk ∧ ∃ t, step s = .next t := by
  refine ⟨by decide, fun _ => rfl, ⟨?_, ?_, ?_, ?_⟩, _, rfl⟩
  · exact { inFrame := false, level := some true, bytes := 1, cmd := some 0x29, failed := false }
  · decide
  · decide
  · intro v hv
    cases hv
    rfl

/-- O52: the last column, beside the first of the next row. -/
theorem witness_PixelMemoryIsCanonical :
    65535 < 65536 ∧ 0 < 65536 ∧ PixelMemory.wf [(pixelKey 0 65535, 7), (pixelKey 1 0, 8)] = true ∧
      ((1, 0) : Nat × Nat) ≠ (0, 65535) := by decide

/-- O53: INIT to Ready, INIT that fails, INIT that is stuck, and an operation in Ready. -/
theorem witness_StateMachineEdges :
    (∃ t, exec (.init 0 0 0 0) (cold small (oks 6)) = .next t ∧ t.ctrl = .ready) ∧
      (∃ t, exec (.init 0 0 0 0) (cold small [.fail 0]) = .next t ∧ t.ctrl = .initializing) ∧
      (∃ t, exec (.init 0 0 0 0) (cold small [.stall]) = .next t ∧ t.ctrl = .initializing) ∧
      (∃ t, exec (.clear 5 0 0 0) (ready small [.fail 0]) = .next t ∧ t.ctrl = .ready) :=
  ⟨⟨_, rfl, rfl⟩, ⟨_, rfl, rfl⟩, ⟨_, rfl, rfl⟩, _, rfl, rfl⟩

/-- O54: six pixels in three streams, one of them empty. -/
theorem witness_WindowFilledExactly :
    let s := ready small (oks 7)
    let chunks : List (List Pixel) := [[1, 2], [], [3, 4, 5, 6]]
    s.spi = .idle ∧ s.ctrl = .ready ∧ s.cfg.opc.distinct = true ∧ s.dims? = some (3, 2) ∧
      boundsOk 3 2 0 2 0 1 = true ∧ s.rxReady ∧
      chunks.flatten.length = windowArea (0 : Half).toNat (2 : Half).toNat (0 : Half).toNat (1 : Half).toNat ∧
      s.answersOk (5 + (chunks.filter fun px => !px.isEmpty).length) :=
  ⟨rfl, rfl, by decide, rfl, by decide, (ready_rxReady _).1, by decide, answersOk_oks 7 _ rfl rfl (by decide)⟩

/-- O55. -/
theorem witness_ClearStoresEveryPixelOnce :
    let s := ready small (oks 11)
    s.spi = .idle ∧ s.ctrl = .ready ∧ s.cfg.wf = true ∧ s.dims? = some (3, 2) ∧ s.rxReady ∧ s.answersOk (5 + 3 * 2) ∧
      s.traceDefined = true :=
  ⟨rfl, rfl, by decide, rfl, (ready_rxReady _).1, answersOk_oks 11 _ rfl rfl (by decide), by decide +kernel⟩

/-- O56: one pixel too few, and none. -/
theorem witness_ShortWindowIsResynchronised :
    let s := ready small (oks 11)
    s.spi = .idle ∧ s.ctrl = .ready ∧ s.cfg.opc.distinct = true ∧ s.dims? = some (3, 2) ∧
      boundsOk 3 2 0 2 0 1 = true ∧ boundsOk 3 2 2 2 1 1 = true ∧ s.rxReady ∧
      ([1, 2, 3, 4, 5] : List Pixel).length <
        windowArea (0 : Half).toNat (2 : Half).toNat (0 : Half).toNat (1 : Half).toNat ∧
      ([] : List Pixel).length < windowArea (0 : Half).toNat (2 : Half).toNat (0 : Half).toNat (1 : Half).toNat ∧
      s.answersOk 11 :=
  ⟨rfl, rfl, by decide, rfl, by decide, by decide, (ready_rxReady _).1, by decide, by decide,
    answersOk_oks 11 _ rfl rfl (by decide)⟩

/-- O57: with a window open, the whole panel. -/
theorem witness_CommandsActOnTheController :
    let s := { opened with spiScript := oks 2 }
    s.spi = .idle ∧ s.cfg.opc.distinct = true ∧ s.rx.boot = .open ∧ s.answersOk 2 ∧
      small.orientSet[(3 : Half).toNat]? = some { madctl := 0xE8, exchanges := true } ∧ s.rx.row = .bounds 0 2 ∧
      s.rx.col = .bounds 0 1 :=
  ⟨rfl, by decide, by decide, answersOk_oks 2 2 rfl rfl (by decide), by decide, by decide, by decide⟩

/-- O58. -/
theorem witness_InitReadiesTheController :
    (cold small (oks 6)).spi = .idle ∧ (cold small (oks 6)).ctrl = .unpowered ∧ small.opc.distinct = true ∧
      small.orientSet[(3 : Half).toNat]? = some { madctl := 0xE8, exchanges := true } ∧ (cold small (oks 6)).answersOk 6 :=
  ⟨rfl, rfl, by decide, by decide, answersOk_oks 6 6 rfl rfl (by decide)⟩

/-- A machine of the wide panel after INIT, a window of four pixels and more events. -/
def drawn (evs : List Event) : State :=
  { ready wide (oks 2) with
    tr := List.flatten [initTrace, window, D [0x11, 0x11, 0x22, 0x22, 0x33, 0x33, 0x44, 0x44], evs] }

/-- The small panel cleared, its orientation byte sent again, and cleared again. -/
def clearedTwice : State :=
  let clear := List.flatten [C 0x2B [0, 0, 0, 2], C 0x2A [0, 0, 0, 1], C 0x2C [], D (List.replicate 12 7)]
  { ready small (oks 2) with tr := List.flatten [initTrace, clear, C 0x36 [0x48], clear] }

/-- O59: content after INIT and a window filled, and on a glass cleared after a change of orientation; none once a
transfer has stalled or failed or a window was left short; the first row and column off the panel; SET_ORIENTATION
that completes, and a lone MADCTL, after stores. -/
theorem witness_ContentIsConcludedOnlyWhenDefined :
    ((drawn []).dims? = some (320, 240) ∧ (drawn []).spi = .idle ∧ Event.xferFail ∉ (drawn []).tr ∧
      (∃ row ∈ wide.orientSet, resetFrame wide ++ commandFrames wide (wide.initTable row.madctl) <+: (drawn []).tr) ∧
      (drawn []).rx.close.undef = false ∧ (drawn []).rx.beforeOrient = 0) ∧
    (clearedTwice.rx.beforeOrient = 6 ∧ clearedTwice.cleared = true ∧ clearedTwice.traceDefined = true) ∧
    ({ drawn [] with spi := .stalled }.spi = .stalled ∧ Event.xferFail ∈ (drawn cutStream).tr ∧
      (drawn (D [0x55, 0x55])).rx.close.undef = true) ∧ 320 ≤ 320 ∧ 240 ≤ 240 ∧
    (wide.opc.distinct = true ∧ (drawn []).rx.boot = .open ∧ (drawn []).rx.px ≠ [] ∧
      (after (exec (.setOrientation 3 0 0 0) (drawn [])) fun t => t.spi) = some .idle ∧
      (after (exec (.madctl 3) (drawn [])) fun t => t.spi) = some .idle) := by decide +kernel

/-- O60: the last orientation of the set, which exchanges rows and columns. -/
theorem witness_InitThenClearShowsTheColour :
    (cold small (oks 17)).spi = .idle ∧ (cold small (oks 17)).ctrl = .unpowered ∧ (cold small (oks 17)).tr = [] ∧
      small.wf = true ∧ small.dims? 3 = some (2, 3) ∧ (cold small (oks 17)).answersOk (6 + (5 + 2 * 3)) :=
  ⟨rfl, rfl, rfl, by decide, rfl, answersOk_oks 17 _ rfl rfl (by decide)⟩

end Sys2Proof.Machine.Tests
end

section
/-! PROOF. The obligations of 00_scope.md: what a step runs (O1), the bits of a pixel on the wire (O11), and the one
completion value of an operation (O39). -/

namespace Sys2Proof.Machine

/-! ### The layers requests decode to (R3, R110) -/

theorem withoutPayload_ok {payload : List Pixel} {i j : Instr} (h : withoutPayload payload i = .ok j) : j = i := by
  cases payload with
  | nil => exact (Except.ok.inj h).symm
  | cons p ps => simp [withoutPayload] at h

theorem decodeDescriptor_layer {w : BitVec 68} {payload : List Pixel} {i : Instr}
    (h : decodeDescriptor w payload = .ok i) : opLayer i = .host := by
  unfold decodeDescriptor at h
  split at h
  · rw [withoutPayload_ok h]; rfl
  split at h
  · rw [withoutPayload_ok h]; rfl
  split at h
  · rw [withoutPayload_ok h]; rfl
  split at h
  · rw [← Except.ok.inj h]; rfl
  split at h
  · rw [withoutPayload_ok h]; rfl
  · cases h

theorem withoutOperands_ok {i j : Instr} {ops : List Half} (h : withoutOperands i ops = .ok j) : j = i := by
  cases ops with
  | nil => exact (Except.ok.inj h).symm
  | cons v vs => simp [withoutOperands] at h

theorem withOneOperand_ok {f : Half → Instr} {ops : List Half} {j : Instr} (h : withOneOperand f ops = .ok j) :
    ∃ v, j = f v := by
  unfold withOneOperand at h
  split at h
  · exact ⟨_, (Except.ok.inj h).symm⟩
  · cases h

theorem withTwoOperands_ok {f : Half → Half → Instr} {ops : List Half} {j : Instr}
    (h : withTwoOperands f ops = .ok j) : ∃ v w, j = f v w := by
  unfold withTwoOperands at h
  split at h
  · exact ⟨_, _, (Except.ok.inj h).symm⟩
  · cases h

theorem decodeOperands_layer {c : Cmd} {ops : List Half} {i : Instr} (h : decodeOperands c ops = .ok i) :
    opLayer i = .wire := by
  cases c with
  | slpout => rw [withoutOperands_ok h]; rfl
  | pixset => rw [withoutOperands_ok h]; rfl
  | madctl => obtain ⟨v, rfl⟩ := withOneOperand_ok h; rfl
  | dispon => rw [withoutOperands_ok h]; rfl
  | raset => obtain ⟨v, w, rfl⟩ := withTwoOperands_ok h; rfl
  | caset => obtain ⟨v, w, rfl⟩ := withTwoOperands_ok h; rfl
  | ramwr => rw [withoutOperands_ok h]; rfl

theorem decodeCommand_layer {word : Byte} {ops : List Half} {i : Instr} (h : decodeCommand word ops = .ok i) :
    opLayer i = .wire := by
  unfold decodeCommand at h
  split at h
  · exact decodeOperands_layer h
  · cases h

/-- What a host can make, and nothing else, decodes to its operations and the pseudo-operations (R275 (a)). -/
theorem fromHost_iff_layer {r : Request} {i : Instr} (h : decode r = .ok i) :
    fromHost r = true ↔ opLayer i = .host ∨ opLayer i = .pseudo := by
  cases r with
  | descriptor w payload => simp [fromHost, decodeDescriptor_layer h]
  | command word ops => simp [fromHost, decodeCommand_layer h]
  | call j =>
    obtain rfl : j = i := Except.ok.inj h
    simp [fromHost]

/-! ### Taking a request (R15, R150) -/

theorem runRequest_decoded {r : Request} {i : Instr} (h : decode r = .ok i) (s : State) :
    runRequest true r s = exec i s := by simp [runRequest, h]

@[simp] theorem runRequest_unreachable (r : Request) (s : State) : runRequest false r s = .refused .notReachable := rfl

theorem step_takes_bench {s : State} {r : Request} {rest : List Request} (hs : s.spi = .idle) (hb : s.bench = r :: rest) :
    step s = runRequest (!fromHost r) r (s.withBench rest) := by
  rw [step, whenRunning_idle hs, hb]

theorem step_takes_port {s : State} {r : Request} {rest : List Request} (hs : s.spi = .idle) (hb : s.bench = [])
    (hp : s.port = r :: rest) : step s = runRequest (fromHost r) r (s.withPort rest) := by
  rw [step, whenRunning_idle hs, hb, hp]

/-- Settles O1: which queue the step takes from, then what the request decodes to. -/
theorem stepRunsDecodedRequest : Obligations.StepRunsDecodedRequest := by
  refine ⟨fun s r rest hs hb hp => ?_, fun s r rest hs hb => ?_, fun r i hd => fromHost_iff_layer hd⟩
  · rw [step_takes_port hs hb hp]
    exact ⟨fun i hr hd => by rw [hr, runRequest_decoded hd]; rfl, fun hr => by rw [hr, runRequest_unreachable]⟩
  · rw [step_takes_bench hs hb]
    exact ⟨fun i hr hd => by rw [hr, Bool.not_false, runRequest_decoded hd]; rfl,
      fun hr => by rw [hr, Bool.not_true, runRequest_unreachable]⟩

/-! ### The bits of a pixel (R63, R104) -/

/-- The bits of a pixel, most significant first. -/
def pixelBits (p : Pixel) : List Bool := (List.range 16).map fun k => p.getLsbD (15 - k)

/-- The two bytes of a pixel, high byte first, shift out its bits in order. -/
theorem wireBits_hi8_lo8 (p : Pixel) : wireBits (hi8 p) ++ wireBits (lo8 p) = pixelBits p := by
  simp [wireBits, hi8, lo8, pixelBits, List.range_succ]

theorem clockEdges_pixelBytes (m : SpiMode) (d : Bool) (px : List Pixel) (rest : List Event) :
    clockEdges m ((pixelBytes px).map (.byte d) ++ rest) =
      (px.flatMap pixelBits).flatMap (bitEdges m d) ++ clockEdges m rest := by
  induction px with
  | nil => rfl
  | cons p ps ih =>
    simp only [pixelBytes, List.map_cons, List.cons_append, clockEdges_byte, ih, List.flatMap_cons, List.flatMap_append,
      ← wireBits_hi8_lo8, List.append_assoc]

/-- The clock of a data frame of pixels, in either mode. -/
theorem clockEdges_dataFrame (m : SpiMode) (px : List Pixel) :
    clockEdges m (dataFrame (pixelBytes px)) = (px.flatMap pixelBits).flatMap (bitEdges m true) := by
  simp [dataFrame, clockEdges_pixelBytes]

theorem clockedBits_dataFrame (m : SpiMode) (px : List Pixel) :
    clockedBits m (dataFrame (pixelBytes px)) = (px.flatMap pixelBits).map fun bit => (true, bit) := by
  rw [clockedBits, clockEdges_dataFrame, bitEdges_captured]

/-- Settles O11: the frame's edges are those of the pixels' bits, and every bit is captured once. -/
theorem pixelBitsOnTheWire : Obligations.PixelBitsOnTheWire := by
  refine ⟨rfl, fun px => ⟨?_, fun m => ?_⟩⟩
  · simp only [clockEdges_dataFrame, pixelBits, List.flatMap_assoc, List.flatMap_map]
    rfl
  · simp only [clockedBits_dataFrame, pixelBits, List.map_flatMap, List.map_map]
    rfl

/-! ### One operation's outcome (R14, R261, R263) -/

/-- The reset pulse and the waits contain no failed transfer (R103). -/
theorem xferFail_not_mem_resetFrame (p : Params) : Event.xferFail ∉ resetFrame p := by simp [resetFrame]

/-- What the status says of the outcome of an operation whose body ran from a free SPI master. -/
theorem Ran.finish_outcome {s : State} {r : State × Status} {evs : List Event} (h : Ran s r evs) (hs : s.spi = .idle)
    (hc : r.1.completions = s.completions) (err : Completion) :
    ((finish err r).spi = .stalled ∧ (finish err r).csN = false ∧ (finish err r).completions = s.completions ∧
        Event.xferFail ∉ evs) ∨
      ((finish err r).spi = .idle ∧ (finish err r).completions = s.completions ++ [.ok] ∧ Event.xferFail ∉ evs) ∨
      ((finish err r).spi = .idle ∧ (finish err r).completions = s.completions ++ [err] ∧ Event.xferFail ∈ evs) := by
  obtain ⟨t, st⟩ := r
  cases st with
  | stuck =>
    obtain ⟨hspi, hcs⟩ := h.stuck rfl
    exact .inl ⟨hspi, hcs, hc, h.clean (by simp)⟩
  | ok =>
    have hspi : t.spi = .idle := (h.free (by simp)).trans hs
    exact .inr (.inl ⟨hspi, by simpa using hc, h.clean (by simp)⟩)
  | failed =>
    have hspi : t.spi = .idle := (h.free (by simp)).trans hs
    obtain ⟨before, rfl, -⟩ := h.failed rfl
    exact .inr (.inr ⟨hspi, by simpa using hc, by simp⟩)

@[simp] theorem finish_tr (err : Completion) (r : State × Status) : (finish err r).tr = r.1.tr := by
  obtain ⟨t, st⟩ := r
  cases st <;> rfl

/-- Every operation that takes a next state ran one body, INIT after its reset frame and every other at once, and handed
back no value before its end. -/
theorem exec_ran {i : Instr} {s t : State} (h : exec i s = .next t) :
    s.spi = .idle ∧ ∃ pre r evs, t = finish (opError i) r ∧ Event.xferFail ∉ pre ∧
      r.1.completions = s.completions ∧ Ran { s with tr := s.tr ++ pre } r evs := by
  obtain ⟨hs, r, rfl, ⟨o, b, c2, d, rfl, hi⟩ | ⟨-, ho⟩⟩ := exec_cases h
  · obtain ⟨evs, hr⟩ := hi.ran
    exact ⟨hs, resetFrame s.cfg, r, evs, rfl, xferFail_not_mem_resetFrame _, by rw [hi.ends.kept], hr⟩
  · obtain ⟨evs, hr⟩ := ho.ran
    exact ⟨hs, [], r, evs, rfl, by simp, by rw [ho.kept], hr.of_eq (by simp) rfl rfl rfl rfl⟩

/-- Settles O39: the status of the body it ran decides. -/
theorem oneCompletionValueByContext : Obligations.OneCompletionValueByContext := by
  intro s t i h
  obtain ⟨hs, pre, r, evs, rfl, hpre, hc, hr⟩ := exec_ran h
  refine ⟨pre ++ evs, by simp [hr.tr], ?_⟩
  simpa only [List.mem_append, hpre, false_or] using hr.finish_outcome hs hc (opError i)

end Sys2Proof.Machine
end

section
/-! PROOF. The obligations of 10_state.md: the invariant of the block between operations (O50, O5), what an operation's
outcome depends on (O42), what it leaves unchanged (O44, O49), the edges of STATE (O53), and the values after power-on
(O4). -/

namespace Sys2Proof.Machine

/-! ### How an operation ends (R14, R265) -/

/-- The end of an operation hands back at most one value and touches nothing else. -/
theorem finish_eq (err : Completion) (r : State × Status) :
    finish err r = { r.1 with completions := r.1.completions ++ (r.2.completion? err).toList } := by
  obtain ⟨t, st⟩ := r
  cases st with
  | ok => rfl
  | failed => rfl
  | stuck => simp [Status.completion?]

/-! ### The invariant between operations (R22, R24, R38, R40, R146) -/

/-- Taking a request from the host port keeps the invariant. -/
theorem State.Inv.withPort {s : State} (h : s.Inv) (q : List Request) : (s.withPort q).Inv := { h with }

/-- Taking a request from the Bus Transport's boundary keeps the invariant. -/
theorem State.Inv.withBench {s : State} (h : s.Inv) (q : List Request) : (s.withBench q).Inv := { h with }

/-- Handing back the completion value keeps the invariant. -/
theorem State.Inv.finish {r : State × Status} (h : r.1.Inv) (err : Completion) : (Machine.finish err r).Inv := by
  rw [finish_eq]
  exact { h with }

theorem Ran.idle_released {s : State} {r : State × Status} {evs : List Event} (h : Ran s r evs) (hcs : s.csN = true)
    (hr : r.1.spi = .idle) : r.1.csN = true := by
  have hne : r.2 ≠ .stuck := fun hst => by simp [(h.stuck hst).1] at hr
  by_cases he : evs = []
  · rw [(h.quiet he).1, hcs]
  · exact h.released he hne

theorem Ran.stalled_selected {s : State} {r : State × Status} {evs : List Event} (h : Ran s r evs) (hs : s.spi = .idle)
    (hr : r.1.spi = .stalled) : r.1.csN = false := by
  have hst : r.2 = .stuck := by
    by_contra hne
    simp [h.free hne, hs] at hr
  exact (h.stuck hst).2

/-- No body drives the reset line (R40). -/
theorem Ran.resetPulses {s : State} {r : State × Status} {evs : List Event} (h : Ran s r evs) :
    Machine.resetPulses r.1.tr = Machine.resetPulses s.tr := by
  rw [h.tr, Machine.resetPulses, Machine.resetPulses, List.count_append, List.count_eq_zero.mpr (h.noReset false),
    Nat.add_zero]

/-- INIT's reset frame drives the reset line low once (R103, R192). -/
theorem resetPulses_resetFrame (tr : List Event) (p : Params) :
    resetPulses (tr ++ resetFrame p) = resetPulses tr + 1 := by
  simp [resetPulses, resetFrame]

/-- An orientation with a memory-access-control byte is a member of the set (R107). -/
theorem hasOrient_of_madctlOf? {p : Params} {o : Half} (h : (p.madctlOf? o).isSome) : p.hasOrient o = true := by
  simpa [Params.madctlOf?, Params.hasOrient] using h

/-- ORIENT and the host's knowledge of it after an operation other than INIT, which moves neither STATE nor INIT_STEP:
SET_ORIENTATION runs in Ready only and writes a member of the set to both. -/
theorem OpRan.orient_inv {i : Instr} {s : State} {r : State × Status} (h : OpRan i s r) (hi : s.Inv) :
    (r.1.orient.isSome ↔ 3 ≤ s.initStep.toNat) ∧ (∀ o, r.1.orient = some o → s.cfg.hasOrient o = true) ∧
      r.1.hostOrient = if s.ctrl = .ready then r.1.orient else none := by
  obtain ⟨ho, hk⟩ | ⟨o, b, c2, d, -, -, ho, hk, hset, hc⟩ := h.orient
  · rw [ho, hk]
    exact ⟨hi.orient_iff, hi.orient_inSet, hi.host_knows⟩
  · rw [ho, hk, if_pos hc, hi.ready_iff.mp hc]
    exact ⟨by simp, fun o' h' => Option.some.inj h' ▸ hasOrient_of_madctlOf? hset, rfl⟩

/-- The body of an operation other than INIT keeps the invariant. -/
theorem OpRan.inv {i : Instr} {s : State} {r : State × Status} (h : OpRan i s r) (hs : s.spi = .idle) (hi : s.Inv) :
    r.1.Inv := by
  obtain ⟨evs, hr⟩ := h.ran
  have hctrl : r.1.ctrl = s.ctrl := by rw [h.kept]
  have hstep : r.1.initStep = s.initStep := by rw [h.kept]
  have hcfg : r.1.cfg = s.cfg := by rw [h.kept]
  have hrst : r.1.rstN = s.rstN := by rw [h.kept]
  obtain ⟨ho, hset, hknows⟩ := h.orient_inv hi
  exact {
    idle_released := hr.idle_released (hi.idle_released hs)
    stalled_selected := hr.stalled_selected hs
    reset_released := hrst.trans hi.reset_released
    not_resetting := hctrl ▸ hi.not_resetting
    step_range := hstep ▸ hi.step_range
    ready_iff := by rw [hctrl, hstep]; exact hi.ready_iff
    unpowered_step := by rw [hctrl, hstep]; exact hi.unpowered_step
    orient_iff := by rw [hstep]; exact ho
    orient_inSet := by rw [hcfg]; exact hset
    one_pulse := by rw [hr.resetPulses, hctrl]; exact hi.one_pulse
    host_knows := by rw [State.hostKnows, hctrl]; exact hknows }

/-- Before INIT no orientation is set, and the host knows of none. -/
theorem State.Inv.unpowered_orient {s : State} (hi : s.Inv) (hc : s.ctrl = .unpowered) :
    s.orient = none ∧ s.hostOrient = none := by
  constructor
  · have := hi.orient_iff
    rw [hi.unpowered_step hc] at this
    simpa using this
  · rw [hi.host_knows, if_neg (by simp [hc])]

/-- The registers INIT's commands leave (R192, R193): all four counted in Ready, or fewer in Initializing, with ORIENT set
from the third on. -/
theorem InitEnd.registers {o : Half} {s : State} {r : State × Status} (h : InitEnd o none (some o) s r)
    (hn : s.hostOrient = none) :
    (r.1.ctrl = .ready ∧ r.1.initStep = 4 ∧ r.1.orient = some o ∧ r.1.hostOrient = some o) ∨
      (r.1.ctrl = .initializing ∧ r.1.hostOrient = none ∧ r.1.initStep.toNat < 4 ∧
        r.1.orient = if 3 ≤ r.1.initStep.toNat then some o else none) := by
  by_cases hok : r.2 = .ok
  · obtain ⟨hc, hst, ho⟩ := h.done hok
    exact .inl ⟨hc, hst, ho, by rw [h.known, if_pos hok]⟩
  · obtain ⟨hc, j, hj, hst, ho⟩ := h.cut hok
    have hjn : r.1.initStep.toNat = j := by rw [hst, BitVec.toNat_ofNat]; omega
    rw [hjn]
    exact .inr ⟨hc, by rw [h.known, if_neg hok, hn], hj, ho⟩

/-- The body of INIT keeps the invariant: it pulses the reset line once, and its registers keep step. -/
theorem InitRan.inv {o b c2 d : Half} {s : State} {r : State × Status} (h : InitRan o b c2 d s r) (hs : s.spi = .idle)
    (hi : s.Inv) : r.1.Inv := by
  obtain ⟨evs, hr⟩ := h.ran
  obtain ⟨horient, hhost⟩ := hi.unpowered_orient h.admitted
  have hends := h.ends
  rw [horient] at hends
  have hcs := hr.idle_released (hi.idle_released hs)
  have hstall := hr.stalled_selected hs
  have hrst : r.1.rstN = true := by rw [hends.kept]
  have hset : r.1.cfg.hasOrient o = true := by rw [hends.kept]; exact hasOrient_of_madctlOf? h.inSet
  have hpulse : resetPulses r.1.tr = 1 := by
    rw [hr.resetPulses, resetPulses_resetFrame, hi.one_pulse, if_pos h.admitted]
  obtain ⟨hc, hst, ho, hk⟩ | ⟨hc, hk, hlt, ho⟩ := hends.registers hhost
  · exact ⟨hcs, hstall, hrst, by simp [hc], by simp [hst], by simp [hc, hst], by simp [hc], by simp [ho, hst],
      by simpa [ho] using hset, by simp [hpulse, hc], by simp [State.hostKnows, hk, hc, ho]⟩
  · have hne : r.1.initStep ≠ 4 := fun h4 => by simp [h4] at hlt
    refine ⟨hcs, hstall, hrst, by simp [hc], hlt.le, iff_of_false (by simp [hc]) hne, by simp [hc], by simp [ho], ?_,
      by simp [hpulse, hc], by simp [State.hostKnows, hk, hc]⟩
    intro o' ho'
    rw [ho, Option.ite_none_right_eq_some, Option.some.injEq] at ho'
    exact ho'.2 ▸ hset

/-- Every operation keeps the invariant. -/
theorem exec_keeps_inv {i : Instr} {s t : State} (hi : s.Inv) (h : exec i s = .next t) : t.Inv := by
  obtain ⟨hs, r, rfl, ⟨o, b, c2, d, -, hr⟩ | ⟨-, hr⟩⟩ := exec_cases h
  · exact (hr.inv hs hi).finish _
  · exact (hr.inv hs hi).finish _

/-- Settles O50: a step holds the state, or takes a request and runs its operation. -/
theorem stepKeepsInvariant : Obligations.StepKeepsInvariant := by
  intro s t hi h
  obtain ⟨-, ⟨-, -, rfl⟩ | ⟨r, rest, i, s0, -, hx, ⟨-, -, -, rfl⟩ | ⟨-, -, rfl⟩⟩⟩ := step_cases h
  · exact hi
  · exact exec_keeps_inv (hi.withPort rest) hx
  · exact exec_keeps_inv (hi.withBench rest) hx

/-! ### What an outcome depends on (R34, R39, R268, R275) -/

/-- A command at the Bus Transport's boundary, from two states that are alike. -/
theorem AgreeOutcome.runCommand {s s' : State} (h : Alike True s s') (c : Cmd) (args : List Byte) :
    AgreeOutcome s s' (Machine.runCommand c args s) (Machine.runCommand c args s') :=
  AgreeOutcome.whenRunning h (AgreeOutcome.settle (by rw [h.cfg]; exact Agree.sendCommand h _ args))

/-- The jobs a drawing request expands to (R240): what it reads of the state is the configuration, the renderer's choice
and what the host knows. -/
def drawingJobs : Instr → State → List (Run × List Pixel)
  | .drawCircle row col radius stroke width fill, s =>
    circleJobs row col radius stroke width fill (s.renderChoiceAt s.renderDrawn) s.panel?
  | .drawText text row col align color, s =>
    textJobs s.cfg (s.renderChoiceAt s.renderDrawn) s.panel? text row col align color
  | _, _ => []

theorem exec_drawing {i : Instr} (hd : isDraw i = true) (s : State) :
    exec i s = whenRunning s fun x => settle .displayIoError (drawJobs (drawingJobs i x) x.drawChoice) := by
  cases i with
  | drawCircle row col radius stroke width fill => rfl
  | drawText text row col align color => rfl
  | _ => simp [isDraw] at hd

theorem drawingJobs_congr {seen : Prop} {s s' : State} (h : Alike seen s s')
    (hc : s'.renderChoiceAt s'.renderDrawn = s.renderChoiceAt s.renderDrawn) (i : Instr) :
    drawingJobs i s' = drawingJobs i s := by
  cases i with
  | drawCircle row col radius stroke width fill => rw [drawingJobs, drawingJobs, hc, h.panel]
  | drawText text row col align color => rw [drawingJobs, drawingJobs, hc, h.panel, h.cfg]
  | _ => rfl

/-- The count of the renderer's choices is no part of what two states agree on. -/
theorem Alike.drawChoice {seen : Prop} {s s' : State} (h : Alike seen s s') : Alike seen s.drawChoice s'.drawChoice :=
  ⟨h.ctrl, h.orient, h.known, h.cfg, h.spi, h.answers⟩

/-- A drawing request, from two states that are alike. -/
theorem AgreeOutcome.drawing {i : Instr} (hd : isDraw i = true) {s s' : State} (h : Alike True s s')
    (hc : s'.renderChoiceAt s'.renderDrawn = s.renderChoiceAt s.renderDrawn) :
    AgreeOutcome s s' (exec i s) (exec i s') := by
  rw [exec_drawing hd, exec_drawing hd]
  refine AgreeOutcome.operation (f := fun x => drawJobs (drawingJobs i x) x.drawChoice) h ?_
  rw [drawingJobs_congr h hc]
  exact AgreeHost.drawJobs (drawingJobs i s) h.drawChoice

/-- Every operation, from two states that are alike, STATE and ORIENT included, and draw the same choice. -/
theorem exec_agree {s s' : State} (h : Alike True s s')
    (hc : s'.renderChoiceAt s'.renderDrawn = s.renderChoiceAt s.renderDrawn) (i : Instr) :
    AgreeOutcome s s' (exec i s) (exec i s') := by
  cases i with
  | slpout => exact AgreeOutcome.runCommand h _ _
  | pixset => simp only [exec, execPixset, h.cfg]; exact AgreeOutcome.runCommand h _ _
  | madctl o =>
    simp only [exec, execMadctl, h.cfg]
    cases s.cfg.madctlOf? o with
    | some m => exact AgreeOutcome.runCommand h _ _
    | none => exact AgreeOutcome.whenRunning h (AgreeOutcome.refused _ _)
  | dispon => exact AgreeOutcome.runCommand h _ _
  | raset r0 r1 => exact AgreeOutcome.runCommand h _ _
  | caset c0 c1 => exact AgreeOutcome.runCommand h _ _
  | ramwr => exact AgreeOutcome.runCommand h _ _
  | init o b c2 d => exact AgreeOutcome.operation h (AgreeHost.hostInit h ..)
  | setOrientation o b c2 d => exact AgreeOutcome.operation h (AgreeHost.hostOrientation h ..)
  | setAddressWindow r0 r1 c0 c1 => exact AgreeOutcome.operation h (AgreeHost.hostWindow h ..)
  | writePixelStream a b c2 d px => exact AgreeOutcome.operation h (AgreeHost.hostStream h ..)
  | clear color b c2 d => exact AgreeOutcome.operation h (AgreeHost.hostClear h ..)
  | sendCommand opcode args =>
    simp only [exec, execSendCommand]
    refine AgreeOutcome.whenRunning h ?_
    rw [h.cfg]
    cases s.cfg.opc.cmd? opcode with
    | none => exact AgreeOutcome.refused _ _
    | some c =>
      by_cases hn : args.length = c.argCount
      · simp only [if_pos hn]
        exact AgreeOutcome.settle (Agree.sendCommand h ..)
      · simp only [if_neg hn]
        exact AgreeOutcome.refused _ _
  | sendPixels bytes => exact AgreeOutcome.operation (f := fun x => .ok (sendPixels bytes x)) h (Agree.sendPixels h bytes)
  | drawCircle row col radius stroke width fill => exact AgreeOutcome.drawing rfl h hc
  | drawText text row col align color => exact AgreeOutcome.drawing rfl h hc
  | plot r c p =>
    exact AgreeOutcome.operation (f := fun x => andThenHost (hostWindow r r c c x) (hostStream 0 0 0 0 [p])) h
      (AgreeHost.andThenHost (AgreeHost.hostWindow h ..) fun _ _ hx => AgreeHost.hostStream hx ..)

/-- A drawing request that two states let run puts the same on the wire, whatever STATE and ORIENT are (R275 (c)). -/
theorem drawing_agree {i : Instr} (hd : isDraw i = true) {s s' t t' : State} (h : Alike False s s')
    (hc : s'.renderChoiceAt s'.renderDrawn = s.renderChoiceAt s.renderDrawn) (ht : exec i s = .next t)
    (ht' : exec i s' = .next t') :
    ∃ events values, t.tr = s.tr ++ events ∧ t'.tr = s'.tr ++ events ∧ t.completions = s.completions ++ values ∧
      t'.completions = s'.completions ++ values := by
  rw [exec_drawing hd] at ht ht'
  obtain ⟨-, ht⟩ := whenRunning_next ht
  obtain ⟨-, ht'⟩ := whenRunning_next ht'
  rw [drawingJobs_congr h hc] at ht'
  obtain ⟨q, hq, rfl⟩ := settle_next ht
  obtain ⟨q', hq', rfl⟩ := settle_next ht'
  obtain ⟨events, htr, htr', hv, hv', hst, -⟩ := AgreeAdmitted.drawJobs (drawingJobs i s) h.drawChoice q q' hq hq'
  refine ⟨events, (q.2.completion? .displayIoError).toList, ?_, ?_, ?_, ?_⟩
  · rw [finish_tr, htr, State.drawChoice_tr]
  · rw [finish_tr, htr', State.drawChoice_tr]
  · rw [finish_eq, hv, State.drawChoice_completions]
  · rw [finish_eq, hst, hv', State.drawChoice_completions]

/-- Settles O42: two runs side by side, with STATE and ORIENT among what they agree on, and without. -/
theorem outcomeDependsOnNoEarlierOperation : Obligations.OutcomeDependsOnNoEarlierOperation := by
  intro s s' t i hknown hcfg hspi hanswers hchoice h
  refine ⟨fun hctrl horient => ?_, fun t' hd h' => ?_⟩
  · exact exec_agree ⟨fun _ => hctrl, fun _ => horient, hknown, hcfg, hspi, hanswers⟩ hchoice i t h
  · exact drawing_agree hd ⟨False.elim, False.elim, hknown, hcfg, hspi, hanswers⟩ hchoice h h'

/-! ### What operations leave unchanged (R31, R34, R36) -/

/-- An operation that neither draws nor sets the orientation changes the transport's fields and the latches alone. -/
theorem OpRan.keptHost {i : Instr} {s : State} {r : State × Status} (h : OpRan i s r) (hd : isDraw i = false)
    (ho : ∀ o b c2 d, i ≠ .setOrientation o b c2 d) : KeptHost s r.1 := by
  obtain ⟨horient, hhost⟩ : r.1.orient = s.orient ∧ r.1.hostOrient = s.hostOrient :=
    h.orient.resolve_right fun ⟨o, b, c2, d, hi, _⟩ => ho o b c2 d hi
  have hdraws : r.1.renderDrawn = s.renderDrawn := by simpa [hd] using h.draws
  have hkept := h.kept
  rwa [horient, hhost, hdraws] at hkept

/-- Settles O44: none of the three is INIT, sets the orientation or draws. -/
theorem windowAndStreamFrame : Obligations.WindowAndStreamFrame := by
  intro s t i hi h
  obtain ⟨hd, hinit, hset⟩ : isDraw i = false ∧ (∀ o b c2 d, i ≠ .init o b c2 d) ∧
      ∀ o b c2 d, i ≠ .setOrientation o b c2 d := by
    obtain ⟨r0, r1, c0, c1, rfl⟩ | ⟨a, b, c2, d, px, rfl⟩ | ⟨color, b, c2, d, rfl⟩ := hi <;> simp [isDraw]
  obtain ⟨-, r, rfl, ⟨o, b, c2, d, rfl, -⟩ | ⟨-, hr⟩⟩ := exec_cases h
  · exact absurd rfl (hinit o b c2 d)
  · have hkept := hr.keptHost hd hset
    unfold KeptHost at hkept
    rw [finish_eq, hkept]

/-- What the body of every operation keeps: it writes no input and no completion value, takes no answer and no choice
back, and only adds to the trace. -/
structure HistoryKept (s t : State) : Prop where
  inputs : t = { s with
    ctrl := t.ctrl, initStep := t.initStep, orient := t.orient, csN := t.csN, dc := t.dc, rstN := t.rstN
    latches := t.latches, tr := t.tr, spi := t.spi, spiDrawn := t.spiDrawn, renderDrawn := t.renderDrawn
    hostOrient := t.hostOrient }
  answers : s.spiDrawn ≤ t.spiDrawn
  choices : s.renderDrawn ≤ t.renderDrawn
  trace : s.tr <+: t.tr

theorem OpRan.historyKept {i : Instr} {s : State} {r : State × Status} (h : OpRan i s r) : HistoryKept s r.1 := by
  obtain ⟨evs, hr⟩ := h.ran
  exact ⟨by rw [h.kept], hr.drawn, h.draws ▸ Nat.le_add_right .., evs, hr.tr.symm⟩

/-- The trace of INIT grows by the reset frame, then by its commands. -/
theorem InitRan.historyKept {o b c2 d : Half} {s : State} {r : State × Status} (h : InitRan o b c2 d s r) :
    HistoryKept s r.1 := by
  obtain ⟨evs, hr⟩ := h.ran
  have hkept := h.ends.kept
  exact ⟨by rw [hkept], hr.drawn, by rw [hkept], resetFrame s.cfg ++ evs, by rw [hr.tr, List.append_assoc]⟩

/-- Settles O49: the body keeps inputs and history, and the end adds at most one completion value. -/
theorem inputsAndHistoryAreKept : Obligations.InputsAndHistoryAreKept := by
  intro s t i h
  obtain ⟨r, rfl, hr⟩ : ∃ r, t = finish (opError i) r ∧ HistoryKept s r.1 := by
    obtain ⟨-, r, rfl, ⟨o, b, c2, d, -, hr⟩ | ⟨-, hr⟩⟩ := exec_cases h
    · exact ⟨r, rfl, hr.historyKept⟩
    · exact ⟨r, rfl, hr.historyKept⟩
  obtain ⟨hin, hanswers, hchoices, htrace⟩ := hr
  rw [finish_eq]
  refine ⟨by rw [hin], by rw [hin], by rw [hin], by rw [hin], by rw [hin], hanswers, hchoices, htrace,
    (r.2.completion? (opError i)).toList, ?_⟩
  rw [hin]

/-! ### The edges of STATE (R21, R23, R195) -/

/-- Settles O53: no body but INIT's writes STATE, and INIT's ends in Ready with `Ok`, or in Initializing without. -/
theorem stateMachineEdges : Obligations.StateMachineEdges := by
  intro s t i h
  obtain ⟨-, r, rfl, ⟨o, b, c2, d, rfl, hr⟩ | ⟨-, hr⟩⟩ := exec_cases h
  · have hv : r.1.completions = s.completions := by rw [hr.ends.kept]
    refine .inr ⟨hr.admitted, ⟨o, b, c2, d, rfl⟩, ?_⟩
    simp only [finish_eq, hv, opError]
    cases hst : r.2 with
    | ok => exact .inl ⟨(hr.ends.done hst).1, rfl⟩
    | failed => exact .inr ⟨(hr.ends.cut (by simp [hst])).1, by simp [Status.completion?]⟩
    | stuck => exact .inr ⟨(hr.ends.cut (by simp [hst])).1, by simp [Status.completion?]⟩
  · exact .inl (by rw [finish_eq, hr.kept])

/-! ### The values after power-on (R37, R71, R300) -/

/-- Settles O4: the reset state is written out, and no event has reached the receiver. -/
theorem resetValues : Obligations.ResetValues :=
  fun _ => ⟨rfl, rfl, rfl, rfl, rfl, rfl, rfl, rfl, rfl⟩

theorem reset_inv (p : Params) : (State.resetWith p).Inv := by
  constructor <;> simp [State.resetWith, State.hostKnows, resetPulses]

/-- The empty trace stands outside a frame, with chip-select high. -/
theorem reset_wireOk (p : Params) : (State.resetWith p).WireOk :=
  ⟨FrameScan.start, rfl, rfl, fun _ h => by cases h⟩

/-- The default configuration is well formed, whatever its open parameters are. -/
theorem default_wf : Config.default.wf = true := by
  have hopc : Config.opcodes.distinct = true := by decide
  simp [Params.wf, Config.default, hopc, Config.orientSet]

/-- Settles O5: each part holds for every configuration, or for the default one. -/
theorem resetMeetsInvariants : Obligations.ResetMeetsInvariants :=
  ⟨reset_inv _, reset_wireOk _, memoryOf_wf _, default_wf⟩

end Sys2Proof.Machine
end

section
/-! PROOF. The obligations of 20_memory.md: the pixel memory and who stores to it (O52, O46, O47), what commands and INIT do
at the controller (O57, O58), windows filled exactly or short (O54, O56), CLEAR (O55, O60), what may be concluded about the
display (O59), and the pixels of circles and texts (O34, O35). -/

namespace Sys2Proof.Machine

/-! ### The pixel memory (R79, R83) -/

/-- Settles O52: the memory is a list of stores applied to the empty one, and each keeps the form. -/
theorem pixelMemoryIsCanonical : Obligations.PixelMemoryIsCanonical := by
  refine ⟨fun s => memoryOf_wf _, fun m r c r' c' p hc _ hm => ⟨PixelMemory.store_wf hm _ _, ?_, fun hne => ?_⟩⟩
  · rw [PixelMemory.read_write _ _ hc, if_pos ⟨rfl, rfl⟩]
  · rw [PixelMemory.read_write _ _ hc, if_neg (by simpa using hne)]

/-! ### The receiver does not see the block's registers (R70) -/

@[simp] theorem finish_rx (err : Completion) (r : State × Status) : (finish err r).rx = r.1.rx := by
  obtain ⟨t, st⟩ := r
  cases st <;> rfl

@[simp] theorem accept_rx (s : State) (op : BitVec 4) (a b c2 d : Half) : (s.accept op a b c2 d).rx = s.rx := rfl

/-- ORIENT is the block's own: the receiver sees the memory-access-control command alone. -/
@[simp] theorem orientationBody_rx (o : Half) (m : Byte) (s : State) :
    (orientationBody o m s).1.rx = (sendCommand (s.cfg.opc.byte .madctl) [m] s).1.rx := by
  unfold orientationBody
  generalize sendCommand (s.cfg.opc.byte .madctl) [m] s = q
  obtain ⟨t, st⟩ := q
  cases st <;> rfl

/-- The same stores leave the same content. -/
theorem State.stored_congr {s t : State} (h : t.rx.px = s.rx.px) (r c : Nat) : t.stored r c = s.stored r c := by
  simp only [State.stored, State.memory, h]

/-! ### Layer-W operations are their commands (R160) -/

theorem exec_wire {s : State} {i : Instr} {c : Cmd} {args : List Byte} (h : wireCommand? s.cfg i = some (c, args)) :
    exec i s = runCommand c args s := by
  cases i with
  | madctl o =>
    obtain ⟨m, hm, hca⟩ := Option.map_eq_some_iff.mp h
    cases hca
    simp only [exec, execMadctl, hm]
  | slpout | pixset | dispon | ramwr | raset r0 r1 | caset c0 c1 => cases h; rfl
  | _ => cases h

/-- A layer-W operation that takes a next state has a command: MADCTL's orientation is in the set. -/
theorem wireCommand?_of_next {s t : State} {i : Instr} (hi : opLayer i = .wire) (h : exec i s = .next t) :
    ∃ c args, wireCommand? s.cfg i = some (c, args) := by
  cases i with
  | madctl o =>
    simp only [exec, execMadctl] at h
    split at h
    next m hm => exact ⟨.madctl, [m], by simp [wireCommand?, hm]⟩
    next => exact absurd (whenRunning_next h).2 (by simp)
  | slpout | pixset | dispon | ramwr | raset r0 r1 | caset c0 c1 => exact ⟨_, _, rfl⟩
  | _ => cases hi

/-- The memory-write command has no arguments (R105). -/
theorem wireCommand?_ramwr {p : Params} {i : Instr} {args : List Byte} (h : wireCommand? p i = some (.ramwr, args)) :
    args = [] := by
  cases i with
  | madctl o =>
    obtain ⟨m, -, hca⟩ := Option.map_eq_some_iff.mp h
    cases hca
  | ramwr => cases h; rfl
  | _ => cases h

/-! ### Operations without pixel data (R79, R221) -/

theorem exec_wire_px {s t : State} {i : Instr} (hi : opLayer i = .wire) (hd : s.cfg.opc.distinct = true)
    (h : exec i s = .next t) : t.rx.px = s.rx.px := by
  obtain ⟨c, args, hw⟩ := wireCommand?_of_next hi h
  rw [exec_wire hw] at h
  obtain ⟨-, rfl⟩ := runCommand_next h
  rw [finish_rx]
  refine sendCommand_px _ args s ?_
  rw [Opcodes.cmd?_byte hd]
  by_cases hc : c = .ramwr
  · subst hc; exact .inr (wireCommand?_ramwr hw)
  · exact .inl (by simpa using hc)

theorem exec_sendCommand_px {s t : State} {opcode : Byte} {args : List Byte}
    (h : exec (.sendCommand opcode args) s = .next t) : t.rx.px = s.rx.px := by
  simp only [exec, execSendCommand] at h
  obtain ⟨-, h⟩ := whenRunning_next h
  split at h
  · cases h
  next c hc =>
    split at h
    next hl =>
      obtain ⟨r, hr, rfl⟩ := settle_next h
      cases hr
      rw [finish_rx]
      refine sendCommand_px opcode args s ?_
      by_cases hw : c = .ramwr
      · subst hw; exact .inr (List.length_eq_zero_iff.mp hl)
      · exact .inl (by simpa [hc] using hw)
    next => cases h

theorem exec_init_px {s t : State} {o b c2 d : Half} (hd : s.cfg.opc.distinct = true)
    (h : exec (.init o b c2 d) s = .next t) : t.rx.px = s.rx.px := by
  simp only [exec, execInit] at h
  obtain ⟨r, hr, rfl⟩ := settle_next (whenRunning_next h).2
  obtain ⟨-, m, -, rfl⟩ := hostInit_next hr
  rw [finish_rx, noted_rx, runInitTable_px (hn := initTable_noData _ m) (hd := by exact hd),
    State.rx_append (s := s) (evs := resetFrame s.cfg) (by exact rfl) (by exact rfl), Rx.run_resetFrame]

theorem exec_setOrientation_px {s t : State} {o b c2 d : Half} (hd : s.cfg.opc.distinct = true)
    (h : exec (.setOrientation o b c2 d) s = .next t) : t.rx.px = s.rx.px := by
  simp only [exec, execSetOrientation] at h
  obtain ⟨r, hr, rfl⟩ := settle_next (whenRunning_next h).2
  obtain ⟨-, m, -, rfl⟩ := hostOrientation_next hr
  rw [finish_rx, noted_rx, orientationBody_rx]
  exact sendCommand_px _ [m] (s.accept 1 o b c2 d) (.inl (by simp [Opcodes.cmd?_byte hd]))

theorem exec_setAddressWindow_px {s t : State} {r0 r1 c0 c1 : Half} (hd : s.cfg.opc.distinct = true)
    (h : exec (.setAddressWindow r0 r1 c0 c1) s = .next t) : t.rx.px = s.rx.px := by
  simp only [exec, execSetAddressWindow] at h
  obtain ⟨r, hr, rfl⟩ := settle_next (whenRunning_next h).2
  obtain ⟨-, -, rfl⟩ := hostWindow_next hr
  rw [finish_rx]
  exact windowBody_px r0 r1 c0 c1 (s.accept 2 r0 r1 c0 c1) hd

/-- Settles O46: each of the operations sends command frames alone, and no memory-write with arguments. -/
theorem commandsStoreNoPixel : Obligations.CommandsStoreNoPixel := by
  intro s t i hi hd h
  have hpx : t.rx.px = s.rx.px := by
    obtain hw | ⟨opcode, args, rfl⟩ | ⟨o, b, c2, d, rfl⟩ | ⟨o, b, c2, d, rfl⟩ | ⟨r0, r1, c0, c1, rfl⟩ := hi
    · exact exec_wire_px hw hd h
    · exact exec_sendCommand_px h
    · exact exec_init_px hd h
    · exact exec_setOrientation_px hd h
    · exact exec_setAddressWindow_px hd h
  exact ⟨hpx, State.stored_congr hpx⟩

/-! ### Pixel data (R79, R221) -/

theorem Rx.halves_le (rx : Rx) : rx.halves ≤ 1 := by
  unfold Rx.halves; split <;> omega

/-- A SEND_PIXELS leaves every address alone that its bytes, and a half pixel pending before them, do not reach. -/
theorem sendPixels_stored {s : State} {bytes : List Byte} {n : Nat} (hn : (bytes.length + s.rx.halves) / 2 ≤ n) {r c : Nat}
    (h : (r, c) ∉ s.rx.nextAddrs n) : (sendPixels bytes s).1.stored r c = s.stored r c := by
  obtain ⟨stores, hpx, hin⟩ := sendPixels_stores bytes s
  refine StoredIn.stored hpx (fun e he => (hin e he).1) fun e he hrc => h ?_
  rw [hrc.1, hrc.2]
  exact s.rx.nextAddrs_mono hn _ (hin e he).2

theorem State.stored_finish (err : Completion) (r : State × Status) (row col : Nat) :
    (finish err r).stored row col = r.1.stored row col := State.stored_congr (by rw [finish_rx]) row col

/-- Settles O47: a pixel has two bytes, and at most one half pixel was pending. -/
theorem streamStoresAtTheCounter : Obligations.StreamStoresAtTheCounter := by
  constructor
  · intro s t a b c2 d px h r c hrc
    simp only [exec, execWritePixelStream] at h
    obtain ⟨q, hq, rfl⟩ := settle_next (whenRunning_next h).2
    obtain ⟨-, rfl⟩ := hostStream_next hq
    have hh := s.rx.halves_le
    rw [State.stored_finish]
    refine (sendPixels_stored (s := s.accept 3 a b c2 d) (n := px.length) ?_ hrc).trans (State.stored_congr rfl r c)
    rw [pixelBytes_length, accept_rx]
    omega
  · intro s t bytes h r c hrc
    simp only [exec, execSendPixels] at h
    obtain ⟨q, hq, rfl⟩ := settle_next (whenRunning_next h).2
    cases hq
    have hh := s.rx.halves_le
    rw [State.stored_finish]
    exact sendPixels_stored (by omega) hrc

/-! ### Commands at the controller (R161 to R167) -/

/-- A command whose transfers are `ok`: the receiver goes through its whole frame. -/
theorem runCommand_rx {s : State} {args : List Byte} (hs : s.spi = .idle) (ha : s.answersOk (1 + transfers args)) (c : Cmd) :
    ∃ t, runCommand c args s = .next t ∧ t.rx = s.rx.run s.cfg (commandFrame (s.cfg.opc.byte c) args) := by
  refine ⟨_, by rw [runCommand, whenRunning_idle hs, settle_ok, sendCommand_ok ha], ?_⟩
  rw [finish_rx]
  exact State.rx_append rfl rfl

theorem transfers_le (bs : List Byte) : transfers bs ≤ 1 := by
  unfold transfers; split <;> omega

theorem exec_wire_rx {s : State} {i : Instr} {c : Cmd} {args : List Byte} (hs : s.spi = .idle) (ha : s.answersOk 2)
    (h : wireCommand? s.cfg i = some (c, args)) :
    ∃ t, exec i s = .next t ∧ t.rx = s.rx.run s.cfg (commandFrame (s.cfg.opc.byte c) args) := by
  rw [exec_wire h]
  have := transfers_le args
  exact runCommand_rx hs (State.answersOk_mono ha (by omega)) c

/-- Settles O57: the frame of each command, by the receiver's law for it. -/
theorem commandsActOnTheController : Obligations.CommandsActOnTheController := by
  intro s hs hd ho ha
  refine ⟨?_, ?_, ?_, fun o row hrow => ?_, fun r0 r1 => ?_, fun c0 c1 => ?_, fun r0 r1 c0 c1 hr hc => ?_⟩
  · obtain ⟨t, ht, hrx⟩ := exec_wire_rx (i := .slpout) hs ha rfl
    exact ⟨t, ht, by simp [hrx, Rx.frame_slpout hd ho]⟩
  · obtain ⟨t, ht, hrx⟩ := exec_wire_rx (i := .dispon) hs ha rfl
    exact ⟨t, ht, by simp [hrx, Rx.frame_dispon hd ho]⟩
  · obtain ⟨t, ht, hrx⟩ := exec_wire_rx (i := .pixset) hs ha rfl
    exact ⟨t, ht, by simp [hrx, Rx.frame_pixset hd ho]⟩
  · obtain ⟨t, ht, hrx⟩ := exec_wire_rx (i := .madctl o) hs ha (by rw [wireCommand?, madctlOf?_row hrow]; rfl)
    exact ⟨t, ht, by simp [hrx, Rx.frame_madctl hd ho]⟩
  · obtain ⟨t, ht, hrx⟩ := exec_wire_rx (i := .raset r0 r1) hs ha rfl
    exact ⟨t, ht, by simp [hrx, Rx.frame_raset hd ho]⟩
  · obtain ⟨t, ht, hrx⟩ := exec_wire_rx (i := .caset c0 c1) hs ha rfl
    exact ⟨t, ht, by simp [hrx, Rx.frame_caset hd ho]⟩
  · obtain ⟨t, ht, hrx⟩ := exec_wire_rx (i := .ramwr) hs ha rfl
    exact ⟨t, ht, by simp [hrx, Rx.frame_ramwr hd ho hr hc]⟩

/-! ### INIT (R73, R74, R76, R192) -/

/-- INIT's commands, every transfer `ok`. -/
theorem runInitTable_ok (o : Half) (k : Nat) (table : List (Cmd × List Byte)) {s : State}
    (h : s.answersOk (tableTransfers table)) :
    ∃ t, runInitTable o k table s = (t, .ok) ∧ t.tr = s.tr ++ commandFrames s.cfg table ∧
      t.spiDrawn = s.spiDrawn + tableTransfers table := by
  induction table generalizing k s with
  | nil => exact ⟨_, rfl, by simp [commandFrames], rfl⟩
  | cons ca rest ih =>
    have hca : s.answersOk (1 + transfers ca.2) := State.answersOk_mono h (by simp [tableTransfers])
    obtain ⟨t, ht, htr, hdrawn⟩ := ih (k + 1)
      (s := commandDone o k (s.sent (commandFrame (s.cfg.opc.byte ca.1) ca.2) (1 + transfers ca.2)))
      (State.answersOk_sent (commandFrame (s.cfg.opc.byte ca.1) ca.2) h)
    refine ⟨t, by rw [runInitTable, sendCommand_ok hca, andThen_ok, ht], ?_, ?_⟩
    · rw [htr, commandDone_tr, State.sent_tr, List.append_assoc]; rfl
    · rw [hdrawn, commandDone_spiDrawn, State.sent_spiDrawn, tableTransfers, Nat.add_assoc]

/-- INIT from Unpowered, every transfer `ok`: the host goes on in Ready, with the orientation set, and the trace grew by the
reset frame and the four commands. -/
theorem exec_init_ok {s : State} {o b c2 d : Half} {row : OrientRow} (hs : s.spi = .idle) (hc : s.ctrl = .unpowered)
    (hrow : s.cfg.orientSet[o.toNat]? = some row) (ha : s.answersOk 6) :
    ∃ t, exec (.init o b c2 d) s = .next t ∧ GoesOn { s with orient := some o } t 6 ∧
      t.completions = s.completions ++ [.ok] ∧
      t.tr = s.tr ++ (resetFrame s.cfg ++ commandFrames s.cfg (s.cfg.initTable row.madctl)) := by
  have hhost := hostInit_eq (o := o) (b := b) (c2 := c2) (d := d) hc hrow
  obtain ⟨t, ht, htr, hdrawn⟩ := runInitTable_ok o 0 (s.cfg.initTable row.madctl) (s := { s with
    latches := { opc := 0, opa := o, opb := b, opc2 := c2, opd := d }
    ctrl := .initializing, initStep := 0, rstN := true, tr := s.tr ++ resetFrame s.cfg }) ha
  rw [ht, noted_ok] at hhost
  have hinit := hostInit_initRan hhost
  have hcfg := congrArg State.cfg hinit.ends.kept
  have hscript := congrArg State.spiScript hinit.ends.kept
  have hvalues := congrArg State.completions hinit.ends.kept
  obtain ⟨hready, -, horient⟩ := hinit.ends.done rfl
  obtain ⟨evs, hran⟩ := hinit.ran
  refine ⟨(t.noteOrient o).complete .ok, ?_, ⟨(hran.free (by simp)).trans hs, hready, hcfg, horient, hscript,
    hdrawn⟩, ?_, ?_⟩
  · simp only [exec, execInit, whenRunning_idle hs, hhost, settle_ok, finish_ok]
  · rw [State.complete_completions]; exact congrArg (· ++ [.ok]) hvalues
  · rw [State.complete_tr, State.noteOrient_tr, htr, List.append_assoc]

/-- The receiver after the trace of a complete INIT: whatever it was before, only the history is kept. -/
theorem Rx.run_initFrames {p : Params} (hd : p.opc.distinct = true) (rx : Rx) (m : Byte) :
    rx.run p (resetFrame p ++ commandFrames p (p.initTable m)) = { Rx.start with
      boot := .open, cmd := some (p.opc.byte .dispon), awake := true, on := true, fmt := some p.pixfmtArg
      madctl := .byte m, px := rx.px, beforeOrient := rx.px.length, verdicts := rx.verdicts, undef := rx.undef } := by
  simp only [Rx.run_append, Rx.run_resetFrame, commandFrames, Params.initTable, List.flatMap_cons, List.flatMap_nil,
    List.append_nil]
  rw [Rx.frame_slpout hd rfl, Rx.frame_pixset hd rfl, Rx.frame_madctl hd rfl, Rx.frame_dispon hd rfl]
  rfl

/-- The receiver after INIT from Unpowered, every transfer `ok`. -/
theorem exec_init_rx {s : State} {o b c2 d : Half} {row : OrientRow} (hs : s.spi = .idle) (hc : s.ctrl = .unpowered)
    (hd : s.cfg.opc.distinct = true) (hrow : s.cfg.orientSet[o.toNat]? = some row) (ha : s.answersOk 6) :
    ∃ t, exec (.init o b c2 d) s = .next t ∧ GoesOn { s with orient := some o } t 6 ∧
      t.completions = s.completions ++ [.ok] ∧
      t.tr = s.tr ++ (resetFrame s.cfg ++ commandFrames s.cfg (s.cfg.initTable row.madctl)) ∧
      t.rx = { Rx.start with
        boot := .open, cmd := some (s.cfg.opc.byte .dispon), awake := true, on := true, fmt := some s.cfg.pixfmtArg
        madctl := .byte row.madctl, px := s.rx.px, beforeOrient := s.rx.px.length, verdicts := s.rx.verdicts
        undef := s.rx.undef } := by
  obtain ⟨t, ht, hgo, hv, htr⟩ := exec_init_ok (b := b) (c2 := c2) (d := d) hs hc hrow ha
  exact ⟨t, ht, hgo, hv, htr, (State.rx_append htr hgo.cfg).trans (Rx.run_initFrames hd s.rx row.madctl)⟩

/-- Settles O58: the receiver's law for the trace of a complete INIT. -/
theorem initReadiesTheController : Obligations.InitReadiesTheController := by
  intro s o b c2 d row hs hc hd hrow ha
  obtain ⟨t, ht, hgo, -, -, hrx⟩ := exec_init_rx (b := b) (c2 := c2) (d := d) hs hc hd hrow ha
  have hready : t.rxReady := by rw [State.rxReady, hrx, hgo.cfg]; exact ⟨rfl, rfl⟩
  exact ⟨t, ht, hready, by simp [hrx, Rx.start]⟩

/-! ### Windows and streams (R80, R81, R87) -/

/-- The receiver after a window was set and pixels within its area were stored, from a receiver `rx` before (R80). -/
structure Rx.Filled (rx : Rx) (r0 r1 c0 c1 : Half) (px : List Pixel) (rx' : Rx) : Prop where
  stores : rx'.px = rx.px ++ rowMajor r0.toNat c0.toNat (c1.toNat - c0.toNat + 1) px
  verdicts : rx'.close.verdicts = rx.close.verdicts ++ [{
    row := .bounds r0 r1, col := .bounds c0 c1, cnt := px.length
    verdict := if px.length = windowArea r0.toNat r1.toNat c0.toNat c1.toNat then .exact else .short }]
  undef : rx'.close.undef = (rx.close.undef || decide (px.length ≠ windowArea r0.toNat r1.toNat c0.toNat c1.toNat))
  mark : rx'.beforeOrient = rx.beforeOrient
  boot : rx'.boot = rx.boot

theorem Rx.filled_stores (p : Params) (rx : Rx) {r0 r1 c0 c1 : Half} (hr : r0.toNat ≤ r1.toNat) (hc : c0.toNat ≤ c1.toNat)
    {px : List Pixel} (hl : px.length ≤ windowArea r0.toNat r1.toNat c0.toNat c1.toNat) :
    rx.Filled r0 r1 c0 c1 px { px.foldl Rx.store (rx.opened p r0 r1 c0 c1) with selected := false } := by
  obtain ⟨hfill, hpx, hundef⟩ := Rx.stores_filling hr hc (rx.opened_filling p r0 r1 c0 c1) px (by omega)
  rw [Nat.zero_add] at hfill
  obtain ⟨hverdicts, hclose⟩ := Rx.close_filling hfill hl
  refine ⟨hpx, ?_, ?_, ?_, ?_⟩
  · rw [Rx.close_withSelected]
    refine hverdicts.trans ?_
    rw [Rx.stores_eq]
    rfl
  · rw [Rx.close_withSelected]
    refine hclose.trans ?_
    rw [hundef]
    rfl
  · rw [Rx.stores_eq]; rfl
  · rw [Rx.stores_eq]; rfl

/-- Settles O54: the streams are one stream in the opened window, of just its area. -/
theorem windowFilledExactly : Obligations.WindowFilledExactly := by
  intro s r0 r1 c0 c1 chunks nr nc hs hc hd hdm hb hr hl ha
  obtain ⟨hrow, -, hcol, -⟩ := boundsOk_iff.mp hb
  have hne : chunks ≠ [] := by
    rintro rfl
    simp [windowArea] at hl
  obtain ⟨t, ht, hgo, -, hrx⟩ := exec_window hs hc hd hdm hb hr.1 (State.answersOk_mono ha (by omega))
  have hst : t.rx.Streaming t.cfg := by rw [hgo.cfg, hrx]; exact Rx.opened_streaming hd hr.1 hr.2 ..
  obtain ⟨u, hu, hurx⟩ := execAll_streams chunks hne hgo.spi hgo.ctrl (hgo.answersOk ha) hst
  rw [hrx] at hurx
  have hfill := Rx.filled_stores s.cfg s.rx hrow hcol hl.le
  rw [← hurx] at hfill
  refine ⟨u, by rw [execAll, ht]; exact hu, ?_, ?_, ?_⟩
  · rw [Rx.close_px, hfill.stores]
  · rw [hfill.verdicts, if_pos hl, hl]
  · rw [hfill.undef, hl]; simp

/-- Settles O56: the second window closes the first, in which pixels are missing. -/
theorem shortWindowIsResynchronised : Obligations.ShortWindowIsResynchronised := by
  intro s r0 r1 c0 c1 r0' r1' c0' c1' px nr nc hs hc hd hdm hb hb' hr hl ha
  obtain ⟨hrow, -, hcol, -⟩ := boundsOk_iff.mp hb
  obtain ⟨t, ht, hgo, hv, hrx⟩ := exec_window hs hc hd hdm hb hr.1 (State.answersOk_mono ha (by omega))
  have hst : t.rx.Streaming t.cfg := by rw [hgo.cfg, hrx]; exact Rx.opened_streaming hd hr.1 hr.2 ..
  have hn : (if px = [] then 0 else 1) ≤ 1 := by split <;> omega
  obtain ⟨u, hu, hgo', hv', hurx⟩ := exec_stream hgo.spi hgo.ctrl (px := px)
    (hgo.answersOk (State.answersOk_mono ha (by omega))) hst 0 0 0 0
  have hfill := Rx.filled_stores s.cfg s.rx hrow hcol hl.le
  rw [← hrx, ← hurx] at hfill
  have hgo2 := hgo.trans hgo'
  obtain ⟨w, hw, -, hv'', hwrx⟩ := exec_window hgo2.spi hgo2.ctrl (by rw [hgo2.cfg]; exact hd)
    (by rw [hgo2.dims?]; exact hdm) hb' (hfill.boot.trans hr.1) (hgo2.answersOk (State.answersOk_mono ha (by omega)))
  refine ⟨w, by simp only [execAll, ht, hu, hw], by simp [hv'', hv', hv], ?_, ?_, by rw [hwrx]; rfl⟩
  · rw [hwrx, Rx.opened, hfill.verdicts, if_neg hl.ne]
  · rw [hwrx, Rx.opened, hfill.undef]; simp [hl.ne]

/-! ### CLEAR (R88, R216, R318) -/

/-- The checks of a well-formed configuration. -/
theorem params_wf_iff {p : Params} : p.wf = true ↔ p.opc.distinct = true ∧ (1 ≤ p.nRowsNative ∧ p.nRowsNative ≤ 65536) ∧
    (1 ≤ p.nColsNative ∧ p.nColsNative ≤ 65536) ∧ 1 ≤ p.clearChunk ∧ 1 ≤ p.orientSet.length ∧ p.orientSet.length ≤ 65536 := by
  simp [Params.wf, and_assoc]

/-- An orientation's dimensions are the native ones in some order (R61). -/
theorem dims?_range {p : Params} (hw : p.wf = true) {o : Half} {nr nc : Nat} (h : p.dims? o = some (nr, nc)) :
    (1 ≤ nr ∧ nr ≤ 65536) ∧ 1 ≤ nc ∧ nc ≤ 65536 := by
  obtain ⟨-, hrows, hcols, -⟩ := params_wf_iff.mp hw
  obtain ⟨row, -, hrow⟩ := Option.map_eq_some_iff.mp h
  split at hrow
  · cases hrow; exact ⟨hcols, hrows⟩
  · cases hrow; exact ⟨hrows, hcols⟩

theorem State.dims?_range {s : State} (hw : s.cfg.wf = true) {nr nc : Nat} (h : s.dims? = some (nr, nc)) :
    (1 ≤ nr ∧ nr ≤ 65536) ∧ 1 ≤ nc ∧ nc ≤ 65536 := by
  obtain ⟨o, -, ho⟩ := Option.bind_eq_some_iff.mp h
  exact Machine.dims?_range hw ho

/-- The last row or column of a screen as a bound. -/
theorem toNat_lastBound {n : Nat} (h0 : 1 ≤ n) (h1 : n ≤ 65536) : (BitVec.ofNat 16 (n - 1)).toNat = n - 1 := by
  rw [BitVec.toNat_ofNat]; omega

/-- What CLEAR puts on the wire: the screen's window, then its pixels in chunks (R216). -/
def clearEvents (p : Params) (color : Pixel) (nr nc : Nat) : List Event :=
  commandFrames p (windowTable 0 (BitVec.ofNat 16 (nr - 1)) 0 (BitVec.ofNat 16 (nc - 1))) ++
    (clearFrames p.clearChunk (nr * nc) (nr * nc)).flatMap fun k => dataFrame (pixelBytes (List.replicate k color))

theorem xferFail_not_mem_commandFrames (p : Params) (table : List (Cmd × List Byte)) :
    Event.xferFail ∉ commandFrames p table := by simp [commandFrames, commandFrame]

theorem xferFail_not_mem_clearEvents (p : Params) (color : Pixel) (nr nc : Nat) :
    Event.xferFail ∉ clearEvents p color nr nc := by
  simp [clearEvents, xferFail_not_mem_commandFrames, dataFrame]

/-- A screen of at least one pixel takes at least one frame, and no more than it has pixels. -/
theorem clearFrames_count {chunk n : Nat} (hc : 1 ≤ chunk) (hn : 1 ≤ n) :
    clearFrames chunk n n ≠ [] ∧ (clearFrames chunk n n).length ≤ n := by
  have hsum := clearFrames_sum hc n n le_rfl
  constructor
  · intro h
    rw [h, List.sum_nil] at hsum
    omega
  · exact (List.length_le_sum_of_one_le _ fun k hk => (clearFrames_pos hc n n le_rfl k hk).1).trans_eq hsum

/-- The body of CLEAR, every transfer `ok`. -/
theorem clearBody_ok {s : State} (color : Pixel) {nr nc : Nat} (hchunk : 1 ≤ s.cfg.clearChunk) (hn : 1 ≤ nr * nc)
    (ha : s.answersOk (5 + (clearFrames s.cfg.clearChunk (nr * nc) (nr * nc)).length)) :
    clearBody color nr nc s = (s.sent (clearEvents s.cfg color nr nc)
      (5 + (clearFrames s.cfg.clearChunk (nr * nc) (nr * nc)).length), .ok) := by
  rw [clearBody, windowBody_ok (State.answersOk_mono ha (by omega)), andThen_ok,
    fillFrames_ok color _ (clearFrames_count hchunk hn).1 (fun k hk => (clearFrames_pos hchunk _ _ le_rfl k hk).1)
      (State.answersOk_sent _ ha), State.sent_sent]
  rfl

/-- CLEAR in Ready, every transfer `ok`: the host goes on, and the trace grew by its frames. -/
theorem exec_clear_ok {s : State} {color : Pixel} {b c2 d : Half} {nr nc : Nat} (hs : s.spi = .idle)
    (hc : s.ctrl = .ready) (hw : s.cfg.wf = true) (hdm : s.dims? = some (nr, nc)) (ha : s.answersOk (5 + nr * nc)) :
    ∃ t n, exec (.clear color b c2 d) s = .next t ∧ GoesOn s t n ∧ t.completions = s.completions ++ [.ok] ∧
      t.tr = s.tr ++ clearEvents s.cfg color nr nc := by
  obtain ⟨-, -, -, hchunk, -⟩ := params_wf_iff.mp hw
  obtain ⟨⟨hnr, -⟩, hnc, -⟩ := State.dims?_range hw hdm
  have hn : 1 ≤ nr * nc := Nat.mul_pos hnr hnc
  have hcount := (clearFrames_count hchunk hn).2
  have hbody := clearBody_ok (s := s.accept 4 color b c2 d) color hchunk hn
    (State.answersOk_mono (s := s) ha (Nat.add_le_add_left hcount 5))
  have hexec : exec (.clear color b c2 d) s = .next (((s.accept 4 color b c2 d).sent (clearEvents s.cfg color nr nc)
      (5 + (clearFrames s.cfg.clearChunk (nr * nc) (nr * nc)).length)).complete .ok) := by
    simp only [exec, execClear, whenRunning_idle hs, hostClear_eq hc hdm, settle_ok, hbody, finish_ok, State.accept_cfg]
  exact ⟨_, _, hexec, ⟨hs, hc, rfl, rfl, rfl, rfl⟩, rfl, rfl⟩

theorem flatten_map_replicate (color : Pixel) (counts : List Nat) :
    (counts.map fun k => List.replicate k color).flatten = List.replicate counts.sum color := by
  induction counts with
  | nil => rfl
  | cons k rest ih => simp [ih]

/-- CLEAR's frames fill the screen's window exactly (R88). -/
theorem Rx.run_clearEvents {p : Params} (hw : p.wf = true) {rx : Rx} (ho : rx.boot = .open)
    (hf : rx.fmt = some p.pixfmtArg) (color : Pixel) {nr nc : Nat} (hnr : 1 ≤ nr ∧ nr ≤ 65536) (hnc : 1 ≤ nc ∧ nc ≤ 65536) :
    rx.Filled 0 (BitVec.ofNat 16 (nr - 1)) 0 (BitVec.ofNat 16 (nc - 1)) (List.replicate (nr * nc) color)
      (rx.run p (clearEvents p color nr nc)) := by
  obtain ⟨hd, -, -, hchunk, -⟩ := params_wf_iff.mp hw
  have hn : 1 ≤ nr * nc := Nat.mul_pos hnr.1 hnc.1
  rw [clearEvents, Rx.run_append, Rx.run_window hd ho (by simp) (by simp),
    ← List.flatMap_map (fun k => List.replicate k color) fun px => dataFrame (pixelBytes px),
    Rx.run_dataFrames (Rx.opened_streaming hd ho hf ..) _ (by simpa using (clearFrames_count hchunk hn).1),
    flatten_map_replicate, clearFrames_sum hchunk _ _ le_rfl]
  refine Rx.filled_stores p rx (by simp) (by simp) ?_
  rw [List.length_replicate, toNat_lastBound hnr.1 hnr.2, toNat_lastBound hnc.1 hnc.2, windowArea, Nat.mul_comm]
  exact le_of_eq (congrArg₂ (· * ·) (by simp; omega) (by simp; omega))

/-- Every address of a screen is one of the row-major stores of its area. -/
theorem exists_mem_rowMajor {nr nc r c : Nat} (color : Pixel) (hr : r < nr) (hc : c < nc) :
    ∃ e ∈ rowMajor 0 0 nc (List.replicate (nr * nc) color), e.r = r ∧ e.c = c := by
  have hi : nc * r + c < nr * nc := by
    calc nc * r + c < nc * (r + 1) := by rw [Nat.mul_succ]; omega
      _ ≤ nr * nc := by rw [Nat.mul_comm nr]; exact Nat.mul_le_mul_left nc hr
  refine ⟨_, List.mem_map.mpr ⟨(color, nc * r + c), ?_, rfl⟩, ?_, ?_⟩
  · rw [List.mk_mem_zipIdx_iff_getElem?, List.getElem?_replicate_of_lt hi]
  · simp [Nat.mul_add_div (Nat.zero_lt_of_lt hc), Nat.div_eq_of_lt hc]
  · simp [Nat.mod_eq_of_lt hc]

/-- Row-major stores of one colour have it. -/
theorem eq_of_mem_rowMajor {r0 c0 w n : Nat} {color : Pixel} {e : PixelStore}
    (h : e ∈ rowMajor r0 c0 w (List.replicate n color)) : e.p = color := by
  obtain ⟨i, -, -, -, -, hp⟩ := rowMajorFrom_mem (n := 0) h
  exact List.eq_of_mem_replicate (List.mem_of_getElem? hp)

/-- What an address holds after stores whose pixel is a function of the address. -/
theorem State.stored_fun {s t : State} {stores : List PixelStore} (h : t.rx.px = s.rx.px ++ stores) {f : Nat → Nat → Pixel}
    (hf : ∀ e ∈ stores, e.p = f e.r e.c) (r c : Nat) :
    t.stored r c = if ∃ e ∈ stores, e.r = r ∧ e.c = c then some (f r c) else s.stored r c := by
  rw [State.stored, State.memory, h, memoryOf_read_fun _ _ f (fun e he => t.rx_sane.stores e (by simp [h, he])) hf]
  rfl

/-- CLEAR's stores leave the colour at every address of the screen. -/
theorem State.stored_screen {s t : State} {color : Pixel} {nr nc : Nat}
    (h : t.rx.px = s.rx.px ++ rowMajor 0 0 nc (List.replicate (nr * nc) color)) {r c : Nat} (hr : r < nr) (hc : c < nc) :
    t.stored r c = some color := by
  rw [State.stored_fun h (f := fun _ _ => color) (fun e he => eq_of_mem_rowMajor he),
    if_pos (exists_mem_rowMajor color hr hc)]

/-- What CLEAR in Ready does, every transfer `ok`: one store at every address of the screen, in row-major order, and the
colour is the display's content if content can be concluded at all. -/
theorem exec_clear_stores {s : State} {color : Pixel} {b c2 d : Half} {nr nc : Nat} (hs : s.spi = .idle)
    (hc : s.ctrl = .ready) (hw : s.cfg.wf = true) (hdm : s.dims? = some (nr, nc)) (hr : s.rxReady)
    (ha : s.answersOk (5 + nr * nc)) :
    ∃ t, exec (.clear color b c2 d) s = .next t ∧ t.completions = s.completions ++ [.ok] ∧
      t.rx.px = s.rx.px ++ rowMajor 0 0 nc (List.replicate (nr * nc) color) ∧
      (∀ r c, r < nr → c < nc → t.stored r c = some color) ∧ t.rx.close.undef = s.rx.close.undef ∧
      (s.traceDefined = true → ∀ r c, r < nr → c < nc → t.pixel r c = some color) := by
  obtain ⟨hnr, hnc⟩ := State.dims?_range hw hdm
  obtain ⟨t, n, ht, hgo, hv, htr⟩ := exec_clear_ok (color := color) (b := b) (c2 := c2) (d := d) hs hc hw hdm ha
  have hfill := Rx.run_clearEvents hw hr.1 hr.2 color hnr hnc
  rw [← State.rx_append htr hgo.cfg] at hfill
  have hwidth : (BitVec.ofNat 16 (nc - 1)).toNat - (0 : Half).toNat + 1 = nc := by
    rw [toNat_lastBound hnc.1 hnc.2]; simp; omega
  have hheight : (BitVec.ofNat 16 (nr - 1)).toNat - (0 : Half).toNat + 1 = nr := by
    rw [toNat_lastBound hnr.1 hnr.2]; simp; omega
  have hpx : t.rx.px = s.rx.px ++ rowMajor 0 0 nc (List.replicate (nr * nc) color) := by
    rw [hfill.stores, hwidth]; rfl
  have hundef : t.rx.close.undef = s.rx.close.undef := by
    rw [hfill.undef, windowArea, hwidth, hheight, List.length_replicate, Nat.mul_comm]; simp
  refine ⟨t, ht, hv, hpx, fun r c hr hc => State.stored_screen hpx hr hc, hundef, fun hdef r c hr hc => ?_⟩
  have htd := State.traceDefined_append hgo.spi hgo.cfg htr (xferFail_not_mem_clearEvents _ _ _ _) hundef hdef
  have hglass := State.cleared_of_stores (hgo.dims?.trans hdm) hfill.mark hpx fun r c hr hc =>
    exists_mem_rowMajor color hr hc
  rw [State.pixel_defined (State.displayDefined_iff.mpr ⟨htd, State.glassKnown_iff.mpr (.inr hglass)⟩)
    (hgo.dims?.trans hdm) hr hc, State.stored_screen hpx hr hc]

/-- Settles O55: CLEAR's frames fill the screen's window exactly, whatever the chunk. -/
theorem clearStoresEveryPixelOnce : Obligations.ClearStoresEveryPixelOnce := by
  intro s color b c2 d nr nc hs hc hw hdm hr ha
  obtain ⟨t, ht, -, hrest⟩ := exec_clear_stores (color := color) (b := b) (c2 := c2) (d := d) hs hc hw hdm hr ha
  exact ⟨t, ht, hrest⟩

/-- A complete INIT from the empty trace lets content be concluded (R83). -/
theorem traceDefined_of_init {t : State} {row : OrientRow} (hs : t.spi = .idle) (hrow : row ∈ t.cfg.orientSet)
    (htr : t.tr = resetFrame t.cfg ++ commandFrames t.cfg (t.cfg.initTable row.madctl)) (hu : t.rx.close.undef = false) :
    t.traceDefined = true := by
  refine State.traceDefined_iff.mpr ⟨hs, ?_, startsWithInit_iff.mpr ⟨row, hrow, by rw [htr]⟩, hu⟩
  simp [htr, xferFail_not_mem_resetFrame, xferFail_not_mem_commandFrames]

/-- Settles O60: INIT readies the receiver on a defined trace, and CLEAR fills the screen. -/
theorem initThenClearShowsTheColour : Obligations.InitThenClearShowsTheColour := by
  intro s o color nr nc hs hc htr hw hdm ha
  obtain ⟨row, hrow, -⟩ := Option.map_eq_some_iff.mp hdm
  obtain ⟨t, ht, hgo, hv, httr, hrx⟩ := exec_init_rx (b := 0) (c2 := 0) (d := 0) hs hc (params_wf_iff.mp hw).1 hrow
    (State.answersOk_mono ha (by omega))
  have hstart : s.rx = Rx.start := by rw [State.rx, htr]; rfl
  have hready : t.rxReady := by rw [State.rxReady, hrx, hgo.cfg]; exact ⟨rfl, rfl⟩
  have hdef : t.traceDefined = true := by
    refine traceDefined_of_init (row := row) hgo.spi ?_ ?_ ?_
    · rw [hgo.cfg]; exact List.mem_of_getElem? hrow
    · rw [httr, htr, hgo.cfg]; rfl
    · rw [hrx, hstart]; rfl
  obtain ⟨u, hu, hv', -, -, -, hpix⟩ := exec_clear_stores (color := color) (b := 0) (c2 := 0) (d := 0) hgo.spi hgo.ctrl
    (by rw [hgo.cfg]; exact hw) (hgo.dims?.trans hdm) hready (hgo.answersOk ha)
  exact ⟨u, by simp only [execAll, ht, hu], by simp [hv', hv], hpix hdef⟩

/-! ### What may be concluded about the display (R83) -/

/-- Nothing may be concluded about the glass: a transfer stalled or failed, or stores came before the last
memory-access-control command and none after it. -/
def State.Unknown (s : State) : Prop :=
  s.spi = .stalled ∨ Event.xferFail ∈ s.tr ∨ s.rx.px ≠ [] ∧ s.rx.beforeOrient = s.rx.px.length

theorem State.pixel_none_of_undefined {s : State} (h : s.spi = .stalled ∨ Event.xferFail ∈ s.tr ∨ s.rx.close.undef = true)
    (r c : Nat) : s.pixel r c = none := by
  refine State.pixel_none fun _ htd _ => ?_
  obtain ⟨hs, hf, -, hu⟩ := State.traceDefined_iff.mp htd
  obtain h | h | h := h
  · simp [hs] at h
  · exact hf h
  · simp [hu] at h

theorem State.Unknown.pixel {s : State} (h : s.Unknown) (r c : Nat) : s.pixel r c = none := by
  obtain h | h | ⟨hpx, hm⟩ := h
  · exact State.pixel_none_of_undefined (.inl h) r c
  · exact State.pixel_none_of_undefined (.inr (.inl h)) r c
  · exact State.glass_open hpx hm

/-- The three fields it depends on. -/
theorem State.Unknown.congr {s t : State} (h : s.Unknown) (hs : t.spi = s.spi) (ht : t.tr = s.tr) (hr : t.rx = s.rx) :
    t.Unknown := by rwa [State.Unknown, hs, ht, hr]

theorem Kept.cfg {s t : State} (h : Kept s t) : t.cfg = s.cfg := by
  unfold Kept at h
  rw [h]

/-- A memory-access-control command leaves a glass that was drawn on unknown, however it ends. -/
theorem sendCommand_madctl_unknown {s : State} (hd : s.cfg.opc.distinct = true) (ho : s.rx.boot = .open)
    (hpx : s.rx.px ≠ []) (m : Byte) : (sendCommand (s.cfg.opc.byte .madctl) [m] s).1.Unknown := by
  obtain ⟨evs, hend, htr, -⟩ := sendCommand_ends (s.cfg.opc.byte .madctl) [m] s
  obtain ⟨_, hran⟩ := sendCommand_ran (s.cfg.opc.byte .madctl) [m] s
  have hrx := State.rx_append htr (sendCommand_kept _ _ s).cfg
  cases hst : (sendCommand (s.cfg.opc.byte .madctl) [m] s).2 with
  | stuck => exact .inl (hran.stuck hst).1
  | failed =>
    obtain ⟨before, hevs, -⟩ := hran.failed hst
    exact .inr (.inl (by rw [hran.tr, hevs]; simp))
  | ok =>
    rw [hst] at hend
    generalize (sendCommand (s.cfg.opc.byte .madctl) [m] s).1.dc = level at hend
    cases hend
    rw [Rx.frame_madctl hd ho] at hrx
    exact .inr (.inr (by rw [hrx]; exact ⟨hpx, rfl⟩))

theorem State.Unknown.finish {r : State × Status} (h : r.1.Unknown) (err : Completion) : (Machine.finish err r).Unknown :=
  h.congr (by rw [finish_eq]) (finish_tr err r) (finish_rx err r)

theorem State.Unknown.noted {r : State × Status} (h : r.1.Unknown) (o : Half) : (Machine.noted o r).1.Unknown := by
  obtain ⟨t, st⟩ := r
  cases st <;> exact h

theorem orientationBody_unknown {s : State} (o : Half) {m : Byte}
    (h : (sendCommand (s.cfg.opc.byte .madctl) [m] s).1.Unknown) : (orientationBody o m s).1.Unknown := by
  unfold orientationBody
  generalize sendCommand (s.cfg.opc.byte .madctl) [m] s = q at h
  obtain ⟨t, st⟩ := q
  cases st <;> exact h

/-- Settles O59: the four clauses of the model's reading of content, and the memory-access-control command's mark. -/
theorem contentIsConcludedOnlyWhenDefined : Obligations.ContentIsConcludedOnlyWhenDefined := by
  refine ⟨fun s nr nc hdm hs hf hinit hu hglass r c hr hc => ?_, fun s h r c => State.pixel_none_of_undefined h r c,
    fun s nr nc hdm r c hout => ?_, fun s t i hi hd ho hpx h r c => ?_⟩
  · have htd : s.traceDefined = true := State.traceDefined_iff.mpr ⟨hs, hf, startsWithInit_iff.mpr hinit, hu⟩
    have hgk : s.glassKnown = true := State.glassKnown_iff.mpr (hglass.imp_right (State.cleared_iff hdm).mpr)
    rw [State.pixel_defined (State.displayDefined_iff.mpr ⟨htd, hgk⟩) hdm hr hc, State.stored_eq]
  · refine State.pixel_none fun ha _ _ => ?_
    obtain ⟨nr', nc', hdm', hr, hc⟩ := State.isAddress_iff.mp ha
    cases hdm.symm.trans hdm'
    omega
  · obtain ⟨o, b, c2, d, rfl⟩ | ⟨o, rfl⟩ := hi
    · simp only [exec, execSetOrientation] at h
      obtain ⟨q, hq, rfl⟩ := settle_next (whenRunning_next h).2
      obtain ⟨-, m, -, rfl⟩ := hostOrientation_next hq
      have hu := sendCommand_madctl_unknown (s := s.accept 1 o b c2 d) hd ho hpx m
      exact (((orientationBody_unknown o hu).noted o).finish _).pixel r c
    · obtain ⟨k, args, hw⟩ := wireCommand?_of_next rfl h
      obtain ⟨m, -, hca⟩ := Option.map_eq_some_iff.mp hw
      cases hca
      rw [exec_wire hw] at h
      obtain ⟨-, rfl⟩ := runCommand_next h
      exact ((sendCommand_madctl_unknown hd ho hpx m).finish _).pixel r c

/-! ### Drawing requests (R83, R240, R250) -/

/-- What an address holds after stores that give each place of `color` its colour. -/
theorem State.stored_colors {s t : State} {stores : List PixelStore} (h : t.rx.px = s.rx.px ++ stores)
    {color : Nat → Nat → Option Pixel} (hm : ∀ e, e ∈ stores ↔ color e.r e.c = some e.p) (r c : Nat) :
    t.stored r c = (color r c).or (s.stored r c) := by
  rw [State.stored_fun h (f := fun r c => (color r c).getD 0) fun e he => by rw [(hm e).mp he, Option.getD_some]]
  cases hcolor : color r c with
  | none =>
    refine if_neg ?_
    rintro ⟨e, he, rfl, rfl⟩
    simp [(hm e).mp he] at hcolor
  | some p => exact if_pos ⟨{ r := r, c := c, p := p }, (hm _).mpr hcolor, rfl, rfl⟩

/-- A drawing request in Ready whose jobs lie in the panel, every transfer `ok`. -/
theorem exec_drawing_rx {i : Instr} (hi : isDraw i = true) {s : State} {nr nc : Nat} (hs : s.spi = .idle)
    (hc : s.ctrl = .ready) (hw : s.cfg.wf = true) (hdm : s.dims? = some (nr, nc)) (hr : s.rxReady)
    (hp : ∀ j ∈ drawingJobs i s, inPanel j.1 nr nc ∧ (j.2.length : Int) = j.1.c1 - j.1.c0 + 1)
    (ha : s.answersOk (6 * (drawingJobs i s).length)) :
    ∃ t, exec i s = .next t ∧ t.completions = s.completions ++ [.ok] ∧
      RxBetween s t ((drawingJobs i s).flatMap jobStores) ∧ (s.displayDefined = true → t.displayDefined = true) := by
  obtain ⟨⟨-, hnr⟩, -, hnc⟩ := State.dims?_range hw hdm
  obtain ⟨t, ht, hgo, hv, hrx⟩ := drawJobs_rx (drawingJobs i s) (s := s.drawChoice) hs hc (params_wf_iff.mp hw).1 hdm hnr hnc hr hp ha
  obtain ⟨⟨evs, hran⟩, -⟩ := drawJobs_hostRan ht
  refine ⟨t.complete .ok, ?_, by rw [complete_completions, hv]; rfl,
    ⟨hrx.boot, hrx.fmt, hrx.px, hrx.undef, hrx.mark, hrx.verdicts⟩, fun hdef => ?_⟩
  · rw [exec_drawing hi, whenRunning_idle hs, ht, settle_ok, finish_ok]
  · obtain ⟨htd, hgk⟩ := State.displayDefined_iff.mp hdef
    exact State.displayDefined_iff.mpr
      ⟨State.traceDefined_append (s := s) (t := t.complete .ok) hgo.spi hgo.cfg hran.tr (hran.clean (by simp)) hrx.undef htd,
        State.glassKnown_append (s := s) (t := t.complete .ok) hgo.dims? hrx.mark hrx.px hgk⟩

/-! ### Circles (R242, R243) -/

/-- A touched pixel lies in the square about the circle. -/
theorem dist2_square {row col radius : Nat} {r c : Int} (h : dist2 row col r c ≤ (radius : Int) * radius) :
    (row : Int) - radius ≤ r ∧ r ≤ row + radius ∧ (col : Int) - radius ≤ c ∧ c ≤ col + radius := by
  unfold dist2 at h
  have hrow : |r - row| ≤ radius := abs_le_of_sq_le_sq (by nlinarith [mul_self_nonneg (c - col)]) (by omega)
  have hcol : |c - col| ≤ radius := abs_le_of_sq_le_sq (by nlinarith [mul_self_nonneg (r - row)]) (by omega)
  rw [abs_le] at hrow hcol
  omega

/-- The colours of R242, in squares. -/
theorem circleColor_eq (row col radius : Nat) (stroke : Pixel) (width : Nat) (fill : Pixel) (r c : Int) :
    circleColor row col radius stroke width fill r c =
      if width ≤ radius ∧ (r - row) ^ 2 + (c - col) ^ 2 ≤ ((radius : Int) - width) ^ 2 then some fill
      else if (r - row) ^ 2 + (c - col) ^ 2 ≤ (radius : Int) ^ 2 then some stroke
      else none := by
  have hd : dist2 row col r c = (r - row) ^ 2 + (c - col) ^ 2 := by rw [dist2, pow_two, pow_two]
  rw [← hd]
  unfold circleColor
  refine if_congr (and_congr_right fun hw => ?_) rfl (if_congr ?_ rfl rfl)
  · rw [Nat.cast_sub hw, pow_two]
  · rw [pow_two]

/-- Every place of a circle's runs, clipped or not, is touched. -/
theorem circleRun_touched {row col radius : Nat} {choice : RenderChoice} {panel : Option (Nat × Nat)} {run : Run}
    (h : run ∈ clipPlan choice panel (circlePlan row col radius choice)) {c : Int} (h0 : run.c0 ≤ c) (h1 : c ≤ run.c1) :
    dist2 row col run.row c ≤ (radius : Int) * radius := by
  obtain ⟨whole, hwhole, hrow, hleft, hright⟩ := clipPlan_sub h
  rw [hrow]
  exact ((circlePlanOk_iff.mp (circlePlan_ok row col radius choice)).1 whole hwhole).2 c (by omega) (by omega)

/-- The circle lies in the panel, or the renderer clips (N14). -/
def CircleAdmitted (row col radius nr nc : Nat) (choice : RenderChoice) : Prop :=
  (radius ≤ row ∧ row + radius < nr ∧ radius ≤ col ∧ col + radius < nc) ∨ choice.clips = true

/-- The runs of a circle lie in the panel, if the circle does or the renderer clips. -/
theorem circleRun_inPanel {row col radius nr nc : Nat} {choice : RenderChoice}
    (hin : CircleAdmitted row col radius nr nc choice) {run : Run}
    (h : run ∈ clipPlan choice (some (nr, nc)) (circlePlan row col radius choice)) : inPanel run nr nc := by
  refine clipPlan_inPanel (Or.imp_left (fun hcircle whole hwhole => ?_) hin) h
  obtain ⟨hord, htouched⟩ := (circlePlanOk_iff.mp (circlePlan_ok row col radius choice)).1 whole hwhole
  have hleft := dist2_square (htouched _ le_rfl hord)
  have hright := dist2_square (htouched _ hord le_rfl)
  unfold inPanel
  omega

/-- A circle's jobs lie in the panel, each with as many pixels as its run is wide. -/
theorem circleJobs_inPanel {row col radius width nr nc : Nat} {stroke fill : Pixel} {choice : RenderChoice}
    (hin : CircleAdmitted row col radius nr nc choice)
    {j : Run × List Pixel} (hj : j ∈ circleJobs row col radius stroke width fill choice (some (nr, nc))) :
    inPanel j.1 nr nc ∧ (j.2.length : Int) = j.1.c1 - j.1.c0 + 1 := by
  obtain ⟨run, hrun, rfl⟩ := List.mem_map.mp hj
  obtain ⟨-, -, -, hord, -⟩ := circleRun_inPanel hin hrun
  refine ⟨circleRun_inPanel hin hrun, ?_⟩
  rw [filterMap_length_of_isSome, runCols_length]
  · simp only; omega
  · intro c hc
    obtain ⟨h0, h1⟩ := mem_runCols.mp hc
    exact circleColor_isSome.mpr (circleRun_touched hrun h0 h1)

/-- A circle's jobs store its colours at the panel's addresses, and nothing else. -/
theorem mem_circleStores {row col radius width nr nc : Nat} {stroke fill : Pixel} {choice : RenderChoice}
    (hin : CircleAdmitted row col radius nr nc choice) (e : PixelStore) :
    e ∈ (circleJobs row col radius stroke width fill choice (some (nr, nc))).flatMap jobStores ↔
      (if e.r < nr ∧ e.c < nc then circleColor row col radius stroke width fill e.r e.c else none) = some e.p := by
  have hjob : ∀ run ∈ clipPlan choice (some (nr, nc)) (circlePlan row col radius choice),
      inPanel run nr nc ∧ (e ∈ jobStores (run, (runCols run).filterMap (circleColor row col radius stroke width fill run.row)) ↔
        (e.r : Int) = run.row ∧ run.c0 ≤ (e.c : Int) ∧ (e.c : Int) ≤ run.c1 ∧
          circleColor row col radius stroke width fill run.row e.c = some e.p) := by
    intro run hrun
    obtain ⟨htop, -, hleft, -, -⟩ := circleRun_inPanel hin hrun
    exact ⟨circleRun_inPanel hin hrun, mem_jobStores_colors htop hleft
      (fun c h0 h1 => circleColor_isSome.mpr (circleRun_touched hrun h0 h1)) e⟩
  rw [circleJobs, List.flatMap_map, List.mem_flatMap, Option.ite_none_right_eq_some]
  constructor
  · rintro ⟨run, hrun, he⟩
    obtain ⟨⟨-, hlast, -, -, hright⟩, hmem⟩ := hjob run hrun
    obtain ⟨hrow, hc0, hc1, hcolor⟩ := hmem.mp he
    exact ⟨by omega, hrow ▸ hcolor⟩
  · rintro ⟨hpanel, hcolor⟩
    have htouched := circleColor_isSome.mp (Option.isSome_of_eq_some hcolor)
    obtain ⟨whole, hwhole, hrow, hleft, hright⟩ := (circlePlanOk_iff.mp (circlePlan_ok row col radius choice)).2 _ _ htouched
    obtain ⟨run, hrun, hrow', hc0, hc1⟩ := clipPlan_covers (choice := choice) (nr := nr) (nc := nc) hwhole hleft hright
      (by omega)
    refine ⟨run, hrun, (hjob run hrun).2.mpr ⟨by omega, hc0, hc1, ?_⟩⟩
    rw [hrow', hrow]; exact hcolor

/-- Settles O34: the circle's jobs lie in the panel, and what they store is R242's colours there. -/
theorem drawCircleDrawsItsPixels : Obligations.DrawCircleDrawsItsPixels := by
  intro s row col radius stroke width fill nr nc hs hc hk hw hdm hr choice hin ha
  have hjobs : drawingJobs (.drawCircle row col radius stroke width fill) s =
      circleJobs row col radius stroke width fill choice (some (nr, nc)) := by
    rw [drawingJobs, State.panel?_ready hk hc, hdm]
  obtain ⟨t, ht, hv, hrx, hdef⟩ := exec_drawing_rx (i := .drawCircle row col radius stroke width fill) rfl hs hc hw hdm hr
    (by rw [hjobs]; exact fun j hj => circleJobs_inPanel hin hj) (by rw [hjobs]; exact ha)
  rw [hjobs] at hrx
  have hstored := State.stored_colors hrx.px (color := fun r c =>
    if r < nr ∧ c < nc then circleColor row col radius stroke width fill r c else none) (mem_circleStores hin)
  refine ⟨t, ht, hv, hrx.undef, hdef, hrx.verdicts, fun r c hr hc => ?_, fun r c hout => ?_⟩
  · rw [hstored, if_pos ⟨hr, hc⟩, circleColor_eq]
    split
    · rfl
    split <;> rfl
  · rw [hstored, if_neg (by omega), Option.none_or]

/-! ### Texts (R246, R249) -/

/-- The runs of a text, clipped or not, are single foreground pixels. -/
theorem textRun_point {cells : List (List (Int × Int))} {choice : RenderChoice} {panel : Option (Nat × Nat)} {run : Run}
    (h : run ∈ clipPlan choice panel ((textPoints cells choice).map pointRun)) (hord : run.c0 ≤ run.c1) :
    run.c1 = run.c0 ∧ (run.row, run.c0) ∈ cells.flatten := by
  obtain ⟨whole, hwhole, hrow, hleft, hright⟩ := clipPlan_sub h
  obtain ⟨hone, hpoint⟩ := mem_textPlan.mp hwhole
  refine ⟨by omega, ?_⟩
  rwa [hrow, show run.c0 = whole.c0 by omega]

/-- The foreground pixels lie in the panel, or the renderer clips (N14). -/
def TextAdmitted (cells : List (List (Int × Int))) (nr nc : Nat) (choice : RenderChoice) : Prop :=
  (∀ rc ∈ cells.flatten, 0 ≤ rc.1 ∧ rc.1 < nr ∧ 0 ≤ rc.2 ∧ rc.2 < nc) ∨ choice.clips = true

/-- The runs of a text lie in the panel, if its foreground pixels do or the renderer clips. -/
theorem textRun_inPanel {cells : List (List (Int × Int))} {nr nc : Nat} {choice : RenderChoice}
    (hin : TextAdmitted cells nr nc choice) {run : Run}
    (h : run ∈ clipPlan choice (some (nr, nc)) ((textPoints cells choice).map pointRun)) : inPanel run nr nc := by
  refine clipPlan_inPanel (Or.imp_left (fun hpoints whole hwhole => ?_) hin) h
  obtain ⟨hone, hpoint⟩ := mem_textPlan.mp hwhole
  have := hpoints _ hpoint
  unfold inPanel
  omega

/-- A text's jobs lie in the panel, each of one pixel. -/
theorem textJobs_inPanel {p : Params} {choice : RenderChoice} {text : List Char} {row col nr nc : Nat} {align : Alignment}
    {color : Pixel} (hin : TextAdmitted (textCells p choice text row col align) nr nc choice)
    {j : Run × List Pixel} (hj : j ∈ textJobs p choice (some (nr, nc)) text row col align color) :
    inPanel j.1 nr nc ∧ (j.2.length : Int) = j.1.c1 - j.1.c0 + 1 := by
  obtain ⟨run, hrun, rfl⟩ := List.mem_map.mp hj
  obtain ⟨-, -, -, hord, -⟩ := textRun_inPanel hin hrun
  obtain ⟨hone, -⟩ := textRun_point hrun hord
  exact ⟨textRun_inPanel hin hrun, by simp [hone]⟩

/-- A job of one pixel. -/
theorem mem_jobStores_point {run : Run} {color : Pixel} (h0 : 0 ≤ run.row) (h1 : 0 ≤ run.c0) (e : PixelStore) :
    e ∈ jobStores (run, [color]) ↔ (e.r : Int) = run.row ∧ (e.c : Int) = run.c0 ∧ e.p = color := by
  obtain ⟨r, c, p⟩ := e
  simp only [jobStores, List.zipIdx_singleton, List.map_singleton, List.mem_singleton, PixelStore.mk.injEq]
  constructor
  · rintro ⟨rfl, rfl, rfl⟩; exact ⟨by omega, by omega, rfl⟩
  · rintro ⟨hr, hc, rfl⟩; exact ⟨by omega, by omega, rfl⟩

/-- A text's jobs store its colour at the foreground pixels in the panel, and nothing else. -/
theorem mem_textStores {p : Params} {choice : RenderChoice} {text : List Char} {row col nr nc : Nat} {align : Alignment}
    {color : Pixel} (hin : TextAdmitted (textCells p choice text row col align) nr nc choice) (e : PixelStore) :
    e ∈ (textJobs p choice (some (nr, nc)) text row col align color).flatMap jobStores ↔
      (if ((e.r : Int), (e.c : Int)) ∈ (textCells p choice text row col align).flatten ∧ e.r < nr ∧ e.c < nc then some color
        else none) = some e.p := by
  rw [textJobs, List.flatMap_map, List.mem_flatMap, Option.ite_none_right_eq_some]
  constructor
  · rintro ⟨run, hrun, he⟩
    obtain ⟨hrow, hlast, hleft, hord, hright⟩ := textRun_inPanel hin hrun
    obtain ⟨hone, hpoint⟩ := textRun_point hrun hord
    obtain ⟨her, hec, hep⟩ := (mem_jobStores_point hrow hleft e).mp he
    rw [her, hec, hep]
    exact ⟨⟨hpoint, by omega, by omega⟩, rfl⟩
  · rintro ⟨⟨hpoint, hr, hc⟩, hcolor⟩
    obtain ⟨run, hrun, hrow, hc0, hc1⟩ := clipPlan_covers (choice := choice) (nr := nr) (nc := nc) (c := e.c)
      ((mem_textPlan (run := { row := e.r, c0 := e.c, c1 := e.c })).mpr ⟨rfl, hpoint⟩) le_rfl le_rfl
      ⟨by simp, by simpa using hr, by simp, by omega⟩
    obtain ⟨hone, -⟩ := textRun_point hrun (by omega)
    simp only at hrow
    exact ⟨run, hrun, (mem_jobStores_point (by omega) (by omega) e).mpr ⟨by omega, by omega, (Option.some.inj hcolor).symm⟩⟩

/-- Settles O35: the text's jobs lie in the panel, and what they store is its foreground pixels there. -/
theorem drawTextDrawsItsPixels : Obligations.DrawTextDrawsItsPixels := by
  intro s text row col align color nr nc hs hc hk hw hdm hr choice points hin ha
  have hjobs : drawingJobs (.drawText text row col align color) s =
      textJobs s.cfg choice (some (nr, nc)) text row col align color := by
    rw [drawingJobs, State.panel?_ready hk hc, hdm]
  obtain ⟨t, ht, hv, hrx, hdef⟩ := exec_drawing_rx (i := .drawText text row col align color) rfl hs hc hw hdm hr
    (by rw [hjobs]; exact fun j hj => textJobs_inPanel hin hj)
    (by rw [hjobs]; exact State.answersOk_mono ha (Nat.mul_le_mul_left 6 (textJobs_length_le ..)))
  rw [hjobs] at hrx
  have hstored := State.stored_colors hrx.px (color := fun r c =>
    if ((r : Int), (c : Int)) ∈ points ∧ r < nr ∧ c < nc then some color else none) (mem_textStores hin)
  refine ⟨t, ht, hv, hrx.undef, hdef, fun r c => ?_⟩
  rw [hstored]
  split <;> rfl

end Sys2Proof.Machine
end

section
/-! PROOF. The obligations of 30_encoding.md: requests and descriptors (O6, O7, O8), the bytes on the wire (O9, O10, O19),
what the primitives, the commands and the host operations put on the wire when every transfer is `ok` (O12, O13, O17, O18,
O20, O21, O27, O33), which forms are refused (O23, O24, O38), and where drawing stores (O48). -/

namespace Sys2Proof.Machine

/-! ### Requests (R110, R112) -/

/-- The table byte of a command tells the command (R105). -/
theorem decodeCommand_tableByte (c : Cmd) (ops : List Half) : decodeCommand c.tableByte ops = decodeOperands c ops := by
  rw [decodeCommand, Cmd.tableByte, Opcodes.cmd?_byte (by decide) c]

theorem withoutPayload_eq_ok {payload : List Pixel} {i j : Instr} :
    withoutPayload payload i = .ok j ↔ i = j ∧ payload = [] := by
  cases payload <;> simp [withoutPayload]

/-- A descriptor of a known op, from its fields. -/
theorem descriptorWord_of_op {w : BitVec 68} {op : BitVec 4} (h : descriptorOp w = op) :
    descriptorWord op (descriptorA w) (descriptorB w) (descriptorC w) (descriptorD w) = w := h ▸ descriptorWord_fields w

/-- The operation `f` of one op without payload, read from the fields, encodes to the descriptor they were read from. -/
theorem encode_of_withoutPayload {f : Half → Half → Half → Half → Instr} {op : BitVec 4}
    (hf : ∀ a b c d, encode (f a b c d) = .descriptor (descriptorWord op a b c d) []) {w : BitVec 68} {px : List Pixel}
    {i : Instr} (hop : descriptorOp w = op)
    (h : withoutPayload px (f (descriptorA w) (descriptorB w) (descriptorC w) (descriptorD w)) = .ok i) :
    encode i = .descriptor w px := by
  obtain ⟨rfl, rfl⟩ := withoutPayload_eq_ok.mp h
  rw [hf, descriptorWord_of_op hop]

/-- A descriptor with its payload decodes to the operation that encodes to it, and to no other (R110, R112). -/
theorem decodeDescriptor_eq_ok {w : BitVec 68} {px : List Pixel} {i : Instr} :
    decodeDescriptor w px = .ok i ↔ encode i = .descriptor w px := by
  constructor
  · intro h
    unfold decodeDescriptor at h
    split at h
    next hop => exact encode_of_withoutPayload (f := .init) (fun _ _ _ _ => rfl) hop h
    split at h
    next hop => exact encode_of_withoutPayload (f := .setOrientation) (fun _ _ _ _ => rfl) hop h
    split at h
    next hop => exact encode_of_withoutPayload (f := .setAddressWindow) (fun _ _ _ _ => rfl) hop h
    split at h
    next hop => cases h; rw [encode, descriptorWord_of_op hop]
    split at h
    next hop => exact encode_of_withoutPayload (f := .clear) (fun _ _ _ _ => rfl) hop h
    · cases h
  · intro h
    cases i with
    | init | setOrientation | setAddressWindow | writePixelStream | clear =>
      cases h
      simp [decodeDescriptor, withoutPayload]
    | _ => cases h

/-- Settles O7: a command is told by its table byte, a host operation by its descriptor, and a call is itself. -/
theorem decodeOfEncodeIsTheInstruction : Obligations.DecodeOfEncodeIsTheInstruction := by
  intro i
  cases i with
  | slpout => exact decodeCommand_tableByte .slpout []
  | pixset => exact decodeCommand_tableByte .pixset []
  | madctl o => exact decodeCommand_tableByte .madctl [o]
  | dispon => exact decodeCommand_tableByte .dispon []
  | raset r0 r1 => exact decodeCommand_tableByte .raset [r0, r1]
  | caset c0 c1 => exact decodeCommand_tableByte .caset [c0, c1]
  | ramwr => exact decodeCommand_tableByte .ramwr []
  | init | setOrientation | setAddressWindow | writePixelStream | clear => exact decodeDescriptor_eq_ok.mpr rfl
  | sendCommand | sendPixels | drawCircle | drawText | plot => rfl

/-- Settles O8: the descriptor's decoder and its encoder are inverse to each other. -/
theorem encodeOfDecodeIsTheDescriptor : Obligations.EncodeOfDecodeIsTheDescriptor :=
  fun _ _ _ => decodeDescriptor_eq_ok.mp

/-- Settles O6: each word is decoded. -/
theorem wordsDecodeAsTheTableSays : Obligations.WordsDecodeAsTheTableSays := by
  unfold Obligations.WordsDecodeAsTheTableSays
  decide

/-! ### Bytes on the wire (R105 to R108, R115, R119) -/

/-- Settles O10: the bytes are the quotient and the remainder by 256. -/
theorem halfwordRoundTrip : Obligations.HalfwordRoundTrip := by
  refine fun v => ⟨?_, ofBytes_hi8_lo8 v⟩
  rw [hi8, lo8, BitVec.extractLsb'_toNat, BitVec.extractLsb'_toNat, Nat.shiftRight_eq_div_pow, Nat.shiftRight_zero]
  omega

/-- The bounds of RASET and CASET are told by their four bytes (R108). -/
theorem withBounds_boundArgs (f : Half → Half → Instr) (v0 v1 : Half) : withBounds f (boundArgs v0 v1) = .ok (f v0 v1) := by
  rw [boundArgs_eq, withBounds, ofBytes_hi8_lo8, ofBytes_hi8_lo8]

/-- The argument bytes of a layer-W operation tell its operands, if the orientation bytes are distinct. -/
theorem decodeArgs_wireCommand {p : Params} (hm : p.madctlDistinct = true) {i : Instr} {c : Cmd} {args : List Byte}
    (h : wireCommand? p i = some (c, args)) : decodeArgs p c args = .ok i := by
  cases i with
  | slpout | dispon | ramwr => cases h; rfl
  | pixset => cases h; simp [decodeArgs, withOneByte]
  | madctl o =>
    obtain ⟨m, hbyte, hca⟩ := Option.map_eq_some_iff.mp h
    cases hca
    simp [decodeArgs, withOneByte, Params.orientOf?_madctlOf? hm hbyte]
  | raset r0 r1 => cases h; exact withBounds_boundArgs .raset r0 r1
  | caset c0 c1 => cases h; exact withBounds_boundArgs .caset c0 c1
  | _ => cases h

/-- The opcode byte tells the command, and the argument bytes its operands. -/
theorem decodeWire_wireCommand {p : Params} (hd : p.opc.distinct = true) (hm : p.madctlDistinct = true) {i : Instr}
    {c : Cmd} {args : List Byte} (h : wireCommand? p i = some (c, args)) : decodeWire p (p.opc.byte c :: args) = .ok i := by
  rw [decodeWire, Opcodes.cmd?_byte hd]
  exact decodeArgs_wireCommand hm h

/-- Settles O9: the bytes are those of the operation's command. -/
theorem wireBytesDecodeToTheCommand : Obligations.WireBytesDecodeToTheCommand := by
  intro p i bytes hd hm h
  obtain ⟨⟨c, args⟩, hw, rfl⟩ := Option.map_eq_some_iff.mp h
  exact decodeWire_wireCommand hd hm hw

/-! ### The primitives and the commands, every transfer `ok` (R101, R102, R160) -/

theorem commandTransfers_eq (args : List Byte) : 1 + transfers args = if args = [] then 1 else 2 := by
  unfold transfers
  split <;> rfl

/-- Settles O12: SEND_COMMAND by its law. -/
theorem sendCommandCompletes : Obligations.SendCommandCompletes := by
  intro s opcode args c hs hc hl ha
  rw [← commandTransfers_eq] at ha ⊢
  simp only [exec, execSendCommand, whenRunning_idle hs, hc, if_pos hl, sendCommand_ok ha, settle_ok, finish_ok]
  rfl

/-- Settles O13: SEND_PIXELS by its law. -/
theorem sendPixelsCompletes : Obligations.SendPixelsCompletes := by
  intro s bytes hs ha
  have hbody := sendPixels_ok (bytes := bytes) ha
  simp only [exec, execSendPixels, whenRunning_idle hs, hbody, settle_ok, finish_ok]
  rfl

/-- A command at the Bus Transport's boundary, every transfer `ok`: its frame, and nothing else. -/
theorem runCommand_ok {s : State} {args : List Byte} (hs : s.spi = .idle) (ha : s.answersOk (1 + transfers args)) (c : Cmd) :
    runCommand c args s =
      .next ((s.sent (commandFrame (s.cfg.opc.byte c) args) (1 + transfers args)).complete .ok) := by
  rw [runCommand, whenRunning_idle hs, sendCommand_ok ha, settle_ok, finish_ok]

/-- Settles O17: each is its command, with its one argument. -/
theorem commandsWithOneArgumentComplete : Obligations.CommandsWithOneArgumentComplete := by
  intro s hs ha
  refine ⟨?_, fun o row hrow => ?_⟩
  · exact (exec_wire rfl).trans (runCommand_ok (args := [s.cfg.pixfmtArg]) hs ha .pixset)
  · have hw : wireCommand? s.cfg (.madctl o) = some (.madctl, [row.madctl]) := by
      rw [wireCommand?, madctlOf?_row hrow]; rfl
    exact (exec_wire hw).trans (runCommand_ok (args := [row.madctl]) hs ha .madctl)

/-- Settles O18: each is its command, with its bounds' four bytes. -/
theorem windowCommandsComplete : Obligations.WindowCommandsComplete := by
  intro s v0 v1 hs ha
  exact ⟨(exec_wire rfl).trans (runCommand_ok (args := boundArgs v0 v1) hs ha .raset),
    (exec_wire rfl).trans (runCommand_ok (args := boundArgs v0 v1) hs ha .caset)⟩

/-- Settles O19: the frame on the wire is that of the operation's command, whose bytes decode to it. -/
theorem commandFrameTellsTheCommand : Obligations.CommandFrameTellsTheCommand := by
  intro s t i hi hd hm hs ha h
  obtain ⟨c, args, hw⟩ := wireCommand?_of_next hi h
  have hn := transfers_le args
  rw [exec_wire hw, runCommand_ok hs (State.answersOk_mono ha (by omega))] at h
  cases h
  exact ⟨s.cfg.opc.byte c, args, rfl, decodeWire_wireCommand hd hm hw⟩

/-! ### INIT, every transfer `ok` (R103, R191, R192, R199) -/

/-- INIT's commands from number `k` on: their frames, ORIENT written by command 2, and all of them counted. -/
theorem runInitTable_sent (o : Half) (k : Nat) {table : List (Cmd × List Byte)} (hne : table ≠ []) {s : State}
    (h : s.answersOk (tableTransfers table)) :
    runInitTable o k table s = ({ s.sent (commandFrames s.cfg table) (tableTransfers table) with
      ctrl := .ready
      initStep := BitVec.ofNat 3 (k + table.length)
      orient := if k ≤ 2 ∧ 2 < k + table.length then some o else s.orient }, .ok) := by
  induction table generalizing k s with
  | nil => exact absurd rfl hne
  | cons ca rest ih =>
    have hca : s.answersOk (1 + transfers ca.2) := State.answersOk_mono h (by simp [tableTransfers])
    rw [runInitTable, sendCommand_ok hca, andThen_ok]
    cases rest with
    | nil =>
      have hk : k ≤ 2 ∧ 2 < k + 1 ↔ k = 2 := by omega
      simp only [runInitTable, commandDone, List.length_singleton, hk]
      simp [commandFrames, tableTransfers, State.sent]
    | cons cb rest' =>
      have hk : (k + 1 ≤ 2 ∧ 2 < k + 1 + (cb :: rest').length) ∨ k = 2 ↔
          k ≤ 2 ∧ 2 < k + (ca :: cb :: rest').length := by simp only [List.length_cons]; omega
      rw [ih (k + 1) (by simp) (s := commandDone o k (s.sent _ _))
        (State.answersOk_sent (commandFrame (s.cfg.opc.byte ca.1) ca.2) h)]
      simp only [commandDone, ← ite_or, hk]
      simp [commandFrames, tableTransfers, State.sent, Nat.add_assoc, Nat.add_comm, Nat.add_left_comm]

/-- Settles O20: the reset pulse, then the four commands of the table, and the host's note. -/
theorem initCompletes : Obligations.InitCompletes := by
  intro s o b c2 d row hs hc hrow ha
  have hbody := runInitTable_sent o 0 (table := s.cfg.initTable row.madctl) (by simp [Params.initTable]) (s := { s with
    latches := { opc := 0, opa := o, opb := b, opc2 := c2, opd := d }
    ctrl := .initializing, initStep := 0, rstN := true, tr := s.tr ++ resetFrame s.cfg }) ha
  simp only [exec, execInit, whenRunning_idle hs, hostInit_eq hc hrow, hbody, noted_ok, settle_ok, finish_ok]
  simp [State.complete, State.noteOrient, State.sent, Params.initTable, commandFrames, resetFrame, tableTransfers, transfers,
    Opcodes.byte]

/-- Settles O21: the exact state of O20, from reset. -/
theorem initTraceFromReset : Obligations.InitTraceFromReset := by
  intro answers o row hans hrow
  have ha : ({ State.reset with spiScript := answers } : State).answersOk 6 := fun k hk => by
    simp [State.answerAt, State.reset, State.resetWith, hans k hk]
  exact ⟨_, initCompletes _ o 0 0 0 row rfl rfl hrow ha, rfl, rfl, rfl, rfl, rfl, rfl, rfl, rfl, rfl⟩

/-! ### Windows and PLOT, every transfer `ok` (R117, R211) -/

/-- SET_ADDRESS_WINDOW in Ready with good bounds, every transfer `ok`. -/
theorem hostWindow_ok {s : State} {r0 r1 c0 c1 : Half} {nr nc : Nat} (hc : s.ctrl = .ready) (hdm : s.dims? = some (nr, nc))
    (hb : boundsOk nr nc r0 r1 c0 c1 = true) (ha : s.answersOk 5) : hostWindow r0 r1 c0 c1 s =
      .ok ((s.accept 2 r0 r1 c0 c1).sent (commandFrames s.cfg (windowTable r0 r1 c0 c1)) 5, .ok) :=
  (hostWindow_eq hc hdm hb).trans (congrArg Except.ok (windowBody_ok (s := s.accept 2 r0 r1 c0 c1) ha r0 r1 c0 c1))

/-- Settles O27: admission, then the three frames. -/
theorem setAddressWindowCompletes : Obligations.SetAddressWindowCompletes := by
  intro s r0 r1 c0 c1 nr nc hs hc hdm hr hrow hcol hcols ha
  have hwindow := hostWindow_ok hc hdm (boundsOk_iff.mpr ⟨hr, hrow, hcol, hcols⟩) ha
  simp only [exec, execSetAddressWindow, whenRunning_idle hs, hwindow, settle_ok, finish_ok]
  rfl

/-- A window and a stream of at least one pixel, in Ready with good bounds, every transfer `ok`. -/
theorem windowStream_ok {s : State} {r0 r1 c0 c1 : Half} {nr nc : Nat} (hc : s.ctrl = .ready)
    (hdm : s.dims? = some (nr, nc)) (hb : boundsOk nr nc r0 r1 c0 c1 = true) {px : List Pixel} (hpx : px ≠ [])
    (ha : s.answersOk 6) : andThenHost (hostWindow r0 r1 c0 c1 s) (hostStream 0 0 0 0 px) =
      .ok ((s.accept 3 0 0 0 0).sent (commandFrames s.cfg (windowTable r0 r1 c0 c1) ++ dataFrame (pixelBytes px)) 6, .ok) := by
  have ht : transfers (pixelBytes px) = 1 := by simp [transfers, hpx]
  rw [hostWindow_ok hc hdm hb (State.answersOk_mono ha (by omega)), andThenHost_ok, hostStream_eq (by exact hc),
    streamBody_ok, ht]
  · simp [State.sent, State.accept]
  · rw [ht]
    exact State.answersOk_sent (s := s) (m := 5) [] ha

/-- Settles O33: the window of one pixel, then one pixel. -/
theorem plotCompletes : Obligations.PlotCompletes := by
  intro s r c p nr nc hs hc hdm hr hcol ha
  have hplot := windowStream_ok hc hdm (boundsOk_iff.mpr ⟨le_rfl, hr, le_rfl, hcol⟩) (px := [p]) (by simp) ha
  simp only [exec, execPlot, whenRunning_idle hs, hplot, settle_ok, finish_ok]
  rfl

/-! ### Admission by STATE (R190) -/

theorem hostWindow_notReady {s : State} (hc : s.ctrl ≠ .ready) (r0 r1 c0 c1 : Half) :
    hostWindow r0 r1 c0 c1 s = .error .notReady := whenReady_notReady hc _

theorem hostStream_notReady {s : State} (hc : s.ctrl ≠ .ready) (a b c2 d : Half) (px : List Pixel) :
    hostStream a b c2 d px s = .error .notReady := whenReady_notReady hc _

theorem hostClear_notReady {s : State} (hc : s.ctrl ≠ .ready) (color : Pixel) (b c2 d : Half) :
    hostClear color b c2 d s = .error .notReady := whenReady_notReady hc _

theorem hostOrientation_notReady {s : State} (hc : s.ctrl ≠ .ready) (o b c2 d : Half) :
    hostOrientation o b c2 d s = .error .notReady := whenReady_notReady hc _

theorem hostInit_notUnpowered {s : State} (hc : s.ctrl ≠ .unpowered) (o b c2 d : Half) :
    hostInit o b c2 d s = .error .notUnpowered := whenUnpowered_other hc _

/-- A run's window is refused by STATE, whether its coordinates are bounds or not. -/
theorem hostRun_notReady {s : State} (hc : s.ctrl ≠ .ready) (run : Run) : hostRun run s = .error .notReady := by
  unfold hostRun
  split
  · exact hostWindow_notReady hc ..
  · exact whenReady_notReady hc _

/-- Outside Ready the first of a request's windows is refused. -/
theorem drawJobs_notReady {s : State} (hc : s.ctrl ≠ .ready) {jobs : List (Run × List Pixel)} (hne : jobs ≠ []) :
    drawJobs jobs s = .error .notReady := by
  cases jobs with
  | nil => exact absurd rfl hne
  | cons job rest => rw [drawJobs, hostRun_notReady hc, andThenHost_error, andThenHost_error]

/-- A drawing request that issues a window is refused outside Ready. -/
theorem exec_drawing_notReady {i : Instr} (hi : isDraw i = true) {s : State} (hs : s.spi = .idle) (hc : s.ctrl ≠ .ready)
    (hne : drawingJobs i s ≠ []) : exec i s = .refused .notReady := by
  rw [exec_drawing hi, whenRunning_idle hs, drawJobs_notReady (s := s.drawChoice) hc hne, settle_error]

/-- Every circle touches its centre, so it is drawn by at least one run. -/
theorem circlePlan_ne_nil (row col radius : Nat) (choice : RenderChoice) : circlePlan row col radius choice ≠ [] := by
  have hcentre : dist2 row col row col ≤ (radius : Int) * radius := by
    rw [dist2, sub_self, sub_self, mul_zero, add_zero]
    exact mul_self_nonneg _
  obtain ⟨run, hrun, -⟩ := (circlePlanOk_iff.mp (circlePlan_ok row col radius choice)).2 _ _ hcentre
  exact List.ne_nil_of_mem hrun

/-- Settles O23: INIT and the Ready operations by their admission, a drawing request by that of its first window, which
the host has none clipped from outside Ready. -/
theorem admissionByState : Obligations.AdmissionByState := by
  intro s hs
  refine ⟨fun o b c2 d hc => ?_, fun hc => ⟨fun o b c2 d => ?_, fun r0 r1 c0 c1 => ?_, fun a b c2 d px => ?_,
    fun color b c2 d => ?_, fun r c p => ?_, fun row col radius stroke width fill hk => ?_,
    fun text row col align color hk hne => ?_⟩⟩
  · rw [exec, execInit, whenRunning_idle hs, hostInit_notUnpowered hc, settle_error]
  · rw [exec, execSetOrientation, whenRunning_idle hs, hostOrientation_notReady hc, settle_error]
  · rw [exec, execSetAddressWindow, whenRunning_idle hs, hostWindow_notReady hc, settle_error]
  · rw [exec, execWritePixelStream, whenRunning_idle hs, hostStream_notReady hc, settle_error]
  · rw [exec, execClear, whenRunning_idle hs, hostClear_notReady hc, settle_error]
  · rw [exec, execPlot, whenRunning_idle hs, hostWindow_notReady hc, andThenHost_error, settle_error]
  · refine exec_drawing_notReady rfl hs hc ?_
    rw [drawingJobs, circleJobs, State.panel?_notReady hk hc, clipPlan_none, ne_eq, List.map_eq_nil_iff]
    exact circlePlan_ne_nil row col radius _
  · refine exec_drawing_notReady rfl hs hc ?_
    rw [drawingJobs, textJobs, State.panel?_notReady hk hc, clipPlan_none, ne_eq, List.map_eq_nil_iff,
      ← List.length_eq_zero_iff, textPlan_length, List.length_eq_zero_iff]
    exact hne

/-! ### Forms without a meaning (R114) -/

theorem decodeDescriptor_reserved {w : BitVec 68} (h : 5 ≤ (descriptorOp w).toNat) (px : List Pixel) :
    decodeDescriptor w px = .error .reservedOp := by
  have hop : ∀ op : BitVec 4, op.toNat < 5 → descriptorOp w ≠ op := by rintro _ hlt rfl; omega
  simp [decodeDescriptor, hop]

theorem runRequest_rejected {r : Request} {e : DecodeError} (h : decode r = .error e) (s : State) :
    runRequest true r s = .refused (refusalOf e) := by simp [runRequest, h]

/-- Bounds outside the panel are refused (R114 (d)). -/
theorem hostWindow_outOfBounds {s : State} {r0 r1 c0 c1 : Half} {nr nc : Nat} (hc : s.ctrl = .ready)
    (hdm : s.dims? = some (nr, nc)) (hb : ¬ boundsOk nr nc r0 r1 c0 c1 = true) :
    hostWindow r0 r1 c0 c1 s = .error .windowOutOfBounds := by
  simp only [hostWindow, whenReady_ready hc, hdm, if_neg hb]

theorem whenOrient_outside {s : State} {o : Half} (h : s.cfg.orientSet.length ≤ o.toNat)
    (k : Byte → State → Except Refusal (State × Status)) : whenOrient o s k = .error .orientationOutsideSet := by
  rw [whenOrient, madctlOf?_none h]

/-- Settles O24: the decoder's rejection, and each operation's check of its operands. -/
theorem formsWithoutMeaningAreRefused : Obligations.FormsWithoutMeaningAreRefused := by
  refine fun s hs => ⟨fun w px rest hb hp hop => ?_, fun o ho => ⟨fun b c2 d hc => ?_, fun b c2 d hc => ?_⟩,
    fun nr nc r0 r1 c0 c1 hc hdm hout => ?_, fun opcode args hn => ?_, fun opcode args c hcmd hl => ?_⟩
  · exact (step_takes_port hs hb hp).trans (runRequest_rejected (r := .descriptor w px) (decodeDescriptor_reserved hop px) _)
  · rw [exec, execInit, whenRunning_idle hs, hostInit, whenUnpowered_unpowered hc, whenOrient_outside ho, settle_error]
  · rw [exec, execSetOrientation, whenRunning_idle hs, hostOrientation, whenReady_ready hc, whenOrient_outside ho,
      settle_error]
  · have hb : ¬ boundsOk nr nc r0 r1 c0 c1 = true := by rw [boundsOk_iff]; omega
    rw [exec, execSetAddressWindow, whenRunning_idle hs, hostWindow_outOfBounds hc hdm hb, settle_error]
  · rw [exec, execSendCommand, whenRunning_idle hs, hn]
  · rw [exec, execSendCommand, whenRunning_idle hs, hcmd]
    exact if_neg hl

/-! ### Drawing off the panel (R244, R249) -/

/-- A drawing request in Ready with a run off the panel is refused, the transfers before it being `ok`. -/
theorem exec_drawing_offPanel {i : Instr} (hi : isDraw i = true) {s : State} {nr nc : Nat} (hs : s.spi = .idle)
    (hc : s.ctrl = .ready) (hdm : s.dims? = some (nr, nc)) (hp : ∃ j ∈ drawingJobs i s, ¬ inPanel j.1 nr nc)
    (ha : s.answersOk (6 * (drawingJobs i s).length)) : exec i s = .refused .windowOutOfBounds := by
  rw [exec_drawing hi, whenRunning_idle hs, drawJobs_refused (s := s.drawChoice) _ hs hc hdm hp ha, settle_error]

/-- A circle that crosses an edge touches a pixel beyond it: the outermost of its row or its column. -/
theorem circle_crosses {row col radius nr nc : Nat}
    (h : row < radius ∨ nr ≤ row + radius ∨ col < radius ∨ nc ≤ col + radius) :
    ∃ r c : Int, dist2 row col r c ≤ (radius : Int) * radius ∧ (r < 0 ∨ nr ≤ r ∨ c < 0 ∨ nc ≤ c) := by
  obtain h | h | h | h := h
  · exact ⟨row - radius, col, by simp [dist2], by omega⟩
  · exact ⟨row + radius, col, by simp [dist2], by omega⟩
  · exact ⟨row, col - radius, by simp [dist2], by omega⟩
  · exact ⟨row, col + radius, by simp [dist2], by omega⟩

/-- A run that covers a pixel off the panel is off the panel. -/
theorem not_inPanel_of_covers {run : Run} {nr nc : Nat} {c : Int} (h0 : run.c0 ≤ c) (h1 : c ≤ run.c1)
    (hout : run.row < 0 ∨ nr ≤ run.row ∨ c < 0 ∨ nc ≤ c) : ¬ inPanel run nr nc := by
  unfold inPanel
  omega

/-- Settles O38: PLOT by its window, and an unclipped drawing by the run of a pixel beyond the edge. -/
theorem offPanelDrawingIsRefused : Obligations.OffPanelDrawingIsRefused := by
  refine fun s nr nc hs hc hdm => ⟨fun r c p hout => ?_,
    fun hclip => ⟨fun row col radius stroke width fill hout ha => ?_, ?_⟩⟩
  · have hb : ¬ boundsOk nr nc r r c c = true := by rw [boundsOk_iff]; omega
    rw [exec, execPlot, whenRunning_idle hs, hostWindow_outOfBounds hc hdm hb, andThenHost_error, settle_error]
  · refine exec_drawing_offPanel rfl hs hc hdm ?_ ?_ <;>
      rw [drawingJobs, circleJobs, clipPlan_unclipped hclip]
    · obtain ⟨r, c, htouched, hrc⟩ := circle_crosses hout
      obtain ⟨run, hrun, rfl, h0, h1⟩ := (circlePlanOk_iff.mp (circlePlan_ok row col radius _)).2 _ _ htouched
      exact ⟨_, List.mem_map_of_mem hrun, not_inPanel_of_covers h0 h1 hrc⟩
    · rw [List.length_map]
      exact ha
  · intro text row col align color points hout ha
    refine exec_drawing_offPanel rfl hs hc hdm ?_ ?_ <;>
      rw [drawingJobs, textJobs, clipPlan_unclipped hclip]
    · obtain ⟨rc, hrc, hout⟩ := hout
      exact ⟨_, List.mem_map_of_mem ((mem_textPlan (run := pointRun rc)).mpr ⟨rfl, hrc⟩),
        not_inPanel_of_covers le_rfl le_rfl hout⟩
    · rw [List.length_map, textPlan_length]
      exact ha

/-! ### Where drawing stores (R79, R216, R242, R246) -/

/-- An address where an operation's body stored nothing keeps its content. -/
theorem StoredIn.keeps {s : State} {r : State × Status} {P : PixelStore → Prop} (h : StoredIn s r P)
    (hcol : ∀ e, P e → e.c < 65536) {row col : Nat} (hn : ∀ e, P e → ¬ (row = e.r ∧ col = e.c)) (err : Completion) :
    (finish err r).stored row col = s.stored row col := by
  obtain ⟨stores, hpx, hin⟩ := h
  rw [State.stored_finish]
  exact StoredIn.stored hpx (fun e he => hcol e (hin e he)) fun e he => hn e (hin e he)

theorem inWindow_column {r0 r1 c0 c1 : Half} {e : PixelStore} (h : inWindow r0 r1 c0 c1 e) : e.c < 65536 := by
  obtain ⟨-, -, -, hright⟩ := h
  have := c1.isLt
  omega

/-- A drawing request stores in its runs only: it leaves every address alone that none of them covers. -/
theorem exec_drawing_keeps {i : Instr} (hi : isDraw i = true) {s t : State} (hd : s.cfg.opc.distinct = true)
    (h : exec i s = .next t) {r c : Nat}
    (hn : ∀ run px, (run, px) ∈ drawingJobs i s → (r : Int) = run.row → run.c0 ≤ (c : Int) → ¬ (c : Int) ≤ run.c1) :
    t.stored r c = s.stored r c := by
  rw [exec_drawing hi] at h
  obtain ⟨q, hq, rfl⟩ := settle_next (whenRunning_next h).2
  refine (StoredIn.keeps (drawJobs_stored (s := s.drawChoice) _ hd hq) (fun e he => he.1) ?_ _).trans
    (State.stored_congr rfl r c)
  rintro e ⟨-, j, hj, hrow, hleft, hright⟩ ⟨rfl, rfl⟩
  exact hn _ _ hj hrow hleft hright

/-- Settles O48: the window CLEAR or PLOT sets, and the runs of a circle or a text. -/
theorem drawingStoresOnlyItsPixels : Obligations.DrawingStoresOnlyItsPixels := by
  refine ⟨fun s t color b c2 d nr nc hw hdm h r c hout => ?_, fun s t r0 c0 p hd h r c hne => ?_,
    fun s t row col radius stroke width fill hd h r c hfar => ?_, fun s t text row col align color hd h r c hnot => ?_⟩
  · obtain ⟨hnr, hnc⟩ := State.dims?_range hw hdm
    simp only [exec, execClear] at h
    obtain ⟨q, hq, rfl⟩ := settle_next (whenRunning_next h).2
    obtain ⟨-, nr', nc', hdm', rfl⟩ := hostClear_next hq
    cases hdm.symm.trans hdm'
    refine (clearBody_stored (params_wf_iff.mp hw).1 ..).keeps (fun _ => inWindow_column) ?_ _
    rintro e ⟨-, hrow, -, hcol⟩ ⟨rfl, rfl⟩
    rw [toNat_lastBound hnr.1 hnr.2] at hrow
    rw [toNat_lastBound hnc.1 hnc.2] at hcol
    omega
  · simp only [exec, execPlot] at h
    obtain ⟨q, hq, rfl⟩ := settle_next (whenRunning_next h).2
    refine (windowStream_stored hd hq).keeps (fun _ => inWindow_column) ?_ _
    rintro e ⟨htop, hbottom, hleft, hright⟩ ⟨rfl, rfl⟩
    exact hne (Prod.ext (Nat.le_antisymm hbottom htop) (Nat.le_antisymm hright hleft))
  · refine exec_drawing_keeps rfl hd h fun run px hj hrow h0 h1 => ?_
    obtain ⟨_, hrun, hjob⟩ := List.mem_map.mp hj
    cases hjob
    have htouched := circleRun_touched hrun h0 h1
    rw [dist2, ← hrow] at htouched
    nlinarith
  · refine exec_drawing_keeps rfl hd h fun run px hj hrow h0 h1 => hnot ?_
    obtain ⟨_, hrun, hjob⟩ := List.mem_map.mp hj
    cases hjob
    obtain ⟨hone, hpoint⟩ := textRun_point hrun (h0.trans h1)
    rwa [hrow, show (c : Int) = run.c0 by omega]

end Sys2Proof.Machine
end

section
/-! PROOF. The obligations of 40_bus_transport.md: the failed and the stalled primitive (O14, O15), the block after a stall
(O3), what the layers W and T leave unchanged (O43), and the discipline of the wire (O51). -/

namespace Sys2Proof.Machine

/-! ### After a stall (R146) -/

theorem runCommand_stalled {s : State} (hs : s.spi = .stalled) (c : Cmd) (args : List Byte) :
    runCommand c args s = .fault .transferStalled := by
  rw [runCommand, whenRunning_stalled hs]

/-- No operation begins while a transfer is stalled, MADCTL with any orientation included. -/
theorem exec_stalled {s : State} (hs : s.spi = .stalled) (i : Instr) : exec i s = .fault .transferStalled := by
  cases i with
  | madctl o =>
    simp only [exec, execMadctl]
    cases s.cfg.madctlOf? o with
    | some m => exact runCommand_stalled hs ..
    | none => exact whenRunning_stalled hs _
  | slpout | pixset | dispon | ramwr | raset r0 r1 | caset c0 c1 => exact (exec_wire rfl).trans (runCommand_stalled hs ..)
  | _ =>
    simp only [exec, execInit, execSetOrientation, execSetAddressWindow, execWritePixelStream, execClear, execSendCommand,
      execSendPixels, execDrawCircle, execDrawText, execPlot, whenRunning_stalled hs]

/-- Settles O3: an operation and a step both look at the SPI master first. -/
theorem stalledBlockTakesNoStep : Obligations.StalledBlockTakesNoStep :=
  fun _ i hs => ⟨exec_stalled hs i, whenRunning_stalled hs _⟩

/-! ### The primitives that fail or stall (R145, R146) -/

/-- SEND_COMMAND with one of the seven opcodes and its argument count runs (R114 (e)). -/
theorem exec_sendCommand_admitted {s : State} {opcode : Byte} {args : List Byte} {c : Cmd} (hs : s.spi = .idle)
    (hc : s.cfg.opc.cmd? opcode = some c) (hl : args.length = c.argCount) :
    exec (.sendCommand opcode args) s = .next (finish .busError (sendCommand opcode args s)) := by
  simp only [exec, execSendCommand, whenRunning_idle hs, hc, if_pos hl, settle_ok]

theorem exec_sendPixels_idle {s : State} (hs : s.spi = .idle) (bytes : List Byte) :
    exec (.sendPixels bytes) s = .next (finish .busError (sendPixels bytes s)) := by
  simp only [exec, execSendPixels, whenRunning_idle hs, settle_ok]

/-- An answer of R13 is not cut: a failure delivers the bytes it names. -/
theorem deliveredOnFail_of_lt {k len : Nat} (h : k < len) : deliveredOnFail k len = k := by
  rw [deliveredOnFail]
  omega

/-- The first transfer's answer, where it fails or stalls. -/
theorem State.failsAt.first {s : State} {k : Nat} (h : s.failsAt 0 k) : s.answerAt s.spiDrawn = .fail k := h.2

theorem State.stallsAt.first {s : State} (h : s.stallsAt 0) : s.answerAt s.spiDrawn = .stall := h.2

/-- Settles O14: each place of failure by its law, and the end hands back the error. -/
theorem primitiveFailurePath : Obligations.PrimitiveFailurePath := by
  refine ⟨fun s opcode args c k hs hc hl hf => ?_, fun s opcode args c k hs hc hl hk hf => ?_, fun s bytes k hs hk hf => ?_⟩
  · rw [exec_sendCommand_admitted hs hc hl, sendCommand_failsOpcode hf.first]
    rfl
  · have hne : args ≠ [] := List.length_pos_iff.mp (by omega)
    rw [exec_sendCommand_admitted hs hc hl, sendCommand_failsArgs hf hne, deliveredOnFail_of_lt hk]
    rfl
  · have hne : bytes ≠ [] := List.length_pos_iff.mp (by omega)
    rw [exec_sendPixels_idle hs, sendPixels_fails hf.first hne, deliveredOnFail_of_lt hk]
    rfl

/-- Settles O15: each place of a stall by its law, and the end hands back nothing. -/
theorem stalledPrimitive : Obligations.StalledPrimitive := by
  refine ⟨fun s opcode args c hs hc hl hf => ?_, fun s opcode args c hs hc hl hne hf => ?_, fun s bytes hs hne hf => ?_⟩
  · rw [exec_sendCommand_admitted hs hc hl, sendCommand_stallsOpcode hf.first, finish_stuck]
  · rw [exec_sendCommand_admitted hs hc hl, sendCommand_stallsArgs hf hne, finish_stuck]
  · rw [exec_sendPixels_idle hs, sendPixels_stalls hf.first hne, finish_stuck]

/-! ### What the layers W and T leave unchanged (R140, R141, R143) -/

/-- A SEND_COMMAND that takes a next state was admitted (R114 (e)). -/
theorem exec_sendCommand_next {s t : State} {opcode : Byte} {args : List Byte}
    (h : exec (.sendCommand opcode args) s = .next t) :
    (∃ c, s.cfg.opc.cmd? opcode = some c ∧ args.length = c.argCount) ∧
      t = finish .busError (sendCommand opcode args s) := by
  simp only [exec, execSendCommand] at h
  obtain ⟨-, h⟩ := whenRunning_next h
  split at h
  · cases h
  next c hc =>
    split at h
    next hl =>
      cases h
      exact ⟨⟨c, hc, hl⟩, rfl⟩
    next => cases h

theorem exec_sendPixels_next {s t : State} {bytes : List Byte} (h : exec (.sendPixels bytes) s = .next t) :
    t = finish .busError (sendPixels bytes s) := by
  simp only [exec, execSendPixels] at h
  cases (whenRunning_next h).2
  rfl

/-- An operation at the Bus Transport's boundary runs one primitive. -/
theorem exec_boundary_kept {s t : State} {i : Instr} (hi : opLayer i = .wire ∨ opLayer i = .transport)
    (h : exec i s = .next t) : ∃ r, t = finish .busError r ∧ Kept s r.1 := by
  obtain hw | ht := hi
  · obtain ⟨c, args, hw⟩ := wireCommand?_of_next hw h
    rw [exec_wire hw] at h
    exact ⟨_, (runCommand_next h).2, sendCommand_kept ..⟩
  · cases i with
    | sendCommand opcode args => exact ⟨_, (exec_sendCommand_next h).2, sendCommand_kept ..⟩
    | sendPixels bytes => exact ⟨_, exec_sendPixels_next h, sendPixels_kept ..⟩
    | _ => cases ht

/-- Settles O43: the primitive keeps all but the transport's fields, and the end adds a completion value alone. -/
theorem transportFrame : Obligations.TransportFrame := by
  intro s t i hi h
  obtain ⟨r, rfl, hkept⟩ := exec_boundary_kept hi h
  unfold Kept at hkept
  rw [finish_eq, hkept]

/-! ### The discipline of the wire (R149, R170, R262) -/

/-- A layer-W operation's command has the arguments its opcode takes (R105). -/
theorem wireCommand?_counted {p : Params} {i : Instr} {c : Cmd} {args : List Byte}
    (h : wireCommand? p i = some (c, args)) : args.length = c.argCount := by
  cases i with
  | madctl o =>
    obtain ⟨m, -, hca⟩ := Option.map_eq_some_iff.mp h
    cases hca
    rfl
  | slpout | pixset | dispon | ramwr | raset r0 r1 | caset c0 c1 => cases h; rfl
  | _ => cases h

/-- Outside a frame the reset pulse and the waits leave the scan where it is (R149 (e)). -/
theorem FrameScan.run_resetFrame (p : Params) {f : FrameScan} (hf : f.inFrame = false) :
    f.run p (resetFrame p) = some f := by
  simp [resetFrame, FrameScan.run_cons, FrameScan.run_nil, FrameScan.event, hf]

/-- The reset frame keeps the discipline while chip-select is released. -/
theorem State.WireOk.resetFrame {s : State} (hw : s.WireOk) (hcs : s.csN = true) :
    State.WireOk { s with tr := s.tr ++ Machine.resetFrame s.cfg } := by
  obtain ⟨f, hrun, hin, hlevel⟩ := hw
  refine ⟨f, ?_, hin, hlevel⟩
  rw [FrameScan.run_append, hrun]
  exact FrameScan.run_resetFrame s.cfg (by rw [hin, hcs]; rfl)

/-- Handing back the completion value is not seen on the wire. -/
theorem WireKept.finish {r : State × Status} (h : WireKept r) (err : Completion) : (Machine.finish err r).WireOk := by
  rw [finish_eq]
  exact h.1.of_eq rfl rfl rfl rfl

theorem clearBody_wireKept (color : Pixel) (nr nc : Nat) {s : State} (hd : s.cfg.opc.distinct = true) (hw : s.WireOk)
    (hcs : s.csN = true) : WireKept (clearBody color nr nc s) :=
  (sendCommands_wireKept _ (windowTable_counted _ _ _ _) hd hw hcs).andThen fun hw' hcs' =>
    fillFrames_wireKept color _ hw' hcs'

theorem orientationBody_wireKept (o : Half) (m : Byte) {s : State} (hd : s.cfg.opc.distinct = true) (hw : s.WireOk)
    (hcs : s.csN = true) : WireKept (orientationBody o m s) :=
  (sendCommand_wireKept hw hcs (Opcodes.cmd?_byte hd _) rfl).andThen fun hw' hcs' =>
    ⟨hw'.of_eq rfl rfl rfl rfl, fun _ => hcs'⟩

section
variable {s : State} (hd : s.cfg.opc.distinct = true) (hw : s.WireOk) (hcs : s.csN = true)
include hd hw hcs

theorem hostInit_wireKept {o b c2 d : Half} {r : State × Status} (h : hostInit o b c2 d s = .ok r) : WireKept r := by
  obtain ⟨-, m, -, rfl⟩ := hostInit_next h
  refine WireKept.noted (runInitTable_wireKept o 0 _ (initTable_counted s.cfg m) ?_ ?_ ?_) o
  · exact hd
  · exact (hw.resetFrame hcs).of_eq rfl rfl rfl rfl
  · exact hcs

theorem hostOrientation_wireKept {o b c2 d : Half} {r : State × Status} (h : hostOrientation o b c2 d s = .ok r) :
    WireKept r := by
  obtain ⟨-, m, -, rfl⟩ := hostOrientation_next h
  exact (orientationBody_wireKept o m (s := s.accept 1 o b c2 d) hd (hw.of_eq rfl rfl rfl rfl) hcs).noted o

theorem hostClear_wireKept {color : Pixel} {b c2 d : Half} {r : State × Status} (h : hostClear color b c2 d s = .ok r) :
    WireKept r := by
  obtain ⟨-, nr, nc, -, rfl⟩ := hostClear_next h
  exact clearBody_wireKept color nr nc (s := s.accept 4 color b c2 d) hd (hw.of_eq rfl rfl rfl rfl) hcs

/-- A window and its pixels, as PLOT issues them (R117). -/
theorem windowStream_wireKept {r0 r1 c0 c1 a b c2 d : Half} {px : List Pixel} {r : State × Status}
    (h : andThenHost (hostWindow r0 r1 c0 c1 s) (hostStream a b c2 d px) = .ok r) : WireKept r :=
  WireKept.andThenHost (fun _ hq => hostWindow_wireKept hd hw hcs hq)
    (fun _ _ _ hw' hcs' hq => hostStream_wireKept hw' hcs' hq) h

theorem drawing_wireKept {i : Instr} {r : State × Status} (h : drawJobs (drawingJobs i s) s.drawChoice = .ok r) :
    WireKept r :=
  drawJobs_wireKept (s := s.drawChoice) hd (hw.of_eq rfl rfl rfl rfl) hcs h

theorem exec_wire_wireOk {t : State} {i : Instr} {c : Cmd} {args : List Byte}
    (hi : wireCommand? s.cfg i = some (c, args)) (h : exec i s = .next t) : t.WireOk := by
  rw [exec_wire hi] at h
  obtain ⟨-, rfl⟩ := runCommand_next h
  exact (sendCommand_wireKept hw hcs (Opcodes.cmd?_byte hd c) (wireCommand?_counted hi)).finish _

end

/-- An operation whose body keeps the discipline. -/
theorem operation_wireOk {s t : State} {err : Completion} {body : State → Except Refusal (State × Status)}
    (hbody : ∀ r, body s = .ok r → WireKept r) (h : whenRunning s (fun x => settle err (body x)) = .next t) :
    t.WireOk := by
  obtain ⟨r, hr, rfl⟩ := settle_next (whenRunning_next h).2
  exact (hbody r hr).finish err

theorem exec_host_wireOk {s t : State} {i : Instr} (hi : opLayer i = .host) (hd : s.cfg.opc.distinct = true)
    (hw : s.WireOk) (hcs : s.csN = true) (h : exec i s = .next t) : t.WireOk := by
  cases i with
  | init o b c2 d => exact operation_wireOk (fun _ => hostInit_wireKept hd hw hcs) h
  | setOrientation o b c2 d => exact operation_wireOk (fun _ => hostOrientation_wireKept hd hw hcs) h
  | setAddressWindow r0 r1 c0 c1 => exact operation_wireOk (fun _ => hostWindow_wireKept hd hw hcs) h
  | writePixelStream a b c2 d px => exact operation_wireOk (fun _ => hostStream_wireKept hw hcs) h
  | clear color b c2 d => exact operation_wireOk (fun _ => hostClear_wireKept hd hw hcs) h
  | _ => cases hi

theorem exec_pseudo_wireOk {s t : State} {i : Instr} (hi : opLayer i = .pseudo) (hd : s.cfg.opc.distinct = true)
    (hw : s.WireOk) (hcs : s.csN = true) (h : exec i s = .next t) : t.WireOk := by
  cases i with
  | drawCircle | drawText =>
    rw [exec_drawing rfl] at h
    exact operation_wireOk (fun _ => drawing_wireKept hd hw hcs) h
  | plot r c p =>
    exact operation_wireOk (body := fun x => andThenHost (hostWindow r r c c x) (hostStream 0 0 0 0 [p]))
      (fun _ => windowStream_wireKept hd hw hcs) h
  | _ => cases hi

theorem exec_transport_wireOk {s t : State} {i : Instr} (hi : opLayer i = .transport) (hw : s.WireOk)
    (hcs : s.csN = true) (h : exec i s = .next t) : t.WireOk := by
  cases i with
  | sendCommand opcode args =>
    obtain ⟨⟨c, hc, hl⟩, rfl⟩ := exec_sendCommand_next h
    exact (sendCommand_wireKept hw hcs hc hl).finish _
  | sendPixels bytes =>
    rw [exec_sendPixels_next h]
    exact (sendPixels_wireKept hw hcs bytes).finish _
  | _ => cases hi

/-- Every operation that begins with chip-select released keeps the discipline. -/
theorem exec_keeps_wireOk {s t : State} {i : Instr} (hd : s.cfg.opc.distinct = true) (hw : s.WireOk)
    (hcs : s.csN = true) (h : exec i s = .next t) : t.WireOk := by
  cases hi : opLayer i with
  | wire =>
    obtain ⟨c, args, hc⟩ := wireCommand?_of_next hi h
    exact exec_wire_wireOk hd hw hcs hc h
  | transport => exact exec_transport_wireOk hi hw hcs h
  | host => exact exec_host_wireOk hi hd hw hcs h
  | pseudo => exact exec_pseudo_wireOk hi hd hw hcs h

/-- Settles O51: a step holds the state, or takes a request and runs its operation from a released chip-select. -/
theorem stepKeepsWireDiscipline : Obligations.StepKeepsWireDiscipline := by
  intro s t hd hidle hw h
  obtain ⟨hs, ⟨-, -, rfl⟩ | ⟨r, rest, i, s0, -, hx, ⟨-, -, -, rfl⟩ | ⟨-, -, rfl⟩⟩⟩ := step_cases h
  · exact hw
  · exact exec_keeps_wireOk (s := s.withPort rest) hd (hw.of_eq rfl rfl rfl rfl) (hidle hs) hx
  · exact exec_keeps_wireOk (s := s.withBench rest) hd (hw.of_eq rfl rfl rfl rfl) (hidle hs) hx

end Sys2Proof.Machine
end

section
/-! PROOF. The obligation of 41_controller_commands.md about the commands without arguments: SLPOUT, DISPON, RAMWR (O16). -/

namespace Sys2Proof.Machine

/-- Settles O16: each is its command, whose frame without arguments takes one transfer. -/
theorem commandsWithoutArgumentsComplete : Obligations.CommandsWithoutArgumentsComplete := by
  intro s hs ha
  have hframe := runCommand_ok (args := []) hs ha
  exact ⟨(exec_wire rfl).trans (hframe .slpout), (exec_wire rfl).trans (hframe .dispon),
    (exec_wire rfl).trans (hframe .ramwr)⟩

end Sys2Proof.Machine
end

section
/-! PROOF. The obligations of 42_init_sequencer.md: the block without a request (O2), INIT that fails (O22), SET_ORIENTATION
(O25, O26), and what INIT, SET_ORIENTATION and the drawing requests leave unchanged (O45). -/

namespace Sys2Proof.Machine

/-! ### Without a request (R198, R284) -/

/-- Settles O2: with the SPI master free a step looks at the two queues, and both are empty. -/
theorem idleBlockHoldsItsState : Obligations.IdleBlockHoldsItsState := by
  intro s hs hb hp
  rw [step, whenRunning_idle hs, hb, hp]

/-! ### A command whose transfer fails (R145) -/

/-- The frame of a command whose transfer `i` fails, the opcode byte's (0) or the arguments' (1). -/
def failedFrame (opcode : Byte) (args : List Byte) (i k : Nat) : List Event :=
  if i = 0 then opcodeFailedFrame else argsFailedFrame opcode args (deliveredOnFail k args.length)

/-- Of a single argument byte nothing reaches the wire. -/
theorem failedFrame_argument (opcode a : Byte) (k : Nat) : failedFrame opcode [a] 1 k =
    [.pin .csN false, .pin .dc false, .byte false opcode, .pin .dc true, .xferFail, .pin .csN true] := by
  simp [failedFrame, argsFailedFrame, deliveredOnFail]

/-- A state after primitives the last of which failed: chip-select released, DC left at `level`, the frames appended, the
answers drawn. -/
def State.cut (s : State) (level : Bool) (evs : List Event) (n : Nat) : State :=
  { s with csN := true, dc := level, tr := s.tr ++ evs, spiDrawn := s.spiDrawn + n }

theorem State.cut_rx (s : State) (level : Bool) (evs : List Event) (n : Nat) :
    (s.cut level evs n).rx = s.rx.run s.cfg evs := State.rx_append rfl rfl

/-- Transfer `i` of a command fails: 0 is the opcode byte's, 1 the arguments', if there are any. -/
theorem sendCommand_fails {s : State} {args : List Byte} {i k : Nat} (h : s.failsAt i k) (hi : i < 1 + transfers args)
    (opcode : Byte) :
    sendCommand opcode args s = (s.cut (decide (i = 1)) (failedFrame opcode args i k) (i + 1), .failed) := by
  have hn := transfers_le args
  obtain rfl | rfl : i = 0 ∨ i = 1 := by omega
  · rw [sendCommand_failsOpcode h.first]
    rfl
  · have hne : args ≠ [] := by rintro rfl; simp [transfers] at hi
    rw [sendCommand_failsArgs h hne]
    rfl

/-! ### INIT that fails (R193) -/

/-- INIT's commands from number `n` on, of which those of `pre` are sent whole and the next one fails: `pre` is counted,
ORIENT is written if the third command is in `pre`, and nothing follows the failed frame. -/
theorem runInitTable_fails (o : Half) (n : Nat) {pre rest : List (Cmd × List Byte)} {ca : Cmd × List Byte} {s : State}
    {i k : Nat} (hstep : s.initStep = BitVec.ofNat 3 n) (h : s.failsAt (tableTransfers pre + i) k)
    (hi : i < 1 + transfers ca.2) :
    runInitTable o n (pre ++ ca :: rest) s = ({ s.cut (decide (i = 1))
        (commandFrames s.cfg pre ++ failedFrame (s.cfg.opc.byte ca.1) ca.2 i k) (tableTransfers pre + (i + 1)) with
      initStep := BitVec.ofNat 3 (n + pre.length)
      orient := if n ≤ 2 ∧ 2 < n + pre.length then some o else s.orient }, .failed) := by
  induction pre generalizing n s with
  | nil =>
    have hfirst : s.failsAt i k := by simpa [tableTransfers] using h
    rw [List.nil_append, runInitTable, sendCommand_fails hfirst hi, andThen_failed, if_neg (by simp)]
    simp [State.cut, commandFrames, tableTransfers, ← hstep]
  | cons cb pre' ih =>
    have hcb : s.answersOk (1 + transfers cb.2) := State.answersOk_mono h.1 (by simp [tableTransfers]; omega)
    have hrest : (s.sent (commandFrame (s.cfg.opc.byte cb.1) cb.2) (1 + transfers cb.2)).failsAt (tableTransfers pre' + i) k :=
      State.failsAt_sent _ (by simpa only [tableTransfers, Nat.add_assoc] using h)
    have hk : (n + 1 ≤ 2 ∧ 2 < n + 1 + pre'.length) ∨ n = 2 ↔ n ≤ 2 ∧ 2 < n + (cb :: pre').length := by
      rw [List.length_cons]; omega
    rw [List.cons_append, runInitTable, sendCommand_ok hcb, andThen_ok,
      ih (n + 1) (s := commandDone o n (s.sent _ _)) rfl hrest]
    simp only [commandDone, ← ite_or, hk]
    simp [State.cut, State.sent, commandFrames, tableTransfers, Nat.add_assoc, Nat.add_comm, Nat.add_left_comm]

/-- INIT from Unpowered, of whose commands those of `pre` are sent whole and the next one fails: `evs` is its failed frame. -/
theorem exec_init_fails {s : State} {o b c2 d : Half} {row : OrientRow} {pre rest : List (Cmd × List Byte)}
    {ca : Cmd × List Byte} {i k : Nat} {evs : List Event} (hs : s.spi = .idle) (hc : s.ctrl = .unpowered)
    (hrow : s.cfg.orientSet[o.toNat]? = some row) (htable : s.cfg.initTable row.madctl = pre ++ ca :: rest)
    (hi : i < 1 + transfers ca.2) (hf : s.failsAt (tableTransfers pre + i) k)
    (hframe : failedFrame (s.cfg.opc.byte ca.1) ca.2 i k = evs) :
    exec (.init o b c2 d) s = .next { s with
      ctrl := .initializing
      initStep := BitVec.ofNat 3 pre.length
      orient := if 3 ≤ pre.length then some o else s.orient
      csN := true
      dc := decide (i = 1)
      rstN := true
      latches := { opc := 0, opa := o, opb := b, opc2 := c2, opd := d }
      tr := s.tr ++ (resetFrame s.cfg ++ commandFrames s.cfg pre ++ evs)
      spiDrawn := s.spiDrawn + (tableTransfers pre + i) + 1
      completions := s.completions ++ [.displayInitError] } := by
  have hbody := runInitTable_fails o 0 (pre := pre) (rest := rest) (s := { s with
    latches := { opc := 0, opa := o, opb := b, opc2 := c2, opd := d }
    ctrl := .initializing, initStep := 0, rstN := true, tr := s.tr ++ resetFrame s.cfg }) rfl hf hi
  simp only [exec, execInit, whenRunning_idle hs, hostInit_eq hc hrow, htable, hbody, hframe, noted_failed, settle_ok,
    finish_failed]
  simp [State.complete, State.cut, Nat.add_assoc, Nat.succ_le_iff]

/-- Neither Unpowered nor Ready: STATE admits no operation of the host (R190). -/
theorem exec_host_refused {s : State} {i : Instr} (hs : s.spi = .idle) (hu : s.ctrl ≠ .unpowered) (hr : s.ctrl ≠ .ready)
    (hi : opLayer i = .host) : ∃ e, exec i s = .refused e := by
  obtain ⟨hinit, hready⟩ := admissionByState s hs
  obtain ⟨hset, hwindow, hstream, hclear, -⟩ := hready hr
  cases i with
  | init o b c2 d => exact ⟨_, hinit o b c2 d hu⟩
  | setOrientation o b c2 d => exact ⟨_, hset o b c2 d⟩
  | setAddressWindow r0 r1 c0 c1 => exact ⟨_, hwindow r0 r1 c0 c1⟩
  | writePixelStream a b c2 d px => exact ⟨_, hstream a b c2 d px⟩
  | clear color b c2 d => exact ⟨_, hclear color b c2 d⟩
  | _ => cases hi

/-- Settles O22: transfers 0, 1, 3 and 5 are the opcode bytes of commands 0 to 3, transfers 2 and 4 the arguments of
commands 1 and 2; the state each failure leaves admits nothing. -/
theorem initFailureIsFatal : Obligations.InitFailureIsFatal := by
  intro s o b c2 d row j k hs hc hrow hj hf
  refine ⟨?_, fun i hi => exec_host_refused hs (by simp) (by simp) hi⟩
  interval_cases j
  · exact exec_init_fails (pre := (s.cfg.initTable row.madctl).take 0) (i := 0) hs hc hrow rfl (by simp) hf rfl
  · exact exec_init_fails (pre := (s.cfg.initTable row.madctl).take 1) (i := 0) hs hc hrow rfl (by simp) hf rfl
  · exact exec_init_fails (pre := (s.cfg.initTable row.madctl).take 1) (i := 1) hs hc hrow rfl (by simp [transfers]) hf
      (failedFrame_argument ..)
  · exact exec_init_fails (pre := (s.cfg.initTable row.madctl).take 2) (i := 0) hs hc hrow rfl (by simp) hf rfl
  · exact exec_init_fails (pre := (s.cfg.initTable row.madctl).take 2) (i := 1) hs hc hrow rfl (by simp [transfers]) hf
      (failedFrame_argument ..)
  · exact exec_init_fails (pre := (s.cfg.initTable row.madctl).take 3) (i := 0) hs hc hrow rfl (by simp) hf rfl

/-! ### SET_ORIENTATION (R196, R197) -/

theorem exec_setOrientation_ready {s : State} {o b c2 d : Half} {row : OrientRow} (hs : s.spi = .idle)
    (hc : s.ctrl = .ready) (hrow : s.cfg.orientSet[o.toNat]? = some row) :
    exec (.setOrientation o b c2 d) s =
      .next (finish .displayIoError (noted o (orientationBody o row.madctl (s.accept 1 o b c2 d)))) := by
  rw [exec, execSetOrientation, whenRunning_idle hs, hostOrientation_eq hc hrow, settle_ok]

/-- Settles O25: the command's frame, then ORIENT and the host's note. -/
theorem setOrientationCompletes : Obligations.SetOrientationCompletes := by
  intro s o b c2 d row hs hc hrow ha
  rw [exec_setOrientation_ready hs hc hrow, orientationBody, sendCommand_ok (s := s.accept 1 o b c2 d) (args := [row.madctl]) ha,
    andThen_ok, noted_ok, finish_ok]
  rfl

/-- The failure in the frame leaves the controller's orientation indeterminate, whatever it was (R197 (d)). -/
theorem Rx.run_failedFrame_madctl (p : Params) (rx : Rx) (opcode : Byte) (args : List Byte) (i k : Nat) :
    (rx.run p (failedFrame opcode args i k)).madctl = .indeterminate := by
  unfold failedFrame
  split
  · exact Rx.run_failed_madctl p rx [.pin .csN false, .pin .dc false]
  · exact Rx.run_failed_madctl p rx _

/-- Settles O26: the failed command ends the operation before ORIENT is written, and the receiver sees its failure. -/
theorem setOrientationFailureKeepsOrient : Obligations.SetOrientationFailureKeepsOrient := by
  intro s o b c2 d row j k hs hc hrow hj hf
  have hbody := sendCommand_fails (s := s.accept 1 o b c2 d) (args := [row.madctl]) hf hj (s.cfg.opc.byte .madctl)
  refine ⟨_, exec_setOrientation_ready hs hc hrow, ?_⟩
  rw [orientationBody, State.accept_cfg, hbody, andThen_failed, noted_failed]
  refine ⟨rfl, rfl, hc, rfl, rfl, rfl, ?_⟩
  rw [finish_rx, State.cut_rx, Rx.run_failedFrame_madctl]

/-! ### What INIT, SET_ORIENTATION and the drawing requests leave unchanged (R192, R196, R240) -/

/-- Settles O45: SET_ORIENTATION and INIT by where their bodies end, a pseudo-operation by what every operation keeps that
does not set the orientation; the end adds a completion value alone. -/
theorem sequencerAndRendererFrame : Obligations.SequencerAndRendererFrame := by
  refine ⟨fun s t o b c2 d h => ?_, fun s t o b c2 d h => ?_, fun s t i hi h => ?_⟩
  · simp only [exec, execSetOrientation] at h
    obtain ⟨r, hr, rfl⟩ := settle_next (whenRunning_next h).2
    obtain ⟨-, m, -, rfl⟩ := hostOrientation_next hr
    obtain ⟨hkept, -⟩ := orientationBody_end o m (s.accept 1 o b c2 d)
    rw [finish_eq, noted_eq]
    split
    · rw [State.noteOrient, hkept]; rfl
    · rw [hkept]; rfl
  · obtain ⟨-, r, rfl, ⟨o', b', c', d', he, hr⟩ | ⟨hne, -⟩⟩ := exec_cases h
    · cases he
      rw [finish_eq, hr.ends.kept]
    · exact absurd rfl (hne o b c2 d)
  · obtain ⟨-, r, rfl, ⟨o, b, c2, d, rfl, -⟩ | ⟨-, hr⟩⟩ := exec_cases h
    · cases hi
    · obtain ⟨horient, hhost⟩ : r.1.orient = s.orient ∧ r.1.hostOrient = s.hostOrient :=
        hr.orient.resolve_right (by rintro ⟨o, b, c2, d, rfl, -⟩; cases hi)
      have hkept := hr.kept
      rw [horient, hhost] at hkept
      rw [finish_eq, hkept]

end Sys2Proof.Machine
end

section
/-! PROOF. The obligations of 43_window_pixel_sequencer.md: SET_ADDRESS_WINDOW that fails (O28), WRITE_PIXEL_STREAM (O29, O30),
CLEAR (O31, O32), and the block after `DisplayIoError` (O41). -/

namespace Sys2Proof.Machine

/-! ### Frames before the failed one (R262) -/

/-- Frames sent whole and then one that failed make one failed run of frames. -/
theorem State.cut_sent (s : State) (e1 e2 : List Event) (m n : Nat) (level : Bool) :
    (s.sent e1 m).cut level e2 n = s.cut level (e1 ++ e2) (m + n) := by
  simp [State.sent, State.cut, Nat.add_assoc]

theorem State.failsAt.congr {s t : State} {n k : Nat} (h : s.failsAt n k) (hscript : t.spiScript = s.spiScript)
    (hdrawn : t.spiDrawn = s.spiDrawn) : t.failsAt n k := (State.failsAt_congr hscript hdrawn n k).mpr h

/-- The commands of `pre` are sent whole and the next one fails: nothing of `rest` is begun. -/
theorem sendCommands_fails {pre rest : List (Cmd × List Byte)} {ca : Cmd × List Byte} {s : State} {i k : Nat}
    (h : s.failsAt (tableTransfers pre + i) k) (hi : i < 1 + transfers ca.2) :
    sendCommands (pre ++ ca :: rest) s = (s.cut (decide (i = 1))
      (commandFrames s.cfg pre ++ failedFrame (s.cfg.opc.byte ca.1) ca.2 i k) (tableTransfers pre + (i + 1)), .failed) := by
  induction pre generalizing s with
  | nil =>
    have hfirst : s.failsAt i k := by simpa [tableTransfers] using h
    rw [List.nil_append, sendCommands, sendCommand_fails hfirst hi, andThen_failed]
    simp [commandFrames, tableTransfers]
  | cons cb pre' ih =>
    rw [tableTransfers, Nat.add_assoc] at h
    rw [List.cons_append, sendCommands, sendCommand_ok (State.answersOk_mono h.1 (Nat.le_add_right ..)), andThen_ok,
      ih (State.failsAt_sent _ h), State.cut_sent]
    simp [commandFrames, tableTransfers, Nat.add_assoc]

/-! ### SET_ADDRESS_WINDOW that fails (R211) -/

/-- SET_ADDRESS_WINDOW in Ready with good bounds, of whose commands those of `pre` are sent whole and the next one fails:
`evs` is its failed frame. -/
theorem exec_window_fails {s : State} {r0 r1 c0 c1 : Half} {nr nc : Nat} {pre rest : List (Cmd × List Byte)}
    {ca : Cmd × List Byte} {i k : Nat} {evs : List Event} (hs : s.spi = .idle) (hc : s.ctrl = .ready)
    (hdm : s.dims? = some (nr, nc)) (hb : boundsOk nr nc r0 r1 c0 c1 = true)
    (htable : windowTable r0 r1 c0 c1 = pre ++ ca :: rest) (hi : i < 1 + transfers ca.2)
    (hf : s.failsAt (tableTransfers pre + i) k) (hframe : failedFrame (s.cfg.opc.byte ca.1) ca.2 i k = evs) :
    exec (.setAddressWindow r0 r1 c0 c1) s = .next { s with
      csN := true
      dc := decide (i = 1)
      latches := { opc := 2, opa := r0, opb := r1, opc2 := c0, opd := c1 }
      tr := s.tr ++ (commandFrames s.cfg pre ++ evs)
      spiDrawn := s.spiDrawn + (tableTransfers pre + i) + 1
      completions := s.completions ++ [.displayIoError] } := by
  have hbody := sendCommands_fails (rest := rest) (s := s.accept 2 r0 r1 c0 c1) (hf.congr rfl rfl) hi
  rw [← htable, State.accept_cfg, hframe] at hbody
  simp only [exec, execSetAddressWindow, whenRunning_idle hs, hostWindow_eq hc hdm hb, windowBody, hbody, settle_ok,
    finish_failed]
  rfl

/-- The bounds' four bytes, of which `k` reached the wire (R108, R145). -/
theorem failedFrame_bounds {k : Nat} (hk : k < 4) (opcode : Byte) (v0 v1 : Half) :
    failedFrame opcode (boundArgs v0 v1) 1 k = argsFailedFrame opcode (be16 v0 ++ be16 v1) k := by
  rw [failedFrame, if_neg Nat.one_ne_zero, boundArgs_length, deliveredOnFail_of_lt hk, boundArgs]

/-- Settles O28: transfers 0, 2 and 4 are the opcode bytes of the three commands, transfers 1 and 3 the bounds of the first
two. -/
theorem setAddressWindowFailure : Obligations.SetAddressWindowFailure := by
  intro s r0 r1 c0 c1 nr nc j k hs hc hdm hb hj hk hf
  have hbounds (v0 v1 : Half) : 1 < 1 + transfers (boundArgs v0 v1) := by simp [transfers]
  interval_cases j
  · exact exec_window_fails (pre := (windowTable r0 r1 c0 c1).take 0) (i := 0) hs hc hdm hb rfl (by simp) hf rfl
  · exact exec_window_fails (pre := (windowTable r0 r1 c0 c1).take 0) (i := 1) hs hc hdm hb rfl (hbounds r0 r1) hf
      (failedFrame_bounds hk ..)
  · exact exec_window_fails (pre := (windowTable r0 r1 c0 c1).take 1) (i := 0) hs hc hdm hb rfl (by simp) hf rfl
  · exact exec_window_fails (pre := (windowTable r0 r1 c0 c1).take 1) (i := 1) hs hc hdm hb rfl (hbounds c0 c1) hf
      (failedFrame_bounds hk ..)
  · exact exec_window_fails (pre := (windowTable r0 r1 c0 c1).take 2) (i := 0) hs hc hdm hb rfl (by simp) hf rfl

/-! ### WRITE_PIXEL_STREAM (R214, R215) -/

/-- The bytes of a stream as they are shifted out: two a pixel, most significant first (R63, R109). -/
theorem map_byte_pixelBytes (px : List Pixel) :
    (pixelBytes px).map (Event.byte true) = px.flatMap fun p => [.byte true (hi8 p), .byte true (lo8 p)] := by
  induction px with
  | nil => rfl
  | cons p ps ih => rw [pixelBytes, List.map_cons, List.map_cons, ih]; rfl

/-- Only an empty stream takes no transfer (R214, R215 (a)). -/
theorem transfers_pixelBytes (px : List Pixel) : transfers (pixelBytes px) = if px = [] then 0 else 1 := by
  simp [transfers]

theorem exec_stream_ready {s : State} (hs : s.spi = .idle) (hc : s.ctrl = .ready) (a b c2 d : Half) (px : List Pixel) :
    exec (.writePixelStream a b c2 d px) s =
      .next (finish .displayIoError (streamBody px (s.accept 3 a b c2 d))) := by
  rw [exec, execWritePixelStream, whenRunning_idle hs, hostStream_eq hc, settle_ok]

/-- A stream whose transfer fails after `k` of its bytes. -/
theorem streamBody_fails {s : State} {px : List Pixel} {k : Nat} (hk : k < 2 * px.length) (hf : s.failsAt 0 k) :
    streamBody px s = (s.cut true (dataFailedFrame (pixelBytes px) k) 1, .failed) := by
  rw [← pixelBytes_length] at hk
  rw [streamBody, sendPixels_fails hf.first (List.length_pos_iff.mp (Nat.zero_lt_of_lt hk)), deliveredOnFail_of_lt hk]
  rfl

/-- Settles O29: the body is one SEND_PIXELS, and its frame is that of the pixels' bytes. -/
theorem writePixelStreamCompletes : Obligations.WritePixelStreamCompletes := by
  intro s a b c2 d px hs hc ha
  rw [← transfers_pixelBytes] at ha ⊢
  rw [exec_stream_ready hs hc, streamBody_ok (s := s.accept 3 a b c2 d) ha, finish_ok, ← map_byte_pixelBytes]
  rfl

/-- Settles O30: the body is one SEND_PIXELS, cut after `k` bytes. -/
theorem writePixelStreamFailure : Obligations.WritePixelStreamFailure := by
  intro s a b c2 d px k hs hc hk hf
  rw [exec_stream_ready hs hc, streamBody_fails hk (hf.congr (t := s.accept 3 a b c2 d) rfl rfl), finish_failed,
    ← map_byte_pixelBytes, ← List.map_take]
  rfl

/-! ### CLEAR (R216, R217) -/

theorem exec_clear_ready {s : State} {nr nc : Nat} (hs : s.spi = .idle) (hc : s.ctrl = .ready)
    (hdm : s.dims? = some (nr, nc)) (color : Pixel) (b c2 d : Half) :
    exec (.clear color b c2 d) s =
      .next (finish .displayIoError (clearBody color nr nc (s.accept 4 color b c2 d))) := by
  rw [exec, execClear, whenRunning_idle hs, hostClear_eq hc hdm, settle_ok]

/-- The frames of a window, in the order row, column, memory-write (R211, D14). -/
theorem commandFrames_windowTable (p : Params) (r0 r1 c0 c1 : Half) :
    commandFrames p (windowTable r0 r1 c0 c1) = commandFrame p.opc.raset (be16 r0 ++ be16 r1) ++
      commandFrame p.opc.caset (be16 c0 ++ be16 c1) ++ commandFrame p.opc.ramwr [] := by
  simp [commandFrames, windowTable, Opcodes.byte, boundArgs]

/-- Settles O31: the window's frames and CLEAR's data frames, whose counts are the chunks and what is left. -/
theorem clearCompletes : Obligations.ClearCompletes := by
  intro s color b c2 d nr nc hs hc hw hdm chunk counts ha
  obtain ⟨-, -, -, hchunk, -⟩ := params_wf_iff.mp hw
  obtain ⟨⟨hnr, -⟩, hnc, -⟩ := State.dims?_range hw hdm
  have hcounts : clearFrames chunk (nr * nc) (nr * nc) = counts := clearFrames_eq hchunk _ _ le_rfl
  have hbody := clearBody_ok (s := s.accept 4 color b c2 d) color hchunk (Nat.mul_pos hnr hnc) (hcounts ▸ ha)
  refine ⟨?_, hcounts ▸ clearFrames_sum hchunk _ _ le_rfl, hcounts ▸ clearFrames_pos hchunk _ _ le_rfl⟩
  rw [exec_clear_ready hs hc hdm, hbody, finish_ok, ← hcounts, ← commandFrames_windowTable]
  rfl

/-- The first of some data frames of one colour is cut: nothing of `rest` is begun. -/
theorem fillFrames_cons_fails {color : Pixel} {n k : Nat} (hk : k < 2 * n) {s : State} (hf : s.failsAt 0 k)
    (rest : List Nat) : fillFrames color (n :: rest) s =
      (s.cut true (dataFailedFrame (pixelBytes (List.replicate n color)) k) 1, .failed) := by
  rw [fillFrames, streamBody_fails (by rwa [List.length_replicate]) hf, andThen_failed]

/-- Data frames of one colour of which those of `pre` are sent whole and the next one, of `n` pixels, is cut. -/
theorem fillFrames_fails {color : Pixel} {pre rest : List Nat} {n k : Nat} (hpre : ∀ m ∈ pre, 1 ≤ m) (hk : k < 2 * n)
    {s : State} (hf : s.failsAt pre.length k) :
    fillFrames color (pre ++ n :: rest) s = (s.cut true
      ((pre.flatMap fun m => dataFrame (pixelBytes (List.replicate m color))) ++
        dataFailedFrame (pixelBytes (List.replicate n color)) k) (pre.length + 1), .failed) := by
  by_cases hne : pre = []
  · subst hne
    exact fillFrames_cons_fails hk hf rest
  · rw [fillFrames_append, fillFrames_ok color pre hne hpre hf.1, andThen_ok,
      fillFrames_cons_fails hk (State.failsAt_sent _ hf), State.cut_sent]

/-- CLEAR's body cut in data frame number `j`, a full one. -/
theorem clearBody_fails {s : State} {color : Pixel} {nr nc j k : Nat} (hchunk : 1 ≤ s.cfg.clearChunk)
    (hj : (j + 1) * s.cfg.clearChunk ≤ nr * nc) (hk : k < 2 * s.cfg.clearChunk) (hf : s.failsAt (5 + j) k) :
    clearBody color nr nc s = (s.cut true
      (commandFrames s.cfg (windowTable 0 (BitVec.ofNat 16 (nr - 1)) 0 (BitVec.ofNat 16 (nc - 1))) ++
        ((List.replicate j (dataFrame (pixelBytes (List.replicate s.cfg.clearChunk color)))).flatten ++
          dataFailedFrame (pixelBytes (List.replicate s.cfg.clearChunk color)) k)) (5 + (j + 1)), .failed) := by
  have hwhole : j + 1 ≤ nr * nc / s.cfg.clearChunk := (Nat.le_div_iff_mul_le hchunk).mpr hj
  obtain ⟨more, hmore⟩ := Nat.exists_eq_add_of_le hwhole
  have hframes : clearFrames s.cfg.clearChunk (nr * nc) (nr * nc) = List.replicate j s.cfg.clearChunk ++
      s.cfg.clearChunk :: (List.replicate more s.cfg.clearChunk ++
        if nr * nc % s.cfg.clearChunk = 0 then [] else [nr * nc % s.cfg.clearChunk]) := by
    rw [clearFrames_eq hchunk _ _ le_rfl, hmore, Nat.add_assoc, List.replicate_add, List.replicate_add]
    simp
  rw [clearBody, windowBody_ok (State.answersOk_mono hf.1 (Nat.le_add_right ..)), andThen_ok, hframes,
    fillFrames_fails (fun m hm => (List.eq_of_mem_replicate hm).symm ▸ hchunk) hk
      (by rw [List.length_replicate]; exact State.failsAt_sent _ hf),
    State.cut_sent, List.flatMap_replicate, List.length_replicate]

/-- Settles O32: the window and `j` frames are sent whole, and the next one is cut. -/
theorem clearFailureInAFrame : Obligations.ClearFailureInAFrame := by
  intro s color b c2 d nr nc j k hs hc hw hdm hf hj hk
  obtain ⟨-, -, -, hchunk, -⟩ := params_wf_iff.mp hw
  have hbody := clearBody_fails (s := s.accept 4 color b c2 d) (color := color) hchunk hj hk (hf.congr rfl rfl)
  refine ⟨_, exec_clear_ready hs hc hdm color b c2 d, ?_⟩
  rw [hbody, finish_failed, List.append_assoc]
  exact ⟨rfl, rfl, rfl, hc⟩

/-! ### After `DisplayIoError` (R218, R266, R268) -/

/-- Only a failed body hands back an error. -/
theorem failed_of_finish_error {r : State × Status} {err c : Completion}
    (h : (finish err r).completions = r.1.completions ++ [c]) (hc : c ≠ .ok) : r.2 = .failed := by
  obtain ⟨t, st⟩ := r
  cases st with
  | ok => exact absurd (by simpa using h.symm) hc
  | failed => rfl
  | stuck => simp at h

/-- A failed body touched the wire, so it released chip-select (R145). -/
theorem Ran.released_of_failed {s : State} {r : State × Status} {evs : List Event} (h : Ran s r evs)
    (hf : r.2 = .failed) : r.1.csN = true := by
  obtain ⟨before, rfl, -⟩ := h.failed hf
  exact h.released (by simp) (by simp [hf])

/-- Settles O41: INIT is not admitted in Ready, and the failed body of any other operation wrote neither STATE nor ORIENT
nor INIT_STEP, and released chip-select. -/
theorem ioErrorLeavesTheBlockReady : Obligations.IoErrorLeavesTheBlockReady := by
  intro s t i _ hc h herr
  obtain ⟨hs, r, rfl, ⟨o, b, c2, d, rfl, hr⟩ | ⟨-, hr⟩⟩ := exec_cases h
  · simp [hr.admitted] at hc
  · obtain ⟨evs, hran⟩ := hr.ran
    have hvalues : r.1.completions = s.completions := by rw [hr.kept]
    have hfailed : r.2 = .failed := failed_of_finish_error (hvalues ▸ herr) (by decide)
    obtain ⟨horient, -⟩ : r.1.orient = s.orient ∧ r.1.hostOrient = s.hostOrient :=
      hr.orient.resolve_right (by rintro ⟨o, b, c2, d, -, hok, -⟩; simp [hok] at hfailed)
    obtain ⟨hctrl, hstep, hcfg⟩ : r.1.ctrl = s.ctrl ∧ r.1.initStep = s.initStep ∧ r.1.cfg = s.cfg := by
      rw [hr.kept]; exact ⟨rfl, rfl, rfl⟩
    rw [finish_eq]
    exact ⟨hctrl.trans hc, horient, hstep, hran.released_of_failed hfailed, (hran.free (by simp [hfailed])).trans hs, hcfg⟩

end Sys2Proof.Machine
end

section
/-! PROOF. The obligations of 44_host_renderer_pseudo_ops.md: the lines of a text (O36), and a text without a foreground
pixel (O37). -/

namespace Sys2Proof.Machine

/-! ### The lines of a text (R247, R248) -/

/-- Characters without a newline are one line. -/
theorem textLines_of_noNewline {chars : List Char} (h : '\n' ∉ chars) : textLines chars = [chars] := by
  induction chars with
  | nil => rfl
  | cons ch rest ih =>
    obtain ⟨hch, hrest⟩ := not_or.mp (List.mem_cons.not.mp h)
    rw [textLines, if_neg (Ne.symm hch), ih hrest]

/-- A line ends at the first newline, which is in no line. -/
theorem textLines_newline {chars : List Char} (h : '\n' ∉ chars) (rest : List Char) :
    textLines (chars ++ '\n' :: rest) = chars :: textLines rest := by
  induction chars with
  | nil => simp [textLines]
  | cons ch more ih =>
    obtain ⟨hch, hmore⟩ := not_or.mp (List.mem_cons.not.mp h)
    rw [List.cons_append, textLines, if_neg (Ne.symm hch), ih hmore]

/-- The rounding is free for centred lines of odd width only (N12). -/
theorem lineStart_of_even {align : Alignment} {w : Nat} (h : align = .center → w % 2 = 0) (anchor : Nat) (up : Bool) :
    lineStart align anchor w up = lineStart align anchor w false := by
  cases align with
  | start => rfl
  | ending => rfl
  | center =>
    have heven : (w + 1) / 2 = w / 2 := by have := h rfl; omega
    simp [lineStart, heven]

/-- The foreground pixels of one line whose cells have this top row and begin at this column. -/
def lineCells (p : Params) (choice : RenderChoice) (chars : List Char) (top left : Int) : List (List (Int × Int)) :=
  chars.zipIdx.map fun cj => (glyphBits p.glyphW p.glyphH (glyphMask p choice cj.1)).map fun b =>
    (top + b.1, left + cj.2 * p.glyphW + b.2)

/-- A text is drawn line by line (R247). -/
theorem textCells_eq_lines (p : Params) (choice : RenderChoice) (text : List Char) (row col : Nat) (align : Alignment) :
    textCells p choice text row col align = (textLines text).zipIdx.flatMap fun lk =>
      lineCells p choice lk.1 (row + choice.top + lk.2 * p.lineHeight)
        (lineStart align col (lk.1.length * p.glyphW) (choice.roundUp.getD lk.2 false)) := rfl

/-- Settles O36: the newline splits the text into the two lines, each begins where its own width says, and the line of
index k stands k line heights down. -/
theorem textLinesAreAlignedEach : Obligations.TextLinesAreAlignedEach := by
  intro p choice first second row col align hfirst hsecond heven
  have hlines : textLines (first ++ '\n' :: second) = [first, second] := by
    rw [textLines_newline hfirst, textLines_of_noNewline hsecond]
  rw [textCells_eq_lines, hlines]
  simp only [List.zipIdx_cons, List.zipIdx_nil, List.flatMap_cons, List.flatMap_nil, List.append_nil,
    lineStart_of_even fun h => (heven h).1, lineStart_of_even fun h => (heven h).2, Nat.cast_zero, zero_mul, add_zero,
    zero_add, Nat.cast_one, one_mul]
  cases align <;> rfl

/-! ### Texts without a foreground pixel (R249) -/

/-- Without a foreground pixel there is no window to set. -/
theorem textJobs_eq_nil {p : Params} {choice : RenderChoice} {text : List Char} {row col : Nat} {align : Alignment}
    (h : (textCells p choice text row col align).flatten = []) (panel : Option (Nat × Nat)) (color : Pixel) :
    textJobs p choice panel text row col align color = [] :=
  List.eq_nil_of_length_eq_zero <| by
    simpa [h] using textJobs_length_le p choice panel text row col align color

/-- Settles O37: there is no job, so the block's admission is never asked. -/
theorem emptyTextIssuesNothing : Obligations.EmptyTextIssuesNothing := by
  intro s text row col align color hs hempty
  rw [exec_drawing rfl, whenRunning_idle hs, drawingJobs, textJobs_eq_nil hempty, drawJobs, settle_ok, finish_ok]
  rfl

end Sys2Proof.Machine
end

section
/-! PROOF. The obligation of 60_exceptions.md: an operation stops at its first failed transfer (O40). -/

namespace Sys2Proof.Machine

/-- Only a failed body put a failed transfer in the trace (R145). -/
theorem Ran.failed_of_xferFail {s : State} {r : State × Status} {evs : List Event} (h : Ran s r evs)
    (hmem : Event.xferFail ∈ evs) : r.2 = .failed := by
  by_contra hne
  exact h.clean hne hmem

/-- Wherever a body's events are cut at a failed transfer, none stands before the cut and the release of chip-select
alone after it (R262). -/
theorem Ran.cut_at_xferFail {s : State} {r : State × Status} {evs pre before after : List Event} (h : Ran s r evs)
    (hpre : Event.xferFail ∉ pre) (hcut : pre ++ evs = before ++ .xferFail :: after) :
    r.2 = .failed ∧ Event.xferFail ∉ before ∧ after = [.pin .csN true] := by
  have hmem : Event.xferFail ∈ pre ++ evs := by simp [hcut]
  have hfailed := h.failed_of_xferFail ((List.mem_append.mp hmem).resolve_left hpre)
  obtain ⟨sent, rfl, hsent⟩ := h.failed hfailed
  rw [← List.append_assoc] at hcut
  obtain ⟨rfl, -, rfl⟩ := (List.append_cons_inj_of_notMem (by simp [hpre, hsent]) (by simp)).mp hcut
  exact ⟨hfailed, by simp [hpre, hsent], rfl⟩

/-- Settles O40: what the operation appended is its body's events, after a reset frame without failures for INIT, and a
failed body hands back the operation's error. -/
theorem abortAtFirstFailure : Obligations.AbortAtFirstFailure := by
  intro s t i before after h htr
  obtain ⟨-, pre, r, evs, rfl, hpre, hc, hr⟩ := exec_ran h
  have hcut : pre ++ evs = before ++ .xferFail :: after := by simpa [hr.tr] using htr
  obtain ⟨hfailed, hbefore, hafter⟩ := hr.cut_at_xferFail hpre hcut
  refine ⟨hbefore, hafter, ?_⟩
  rw [finish_eq, hfailed, hc]
  rfl

end Sys2Proof.Machine
end
